-- ==== Sys2Proof/Word.lean ====
section
/-! DEFINITION. The widths of the machine's values: word, instruction word, byte, register index, counter. -/

namespace Sys2Proof

/-- A word of width XLEN = `n` (R9, R10).  Registers, cells, the pc, addresses and runtime slots are words;
arithmetic on them is modulo 2^n. -/
abbrev Word (n : Nat) := BitVec n

/-- An instruction word: 32 bits whatever XLEN is (R75). -/
abbrev InstrWord := BitVec 32

/-- One byte of a cell, for the byte view of R60. -/
abbrev Byte := BitVec 8

/-- The index of one of the NREG = 32 general registers (R20, R21), as wide as the fields `ra`, `rb`, `rc` (R75). -/
abbrev RegId := BitVec 5

/-- An unsigned counter of width CTR_W = `n` (R8, R34). -/
abbrev Counter (n : Nat) := BitVec n

end Sys2Proof
end

