-- ==== Sys2Proof/Syntax.lean ====
section
/-! DEFINITION. The instructions: one constructor per row of spec/opcode_table.json (R76). -/

namespace Sys2Proof

/-- The construction fields of an instruction record (R28, R70), one constructor per row of the opcode map (R76).
An immediate, an offset and a jump target are the literal as an integer; that it fits the field of its encoding (R77)
is the check of `Instr.wellFormed`, and its XLEN-bit value is that of `Sys2Proof.Machine.immOf` and
`Sys2Proof.Machine.targetOf`. -/
inductive Instr where
  /-- The bubble (R29, R131), the word 0. -/
  | empty
  /-- `add dest,s1,s2` (R101). -/
  | add (dest src1 src2 : RegId)
  /-- `sub dest,s1,s2` (R102). -/
  | sub (dest src1 src2 : RegId)
  /-- `mult dest,s1,s2` (R103). -/
  | mult (dest src1 src2 : RegId)
  /-- `add dest,s1,imm` (R104). -/
  | addImm (dest src1 : RegId) (imm : Int)
  /-- `sub dest,s1,imm` (R105). -/
  | subImm (dest src1 : RegId) (imm : Int)
  /-- `mult dest,s1,imm` (R106). -/
  | multImm (dest src1 : RegId) (imm : Int)
  /-- `lw dest,offset(base)` (R120). -/
  | lw (dest base : RegId) (offset : Int)
  /-- `sw srcVal,offset(base)` (R121). -/
  | sw (srcVal base : RegId) (offset : Int)
  /-- `j target` (R130). -/
  | j (target : Int)
deriving DecidableEq, Repr

/-- The five kinds of record (R70). -/
inductive Kind where
  | arithmetic
  | load
  | store
  | jump
  | empty
deriving DecidableEq, Repr

/-- The operator of an Arithmetic record (R28, R70). -/
inductive ArithOp where
  | add
  | sub
  | mult
deriving DecidableEq, Repr

end Sys2Proof
end

