-- ==== Sys2Proof/WellFormed.lean ====
section
/-! DEFINITION. Well-formed instruction records: every literal fits its field (R73, R77). -/

namespace Sys2Proof

/-- An immediate or an offset that has an `imm16` field: it is in -32768..32767 (R77). -/
def fitsImm16 (v : Int) : Bool := decide (-32768 ≤ v) && decide (v ≤ 32767)

/-- A target that has a `target26` field: it is in 0..0x3FFFFFF (R77). -/
def fitsTarget26 (t : Int) : Bool := decide (0 ≤ t) && decide (t ≤ 0x3FFFFFF)

/-- A record is well formed when every literal fits its field (R73, U12).  That it has exactly the operands of
its kind, and that register indices are in 0..31, hold by the type. -/
def Instr.wellFormed : Instr → Bool
  | .empty => true
  | .add _ _ _ => true
  | .sub _ _ _ => true
  | .mult _ _ _ => true
  | .addImm _ _ imm => fitsImm16 imm
  | .subImm _ _ imm => fitsImm16 imm
  | .multImm _ _ imm => fitsImm16 imm
  | .lw _ _ offset => fitsImm16 offset
  | .sw _ _ offset => fitsImm16 offset
  | .j target => fitsTarget26 target

end Sys2Proof
end

