-- ==== Sys2Proof/Decode.lean ====
section
/-! DEFINITION. The decoder of R79, total on words and on bytes, and its inverse on well-formed records (R80). -/

namespace Sys2Proof

/-- Why a word is no instruction (R78).  The machine has one behaviour for all of them, IllegalInstruction;
`truncated` is raised only by `decodeBytes`, and `wideCell` only where XLEN is over 32. -/
inductive DecodeError where
  /-- Opcode 0x00 with a nonzero bit among 25:0 (format Z). -/
  | emptyNonzero
  /-- Opcode 0x01 to 0x03 with a nonzero bit among 10:0 (format R). -/
  | lowBitsNonzero
  /-- An opcode that no row of R76 has. -/
  | unusedOpcode
  /-- Fewer than four bytes. -/
  | truncated
  /-- A cell of more than 32 bits with a bit set above bit 31. -/
  | wideCell
deriving DecidableEq, Repr

/-- Bits 31:26 of a word (R75). -/
def opcodeField (w : InstrWord) : BitVec 6 := w.extractLsb' 26 6

/-- The field `ra`, bits 25:21 (R75). -/
def raField (w : InstrWord) : RegId := w.extractLsb' 21 5

/-- The field `rb`, bits 20:16 (R75). -/
def rbField (w : InstrWord) : RegId := w.extractLsb' 16 5

/-- The field `rc`, bits 15:11 (R75). -/
def rcField (w : InstrWord) : RegId := w.extractLsb' 11 5

/-- Bits 10:0 of a word, which format R requires to be 0 (R75). -/
def lowField (w : InstrWord) : BitVec 11 := w.extractLsb' 0 11

/-- Bits 15:0 as a two's-complement number (R77). -/
def immField (w : InstrWord) : Int := (w.extractLsb' 0 16).toInt

/-- Bits 25:0 as an unsigned number (R77). -/
def targetField (w : InstrWord) : Int := (w.extractLsb' 0 26).toNat

/-- A format R record, refused where bits 10:0 are not 0 (R78, R79). -/
def decodeR (mk : RegId → RegId → RegId → Instr) (w : InstrWord) : Except DecodeError Instr :=
  if lowField w = 0#11 then .ok (mk (raField w) (rbField w) (rcField w)) else .error .lowBitsNonzero

/-- The decode function of R79. -/
def decode (w : InstrWord) : Except DecodeError Instr :=
  let op := opcodeField w
  if op = 0x00#6 then (if w = 0#32 then .ok .empty else .error .emptyNonzero)
  else if op = 0x01#6 then decodeR .add w
  else if op = 0x02#6 then decodeR .sub w
  else if op = 0x03#6 then decodeR .mult w
  else if op = 0x09#6 then .ok (.addImm (raField w) (rbField w) (immField w))
  else if op = 0x0A#6 then .ok (.subImm (raField w) (rbField w) (immField w))
  else if op = 0x0B#6 then .ok (.multImm (raField w) (rbField w) (immField w))
  else if op = 0x10#6 then .ok (.lw (raField w) (rbField w) (immField w))
  else if op = 0x11#6 then .ok (.sw (raField w) (rbField w) (immField w))
  else if op = 0x20#6 then .ok (.j (targetField w))
  else .error .unusedOpcode

/-- The instruction a cell of XLEN = `n` bits holds: bits 31:0 are its word, and a bit above them makes it none
(log entry 13). -/
def decodeCell {n : Nat} (c : Word n) : Except DecodeError Instr :=
  if c.toNat < 2 ^ 32 then decode (c.setWidth 32) else .error .wideCell

/-- Four bytes as an instruction word, the byte at the lowest address in bits 7:0 (R60). -/
def wordOfBytes (b0 b1 b2 b3 : Byte) : InstrWord := b3 ++ b2 ++ b1 ++ b0

/-- Byte `k` (0 to 3) of a word in the order of R60. -/
def byteOfWord (w : InstrWord) (k : Nat) : Byte := w.extractLsb' (8 * k) 8

/-- The instruction at the front of a byte string and the bytes after it; every instruction is four bytes (R75). -/
def decodeBytes : List Byte → Except DecodeError (Instr × List Byte)
  | b0 :: b1 :: b2 :: b3 :: rest =>
    match decode (wordOfBytes b0 b1 b2 b3) with
    | .ok i => .ok (i, rest)
    | .error e => .error e
  | _ => .error .truncated

/-- The bytes of a word as memory holds them, lowest address first (R60). -/
def bytesOfWord (w : InstrWord) : List Byte := [byteOfWord w 0, byteOfWord w 1, byteOfWord w 2, byteOfWord w 3]

/-- The instruction the decoder reads from the table word `w` of `nbits` bits. -/
def decodeTableWord (nbits w : Nat) : Option Instr :=
  match decodeBytes (bytesOfWord (BitVec.ofNat 32 (w % 2 ^ nbits))) with
  | .ok (i, _) => some i
  | .error _ => none

/-- A format R word (R75, R80). -/
def encodeR (op : BitVec 6) (ra rb rc : RegId) : InstrWord := op ++ ra ++ rb ++ rc ++ 0#11

/-- A format I word: the immediate's low 16 bits (R75, R80). -/
def encodeI (op : BitVec 6) (ra rb : RegId) (imm : Int) : InstrWord := op ++ ra ++ rb ++ BitVec.ofInt 16 imm

/-- A format J word: the target's low 26 bits (R75, R80). -/
def encodeJ (op : BitVec 6) (target : Int) : InstrWord := op ++ BitVec.ofInt 26 target

/-- `encode` of R80: the one word of an instruction, whose record it keeps when the record is well formed. -/
def encode : Instr → InstrWord
  | .empty => 0#32
  | .add d a b => encodeR 0x01#6 d a b
  | .sub d a b => encodeR 0x02#6 d a b
  | .mult d a b => encodeR 0x03#6 d a b
  | .addImm d a v => encodeI 0x09#6 d a v
  | .subImm d a v => encodeI 0x0A#6 d a v
  | .multImm d a v => encodeI 0x0B#6 d a v
  | .lw d b v => encodeI 0x10#6 d b v
  | .sw r b v => encodeI 0x11#6 r b v
  | .j t => encodeJ 0x20#6 t

end Sys2Proof
end

