-- ==== Sys2Proof/Config.lean ====
section
/-! DEFINITION. The implementation parameters of R8.  NREG, NSTAGE and WORD_BYTES, which D0 fixes, stand in the types
and in the literals 32, five latches and 4. -/

namespace Sys2Proof

/-- The parameters of R8, each with its default.  They are arguments of the machine and no part of its state (R39):
the engine's state is a type over them.  REG_INIT and MEM_INIT are arguments of the load
(`Sys2Proof.Machine.loadWords`). -/
structure Params where
  /-- XLEN, the width of a register, a cell, the pc, an address and a slot. -/
  xlen : Nat := 32
  /-- CODE_BASE, the address of the first program word. -/
  codeBase : Nat := 0x1000
  /-- MEM_BYTES: the cells are at the multiples of 4 below it. -/
  memBytes : Nat := 0x4000
  /-- PROG_LEN, the number of instructions of the loaded program. -/
  progLen : Nat := 0
  /-- HQ_DEPTH, the capacity of the hazard queue (R32). -/
  hqDepth : Nat := 3
  /-- CTR_W, the width of the two counters (R34). -/
  ctrW : Nat := 64
deriving DecidableEq, Repr

/-- Every parameter at its default, with no program loaded (R8). -/
abbrev Params.default : Params := {}

/-- A configuration the machine accepts (R8, U11): CODE_BASE and MEM_BYTES multiples of 4, MEM_BYTES at most
2^XLEN, and the program inside memory; a cell wide enough for an instruction word (R75), and room in the hazard queue
for the three entries it may hold (R207).  CODE_BASE = MEM_BYTES = 2^XLEN with an empty program meets these bounds
although it is no XLEN-bit address, and the spec does not say what becomes of it; that it is accepted is the model's
DESIGN CHOICE (log entry 15).  So is a CTR_W of any width, 0 included, on which the spec states no bound (log entry 8).
-/
abbrev Params.wf (p : Params) : Prop :=
  p.codeBase % 4 = 0 ∧ p.memBytes % 4 = 0 ∧ p.memBytes ≤ 2 ^ p.xlen ∧ p.codeBase + 4 * p.progLen ≤ p.memBytes ∧
    32 ≤ p.xlen ∧ 3 ≤ p.hqDepth

end Sys2Proof
end

