-- ==== Sys2Proof/Machine/State.lean ====
section
/-! DEFINITION. The state of the machine (spec/10_state.md), its faults and refusals, and the state after reset. -/

namespace Sys2Proof.Machine

open Sys2Proof

/-- Memory as bytes: position and byte, positions strictly rising, no listed byte 0 (the value an unlisted position
reads as, MEM_INIT's default of R40).  A cell of R51 is `cellBytes` of them, lowest first (R60); at XLEN = 32 a
position is a byte address. -/
abbrev Memory := List Host.Cell

/-- The register file: 32 registers of XLEN = `n` bits (R20). -/
abbrev Regs (n : Nat) := Vector (Word n) 32

/-- The record a latch holds (R28): the construction fields, and the three runtime slots, each `none` until a
stage writes it. -/
structure Latch (n : Nat) where
  instr        : Instr
  resolvedSrc1 : Option (Word n)
  resolvedSrc2 : Option (Word n)
  result       : Option (Word n)
deriving DecidableEq, Repr

/-- A freshly decoded record: all three slots `none` (R28, R79). -/
def Latch.fresh {n : Nat} (i : Instr) : Latch n :=
  { instr := i, resolvedSrc1 := none, resolvedSrc2 := none, result := none }

/-- The bubble (R29). -/
def Latch.bubble {n : Nat} : Latch n := Latch.fresh .empty

/-- The fault causes of R232; cause 0, no fault, is `Engine.fault = false`. -/
inductive FaultCause where
  /-- A fetched word that is no instruction (R78, R171). -/
  | illegalInstruction
  /-- A pc in the program range and not a multiple of 4 (R170). -/
  | fetchMisaligned
  /-- A data address that is not a multiple of 4 (R57). -/
  | dataMisaligned
  /-- A data address that is a multiple of 4 and not below MEM_BYTES (R57). -/
  | dataOutOfRange
  /-- A read of a slot that is `none`, a pop of an empty or an append to a full hazard queue (R232, U8), or a fetch
  from a program range that leaves memory, which a load refuses (U11).  No run reaches it (R30, R206, R207). -/
  | contractViolation
deriving DecidableEq, Repr

/-- The state of the engine at a cycle boundary (spec/10_state.md), for given parameters: the parameters are arguments
of the type and no part of the state (R39). -/
structure Engine (p : Params) where
  /-- The general registers `x[0]` to `x[31]` (R20). -/
  x          : Regs p.xlen
  /-- The program counter (R24). -/
  pc         : Word p.xlen
  /-- The one memory, program and data (R50). -/
  mem        : Memory
  /-- The Fetch latch (R27). -/
  l0         : Latch p.xlen
  /-- The Decode latch (R27). -/
  l1         : Latch p.xlen
  /-- The Execute latch (R27). -/
  l2         : Latch p.xlen
  /-- The Memory latch (R27). -/
  l3         : Latch p.xlen
  /-- The Writeback latch (R27). -/
  l4         : Latch p.xlen
  /-- The hazard queue, oldest entry first (R32). -/
  hq         : List RegId
  /-- The stall flag (R33). -/
  stall      : Bool
  /-- The cycle counter (R34). -/
  cycle      : Counter p.ctrW
  /-- The fetched-instruction count (R34). -/
  fetched    : Counter p.ctrW
  /-- The termination flag (R35). -/
  done       : Bool
  /-- The fault flag (R36). -/
  fault      : Bool
  /-- The fault cause code (R36, R232). -/
  faultCause : BitVec 3
deriving DecidableEq, Repr

/-- What the host's interface steps: an engine state with the parameters it is for.  The state of the machine is
`engine` alone; `params` is the argument the step works at, which it hands on as it got it (R8, R39, log entry 2). -/
structure State where
  /-- The parameters the machine is built and loaded with (R8). -/
  params : Params
  /-- The state of the machine (spec/10_state.md). -/
  engine : Engine params
deriving DecidableEq, Repr

/-- An engine state as the argument and the answer of the host's step. -/
abbrev Engine.pack {p : Params} (e : Engine p) : State := ⟨p, e⟩

/-- How a step stops.  Each carries the state in which the engine then stands still: for a fatal fault the state of
the last cycle boundary with the fault record written (R234). -/
inductive Fault where
  /-- Raised by the Fetch effect of `step` on a word that is no instruction (R171, cause 1).  Safe: the spec's own. -/
  | illegalInstruction (stopped : State)
  /-- Raised by the Fetch effect of `step` on a misaligned pc in the program range (R170, cause 2).  Safe: the spec's
  own. -/
  | fetchMisaligned (stopped : State)
  /-- Raised by the Memory effect of an `lw` or `sw` in any cycle (R57, cause 3).  Safe: the spec's own. -/
  | dataMisaligned (stopped : State)
  /-- Raised by the Memory effect of an `lw` or `sw` in any cycle (R57, cause 4).  Safe: the spec's own. -/
  | dataOutOfRange (stopped : State)
  /-- Raised by a stage effect that would read an unwritten slot, by the hazard queue, or by a fetch outside memory
  (R232, cause 5).  Safe: no run from a load reaches it. -/
  | contractViolation (stopped : State)
  /-- Raised by `step` and by every meaning on a state with `done` or `fault` set: the engine performs no further
  cycle and the state, carried here, keeps its value until reset (R153, U13 "stuck").  Safe: the spec's own. -/
  | engineStopped (stopped : State)
deriving DecidableEq, Repr

/-- Why an instruction is refused. -/
inductive Refusal where
  /-- Raised by an arm of `exec` for an instruction that has no meaning yet; no arm is left so.  Safe. -/
  | notModelled (mnemonic : String)
deriving DecidableEq, Repr

/-- The state at reset release (R40) for given parameters, REG_INIT and memory contents.  The pc is CODE_BASE, taken
modulo 2^XLEN.  That makes a difference only where CODE_BASE is no XLEN-bit address, of which a load accepts one,
CODE_BASE = MEM_BYTES = 2^XLEN with an empty program: the pc is 0 there, a DESIGN CHOICE (log entry 15). -/
def Engine.atReset (p : Params) (regInit : Regs p.xlen) (mem : Memory) : Engine p :=
  { x := regInit, pc := BitVec.ofNat p.xlen p.codeBase, mem := mem,
    l0 := Latch.bubble, l1 := Latch.bubble, l2 := Latch.bubble, l3 := Latch.bubble, l4 := Latch.bubble,
    hq := [], stall := false, cycle := 0#p.ctrW, fetched := 0#p.ctrW, done := false, fault := false,
    faultCause := 0#3 }

/-- REG_INIT's default: every register 0 (R8). -/
def zeroRegs (n : Nat) : Regs n := Vector.replicate 32 0#n

/-- The engine at reset release with the default parameters, REG_INIT and MEM_INIT of R8 and no program (R40). -/
def Engine.reset : Engine Params.default := Engine.atReset Params.default (zeroRegs 32) []

/-- The machine at reset release with the default parameters, REG_INIT and MEM_INIT of R8 and no program (R40). -/
def State.reset : State := Engine.reset.pack

end Sys2Proof.Machine
end

