-- ==== Sys2Proof/Machine/Ops.lean ====
section
/-! DEFINITION. The named operations over registers, memory and the fault record (R11, R59, R234). -/

namespace Sys2Proof.Machine

open Sys2Proof

/-- `x[i]`: the value of a general register; none is hardwired (R20, R21). -/
def readReg {n : Nat} (x : Regs n) (r : RegId) : Word n := x[r.toNat]'(r.isLt)

/-- `x[i] <- v`: register 0 is written like any other (R21, R184). -/
def writeReg {n : Nat} (x : Regs n) (r : RegId) (v : Word n) : Regs n := x.set r.toNat v r.isLt

/-- What a byte of memory that nothing has written holds: MEM_INIT's default (R8, R40). -/
def unlistedByte : Byte := 0#8

/-- The canonical form of memory: addresses strictly rising, and no entry equal to what an unlisted address reads as. -/
def memoryWf : Memory → Bool
  | [] => true
  | [c] => c.2 != unlistedByte
  | c :: d :: rest => c.2 != unlistedByte && decide (c.1 < d.1) && memoryWf (d :: rest)

/-- How many bytes hold a cell of XLEN = `n` bits: four at the default. -/
def cellBytes (n : Nat) : Nat := (n + 7) / 8

/-- The position of the first byte of the cell at address `a`: cells are stored one after the other, WORD_BYTES = 4
addresses apart (R51).  At XLEN = 32 it is `a` itself. -/
def cellBase (n a : Nat) : Nat := a / 4 * cellBytes n

/-- Every listed byte belongs to a cell of a memory of `memBytes` addresses (R51). -/
def memoryWithin (n memBytes : Nat) (m : Memory) : Bool := m.all fun c => decide (c.1 < memBytes / 4 * cellBytes n)

/-- One byte of memory. -/
def readByte : Memory → Nat → Byte
  | [], _ => unlistedByte
  | (k, b) :: rest, a => if k = a then b else readByte rest a

/-- Memory with one byte written, in canonical form when it was. -/
def writeByte : Memory → Nat → Byte → Memory
  | [], a, v => if v = unlistedByte then [] else [(a, v)]
  | (k, b) :: rest, a, v =>
    if a < k then (if v = unlistedByte then (k, b) :: rest else (a, v) :: (k, b) :: rest)
    else if a = k then (if v = unlistedByte then rest else (a, v) :: rest)
    else (k, b) :: writeByte rest a v

/-- The `k` bytes from position `a` on as a number, the byte at `a` lowest (R60). -/
def readBytes (m : Memory) (a : Nat) : Nat → Nat
  | 0 => 0
  | k + 1 => (readByte m a).toNat + 256 * readBytes m (a + 1) k

/-- Memory with the `k` low bytes of `v` written from position `a` on, the lowest at `a` (R60). -/
def writeBytes (m : Memory) (a v : Nat) : Nat → Memory
  | 0 => m
  | k + 1 => writeBytes (writeByte m a (BitVec.ofNat 8 v)) (a + 1) (v / 256) k

/-- The word in the cell at byte address `a` (R51, R60). -/
def readCell (n : Nat) (m : Memory) (a : Nat) : Word n := BitVec.ofNat n (readBytes m (cellBase n a) (cellBytes n))

/-- Memory with the cell at byte address `a` replaced by `v` (R56, R60). -/
def writeCell {n : Nat} (m : Memory) (a : Nat) (v : Word n) : Memory :=
  writeBytes m (cellBase n a) v.toNat (cellBytes n)

/-- The check of a data address before the access: misaligned before out of range (R57, R59). -/
def dataAddressFault {n : Nat} (memBytes : Nat) (addr : Word n) : Option FaultCause :=
  if addr.toNat % 4 ≠ 0 then some .dataMisaligned
  else if memBytes ≤ addr.toNat then some .dataOutOfRange
  else none

/-- `MemRead(addr, 4)` (R59). -/
def memRead {n : Nat} (memBytes : Nat) (m : Memory) (addr : Word n) : Except FaultCause (Word n) :=
  match dataAddressFault memBytes addr with
  | some c => .error c
  | none => .ok (readCell n m addr.toNat)

/-- `MemWrite(addr, 4, v)` (R59); a faulting store writes nothing (R121). -/
def memWrite {n : Nat} (memBytes : Nat) (m : Memory) (addr v : Word n) : Except FaultCause Memory :=
  match dataAddressFault memBytes addr with
  | some c => .error c
  | none => .ok (writeCell m addr.toNat v)

/-- The words at consecutive cells from byte address `a` on, in order (R52). -/
def writeCells {n : Nat} (m : Memory) (a : Nat) : List (Word n) → Memory
  | [] => m
  | w :: ws => writeCells (writeCell m a w) (a + 4) ws

/-- The code of a fault cause (R232). -/
def causeCode : FaultCause → BitVec 3
  | .illegalInstruction => 1#3
  | .fetchMisaligned => 2#3
  | .dataMisaligned => 3#3
  | .dataOutOfRange => 4#3
  | .contractViolation => 5#3

/-- The fault record written over the state of the last cycle boundary (R234). -/
def recordFault {p : Params} (c : FaultCause) (s : Engine p) : Engine p :=
  { s with fault := true, faultCause := causeCode c }

/-- Fault entry (R150, R231, R234): the faulting cycle commits nothing, the fault record is written, and the step
ends in a fault outcome that carries the resulting state.  There is no handler and no return from a fault
(R230, R235): only a reset leaves it. -/
def takeFault {p : Params} (c : FaultCause) (s : Engine p) : Host.Outcome State Fault Refusal :=
  match c with
  | .illegalInstruction => .fault (.illegalInstruction (recordFault .illegalInstruction s).pack)
  | .fetchMisaligned => .fault (.fetchMisaligned (recordFault .fetchMisaligned s).pack)
  | .dataMisaligned => .fault (.dataMisaligned (recordFault .dataMisaligned s).pack)
  | .dataOutOfRange => .fault (.dataOutOfRange (recordFault .dataOutOfRange s).pack)
  | .contractViolation => .fault (.contractViolation (recordFault .contractViolation s).pack)

end Sys2Proof.Machine
end

