-- ==== Sys2Proof/Machine/Boot.lean ====
section
/-! DEFINITION. The host boundary (R38, R240, R261): loading a program while in reset, the read-only snapshots, and
the placing of one instruction where the next cycle fetches it. -/

namespace Sys2Proof.Machine

open Sys2Proof

/-- Why a load is refused (U11, U12). -/
inductive LoadError where
  /-- CODE_BASE or MEM_BYTES is no multiple of 4, MEM_BYTES is over 2^XLEN, the program does not fit (U11), a
  cell is narrower than an instruction word, or HQ_DEPTH is below 3 (log entry 11). -/
  | badParameters
  /-- MEM_INIT is not in canonical form or names a byte of no cell (R54). -/
  | badMemInit
  /-- A record of the program is not well formed, so it has no encoding (R77, U12). -/
  | illFormedRecord
deriving DecidableEq, Repr

/-- The state at reset release after the host has loaded a program of words, REG_INIT and MEM_INIT under the parameters
`cfg`, PROG_LEN being the program's own length (R8, R40, R261).  A program word fills bits 31:0 of its cell. -/
def loadWords (cfg : Params) (program : List InstrWord) (regInit : Regs cfg.xlen) (memInit : Memory) :
    Except LoadError State :=
  let p : Params := { cfg with progLen := program.length }
  if ¬ p.wf then .error .badParameters
  else if ¬ (memoryWf memInit = true ∧ memoryWithin p.xlen p.memBytes memInit = true) then .error .badMemInit
  else .ok (Engine.atReset p regInit
    (writeCells memInit p.codeBase (program.map fun w => w.setWidth p.xlen))).pack

/-- `load(program)`: the program as well-formed records, encoded to words (R73, R80, R240). -/
def loadProgram (cfg : Params) (program : List Instr) (regInit : Regs cfg.xlen) (memInit : Memory) :
    Except LoadError State :=
  if program.all Instr.wellFormed = true then loadWords cfg (program.map encode) regInit memInit
  else .error .illFormedRecord

/-- The snapshot of a register (R240). -/
def snapshotReg {p : Params} (s : Engine p) (r : RegId) : Word p.xlen := readReg s.x r

/-- The snapshot of a memory cell; an address that names no cell gives none (R51, R240). -/
def snapshotCell {p : Params} (s : Engine p) (addr : Word p.xlen) : Option (Word p.xlen) :=
  match dataAddressFault p.memBytes addr with
  | some _ => none
  | none => some (readCell p.xlen s.mem addr.toNat)

/-- One instruction fits at the pc. -/
def fetchesAtPc {p : Params} (s : Engine p) : Bool :=
  decide (p.wf ∧ p.codeBase ≤ s.pc.toNat ∧ s.pc.toNat % 4 = 0 ∧ s.pc.toNat + 4 ≤ p.memBytes)

/-- The state with its pc where one instruction fits: its own pc, else CODE_BASE, else the reset state of the default
parameters over the same memory. -/
def withFetchablePc (s : State) : State :=
  if fetchesAtPc s.engine = true then s
  else if s.params.wf ∧ s.params.codeBase + 4 ≤ s.params.memBytes then
    { s with engine := { s.engine with pc := BitVec.ofNat s.params.xlen s.params.codeBase } }
  else (Engine.atReset Params.default (zeroRegs 32) s.engine.mem).pack

/-- The engine state under a program of another length (R8): no value of it depends on PROG_LEN. -/
def Engine.withProgLen {p : Params} (s : Engine p) (n : Nat) : Engine { p with progLen := n } :=
  { x := s.x, pc := s.pc, mem := s.mem, l0 := s.l0, l1 := s.l1, l2 := s.l2, l3 := s.l3, l4 := s.l4, hq := s.hq,
    stall := s.stall, cycle := s.cycle, fetched := s.fetched, done := s.done, fault := s.fault,
    faultCause := s.faultCause }

/-- The engine running and not stalling, with the word `w` in the cell at its pc. -/
def withWordAtPc {p : Params} (w : InstrWord) (s : Engine p) : Engine p :=
  { s with
    mem := writeCell s.mem s.pc.toNat (w.setWidth p.xlen)
    stall := false
    done := false
    fault := false
    faultCause := if s.fault = true then 0#3 else s.faultCause }

/-- The load of one word where the next cycle fetches: the word at the pc, the pc inside the program, and the engine
running and not stalling. -/
def placeWord (w : InstrWord) (s : State) : State :=
  let t := withFetchablePc s
  let n := (t.engine.pc.toNat - t.params.codeBase) / 4 + 1
  ((withWordAtPc w t.engine).withProgLen (max t.params.progLen n)).pack

end Sys2Proof.Machine
end

