-- ==== Sys2Proof/Machine/Operands.lean ====
section
/-! DEFINITION. The fields of an instruction record as the stages see them (R28, R72): kind, operator, destination,
source registers, immediate, target. -/

namespace Sys2Proof.Machine

open Sys2Proof

/-- The kind of a record (R70). -/
def kindOf : Instr → Kind
  | .empty => .empty
  | .add _ _ _ => .arithmetic
  | .sub _ _ _ => .arithmetic
  | .mult _ _ _ => .arithmetic
  | .addImm _ _ _ => .arithmetic
  | .subImm _ _ _ => .arithmetic
  | .multImm _ _ _ => .arithmetic
  | .lw _ _ _ => .load
  | .sw _ _ _ => .store
  | .j _ => .jump

/-- The operator of an Arithmetic record (R28). -/
def opOf : Instr → Option ArithOp
  | .empty => none
  | .add _ _ _ => some .add
  | .sub _ _ _ => some .sub
  | .mult _ _ _ => some .mult
  | .addImm _ _ _ => some .add
  | .subImm _ _ _ => some .sub
  | .multImm _ _ _ => some .mult
  | .lw _ _ _ => none
  | .sw _ _ _ => none
  | .j _ => none

/-- The destination register, of an Arithmetic and a Load only (R28). -/
def destOf : Instr → Option RegId
  | .empty => none
  | .add d _ _ => some d
  | .sub d _ _ => some d
  | .mult d _ _ => some d
  | .addImm d _ _ => some d
  | .subImm d _ _ => some d
  | .multImm d _ _ => some d
  | .lw d _ _ => some d
  | .sw _ _ _ => none
  | .j _ => none

/-- Field `src1`: an Arithmetic's first source, a Load's base, a Store's value register (R28, R72). -/
def src1Of : Instr → Option RegId
  | .empty => none
  | .add _ a _ => some a
  | .sub _ a _ => some a
  | .mult _ a _ => some a
  | .addImm _ a _ => some a
  | .subImm _ a _ => some a
  | .multImm _ a _ => some a
  | .lw _ base _ => some base
  | .sw srcVal _ _ => some srcVal
  | .j _ => none

/-- Field `src2`: the register second operand of an Arithmetic, a Store's base (R28, R72). -/
def src2Of : Instr → Option RegId
  | .empty => none
  | .add _ _ b => some b
  | .sub _ _ b => some b
  | .mult _ _ b => some b
  | .addImm _ _ _ => none
  | .subImm _ _ _ => none
  | .multImm _ _ _ => none
  | .lw _ _ _ => none
  | .sw _ base _ => some base
  | .j _ => none

/-- The immediate of an Arithmetic, the offset of a Load or a Store, as the literal (R28, R72). -/
def immLiteral : Instr → Option Int
  | .empty => none
  | .add _ _ _ => none
  | .sub _ _ _ => none
  | .mult _ _ _ => none
  | .addImm _ _ v => some v
  | .subImm _ _ v => some v
  | .multImm _ _ v => some v
  | .lw _ _ off => some off
  | .sw _ _ off => some off
  | .j _ => none

/-- The target of a Jump, as the literal (R28). -/
def targetLiteral : Instr → Option Int
  | .empty => none
  | .add _ _ _ => none
  | .sub _ _ _ => none
  | .mult _ _ _ => none
  | .addImm _ _ _ => none
  | .subImm _ _ _ => none
  | .multImm _ _ _ => none
  | .lw _ _ _ => none
  | .sw _ _ _ => none
  | .j t => some t

/-- A literal as an XLEN-bit value, two's complement: `sext_16` of an immediate, `zext_26` of a target (R10, R77). -/
def literalWord (n : Nat) (v : Int) : Word n := BitVec.ofInt n v

/-- Field `imm`, an XLEN-bit value (R28, R77). -/
def immOf (n : Nat) (i : Instr) : Option (Word n) := (immLiteral i).map (literalWord n)

/-- Field `target`, an XLEN-bit value, of a Jump only (R28, R77). -/
def targetOf (n : Nat) (i : Instr) : Option (Word n) := (targetLiteral i).map (literalWord n)

/-- The source registers Execute checks against the hazard queue, in the order checked (R205). -/
def sourcesOf (i : Instr) : List RegId := (src1Of i).toList ++ (src2Of i).toList

/-- The one addressing mode: base register plus byte offset, modulo 2^XLEN (R122). -/
def effectiveAddress {n : Nat} (base offset : Word n) : Word n := base + offset

end Sys2Proof.Machine
end

