-- ==== Sys2Proof/Machine/Alu.lean ====
section
/-! DEFINITION. What each instruction computes in its Execute cycle, one definition per instruction (R101 to R106,
R120, R121, R181). -/

namespace Sys2Proof.Machine

open Sys2Proof

/-- The sum of two registers modulo 2^XLEN (R101). -/
def addResult {n : Nat} (a b : Word n) : Word n := a + b

/-- First source minus second, modulo 2^XLEN (R102). -/
def subResult {n : Nat} (a b : Word n) : Word n := a - b

/-- The low XLEN bits of the product of two registers (R103). -/
def multResult {n : Nat} (a b : Word n) : Word n := a * b

/-- The sum of a register and the immediate modulo 2^XLEN (R104). -/
def addImmResult {n : Nat} (a imm : Word n) : Word n := a + imm

/-- Register minus immediate, modulo 2^XLEN (R105). -/
def subImmResult {n : Nat} (a imm : Word n) : Word n := a - imm

/-- The low XLEN bits of the product of a register and the immediate (R106). -/
def multImmResult {n : Nat} (a imm : Word n) : Word n := a * imm

/-- Execute on an Arithmetic record: `result` from the two resolved operands (R181). -/
def setResult {n : Nat} (f : Word n → Word n → Word n) (l : Latch n) : Except FaultCause (Latch n) :=
  match l.resolvedSrc1, l.resolvedSrc2 with
  | some a, some b => .ok { l with result := some (f a b) }
  | _, _ => .error .contractViolation

/-- Execute on `lw`: `resolvedSrc1` becomes the effective address (R120, R181). -/
def lwAddress {n : Nat} (offset : Word n) (l : Latch n) : Except FaultCause (Latch n) :=
  match l.resolvedSrc1 with
  | some base => .ok { l with resolvedSrc1 := some (effectiveAddress base offset) }
  | none => .error .contractViolation

/-- Execute on `sw`: `resolvedSrc2` becomes the effective address; `resolvedSrc1` keeps the value to store (R121,
R181). -/
def swAddress {n : Nat} (offset : Word n) (l : Latch n) : Except FaultCause (Latch n) :=
  match l.resolvedSrc2 with
  | some base => .ok { l with resolvedSrc2 := some (effectiveAddress base offset) }
  | none => .error .contractViolation

/-- The computation at the end of a successful Execute pass, by instruction (R181).  A Jump and Empty have none
(R178). -/
def compute {n : Nat} (l : Latch n) : Except FaultCause (Latch n) :=
  match l.instr with
  | .empty => .ok l
  | .add _ _ _ => setResult addResult l
  | .sub _ _ _ => setResult subResult l
  | .mult _ _ _ => setResult multResult l
  | .addImm _ _ _ => setResult addImmResult l
  | .subImm _ _ _ => setResult subImmResult l
  | .multImm _ _ _ => setResult multImmResult l
  | .lw _ _ offset => lwAddress (literalWord n offset) l
  | .sw _ _ offset => swAddress (literalWord n offset) l
  | .j _ => .ok l

end Sys2Proof.Machine
end

