-- ==== Sys2Proof/Machine/Flags.lean ====
section
/-! DEFINITION. The five micro-op flags a record's kind implies (R71).  The machine has no status flags and no
condition codes (R26), so no flag computation stands here. -/

namespace Sys2Proof.Machine

open Sys2Proof

/-- The micro-op flags (R71). -/
structure MicroOps where
  readsRegisters : Bool
  writesRegister : Bool
  readsMemory    : Bool
  writesMemory   : Bool
  usesAlu        : Bool
deriving DecidableEq, Repr

/-- The table of R71. -/
def flagsOf : Kind → MicroOps
  | .arithmetic => ⟨true, true, false, false, true⟩
  | .load       => ⟨true, true, true, false, true⟩
  | .store      => ⟨true, false, false, true, true⟩
  | .jump       => ⟨false, false, false, false, false⟩
  | .empty      => ⟨false, false, false, false, false⟩

/-- Whether Decode reads registers for the record (R71, R174). -/
def readsRegisters (i : Instr) : Bool := (flagsOf (kindOf i)).readsRegisters

/-- Whether Writeback writes a register for the record (R71, R184). -/
def writesRegister (i : Instr) : Bool := (flagsOf (kindOf i)).writesRegister

/-- Whether the Memory effect reads a cell for the record (R71, R183). -/
def readsMemory (i : Instr) : Bool := (flagsOf (kindOf i)).readsMemory

/-- Whether the Memory effect writes a cell for the record (R71, R183). -/
def writesMemory (i : Instr) : Bool := (flagsOf (kindOf i)).writesMemory

/-- Whether Execute does work for the record (R71, R178). -/
def usesAlu (i : Instr) : Bool := (flagsOf (kindOf i)).usesAlu

/-- The test for the bubble, by kind only (R29). -/
def isEmpty (i : Instr) : Bool := kindOf i == .empty

end Sys2Proof.Machine
end

