-- ==== Sys2Proof/Machine/Hazard.lean ====
section
/-! DEFINITION. The hazard queue and the operand forwarding arbiter (spec/47_hazard_forwarding.md). -/

namespace Sys2Proof.Machine

open Sys2Proof

/-- `HQ.append(r)`: at the back (R200); past HQ_DEPTH = `depth` entries it is a contract violation
(U8), which no run reaches (R207). -/
def hqAppend (depth : Nat) (q : List RegId) (r : RegId) : Except FaultCause (List RegId) :=
  if q.length < depth then .ok (q ++ [r]) else .error .contractViolation

/-- `HQ.pop_front()` (R200); of an empty queue it is a contract violation (R232), which no run reaches (R206). -/
def hqPop : List RegId → Except FaultCause (List RegId)
  | [] => .error .contractViolation
  | _ :: q => .ok q

/-- One candidate of the arbiter: the latch's result, if it writes register `r` and the result is computed (R202). -/
def candidate {n : Nat} (l : Latch n) (r : RegId) : Option (Word n) :=
  if writesRegister l.instr = true ∧ destOf l.instr = some r then l.result else none

/-- `forward(r)`: the Memory latch first, then the Writeback latch, nothing deeper (R202, R212). -/
def forward {n : Nat} (l3 l4 : Latch n) (r : RegId) : Option (Word n) :=
  match candidate l3 r with
  | some v => some v
  | none => candidate l4 r

/-- What the check of one source register in Execute comes to (R179). -/
inductive SourceCheck (n : Nat) where
  /-- The operand is clear; the slot holds this value (the forwarded one, or the one Decode read). -/
  | clear (slot : Option (Word n))
  /-- The register is in the hazard queue and nothing can be forwarded: the stall is raised (R204). -/
  | stalled
deriving DecidableEq, Repr

/-- The check of one source of the record in Execute: a register in the hazard queue is forwarded or stalls, any
other keeps the slot Decode wrote; an absent register is never checked (R179, R201). -/
def checkSource {n : Nat} (hq : List RegId) (l3 l4 : Latch n) (src : Option RegId) (slot : Option (Word n)) :
    SourceCheck n :=
  match src with
  | none => .clear slot
  | some r =>
    if r ∈ hq then
      match forward l3 l4 r with
      | some v => .clear (some v)
      | none => .stalled
    else .clear slot

end Sys2Proof.Machine
end

