-- ==== Sys2Proof/Machine/Stages.lean ====
section
/-! DEFINITION. The five stage effects (spec/46_stage_engines.md). -/

namespace Sys2Proof.Machine

open Sys2Proof

/-! ### Fetch (R170 to R173) -/

/-- Whether `pc` is in the program range (R170). -/
def inProgram (p : Params) (pc : Word p.xlen) : Bool :=
  decide (p.codeBase ≤ pc.toNat) && decide (pc.toNat < p.codeBase + 4 * p.progLen)

/-- What the Fetch effect takes from memory at `pc` in a cycle that is not stalling: no instruction when `pc` is out
of the program range (R172), else the decoded word or a fault (R170, R171).  A pc in range but past the memory is
only possible under parameters a load refuses (R58, U11). -/
def fetchWord (p : Params) (m : Memory) (pc : Word p.xlen) : Except FaultCause (Option Instr) :=
  if inProgram p pc = true then
    if pc.toNat % 4 ≠ 0 then .error .fetchMisaligned
    else if p.memBytes ≤ pc.toNat then .error .contractViolation
    else match decodeCell (readCell p.xlen m pc.toNat) with
      | .ok i => .ok (some i)
      | .error _ => .error .illegalInstruction
  else .ok none

/-- What the Fetch effect of the next cycle takes: in a stalling cycle memory is not read (R172). -/
def fetchRequest {p : Params} (s : Engine p) : Except FaultCause (Option Instr) :=
  if s.stall = true then .ok none else fetchWord p s.mem s.pc

/-- The Fetch effect after the advance (R173), given the instruction taken, or none: nothing in a stalling cycle, a
bubble where nothing was taken. -/
def fetchEffect {p : Params} (stalling : Bool) (taken : Option Instr) (s : Engine p) : Engine p :=
  if stalling = true then s
  else match taken with
    | some i => { s with l0 := Latch.fresh i, fetched := s.fetched + 1#p.ctrW, pc := s.pc + 4#p.xlen }
    | none => { s with l0 := Latch.bubble }

/-! ### Decode (R174 to R177) -/

/-- The operand slots Decode writes in its record (R174, R175): `resolvedSrc1` from the register file, and
`resolvedSrc2` from the immediate of an Arithmetic or from register `src2`; a Load's stays. -/
def decodeSlots {n : Nat} (x : Regs n) (l : Latch n) : Latch n :=
  if readsRegisters l.instr = true then
    { l with
      resolvedSrc1 := match src1Of l.instr with
        | some r => some (readReg x r)
        | none => l.resolvedSrc1
      resolvedSrc2 := match kindOf l.instr, immOf n l.instr with
        | .arithmetic, some v => some v
        | _, _ => match src2Of l.instr with
          | some r => some (readReg x r)
          | none => l.resolvedSrc2 }
  else l

/-- The Decode effect of a Jump: the pc goes to the target and the Fetch latch is flushed (R176). -/
def jumpEffect {p : Params} (target : Word p.xlen) (s : Engine p) : Engine p :=
  { s with pc := target, l0 := Latch.bubble }

/-- The Decode effect (R177). -/
def decodeEffect {p : Params} (s : Engine p) : Engine p :=
  let t := { s with l1 := decodeSlots s.x s.l1 }
  match targetOf p.xlen s.l1.instr with
  | some target => jumpEffect target t
  | none => t

/-! ### Execute (R178 to R182) -/

/-- The end of a successful Execute pass (R180, R181): the destination joins the hazard queue, then the result or
the effective address is computed. -/
def executeFinish {p : Params} (l : Latch p.xlen) (s : Engine p) : Except FaultCause (Engine p) :=
  match destOf l.instr with
  | some d =>
    match hqAppend p.hqDepth s.hq d with
    | .error c => .error c
    | .ok q => match compute l with
      | .error c => .error c
      | .ok l' => .ok { s with l2 := l', hq := q }
  | none => match compute l with
    | .error c => .error c
    | .ok l' => .ok { s with l2 := l' }

/-- The Execute effect (R182): the first source, then the second, is forwarded or raises the stall; what was
substituted before the failing check stays. -/
def executeEffect {p : Params} (s : Engine p) : Except FaultCause (Engine p) :=
  if usesAlu s.l2.instr = true then
    match checkSource s.hq s.l3 s.l4 (src1Of s.l2.instr) s.l2.resolvedSrc1 with
    | .stalled => .ok { s with stall := true }
    | .clear v1 =>
      match checkSource s.hq s.l3 s.l4 (src2Of s.l2.instr) s.l2.resolvedSrc2 with
      | .stalled => .ok { s with l2 := { s.l2 with resolvedSrc1 := v1 }, stall := true }
      | .clear v2 => executeFinish { s.l2 with resolvedSrc1 := v1, resolvedSrc2 := v2 } s
  else .ok s

/-! ### Memory (R183) -/

/-- The Memory effect of `sw`: the value of `resolvedSrc1` to the cell at `resolvedSrc2` (R121, R183). -/
def storeEffect {p : Params} (s : Engine p) : Except FaultCause (Engine p) :=
  match s.l3.resolvedSrc2, s.l3.resolvedSrc1 with
  | some addr, some v =>
    match memWrite p.memBytes s.mem addr v with
    | .ok m => .ok { s with mem := m }
    | .error c => .error c
  | _, _ => .error .contractViolation

/-- The Memory effect of `lw`: the cell at `resolvedSrc1` into `result` (R120, R183). -/
def loadEffect {p : Params} (s : Engine p) : Except FaultCause (Engine p) :=
  match s.l3.resolvedSrc1 with
  | some addr =>
    match memRead p.memBytes s.mem addr with
    | .ok w => .ok { s with l3 := { s.l3 with result := some w } }
    | .error c => .error c
  | none => .error .contractViolation

/-- The Memory effect (R183); no kind has both memory flags. -/
def memoryEffect {p : Params} (s : Engine p) : Except FaultCause (Engine p) :=
  if writesMemory s.l3.instr = true then storeEffect s
  else if readsMemory s.l3.instr = true then loadEffect s
  else .ok s

/-! ### Writeback (R184) -/

/-- The Writeback effect (R184): the destination is the record's own, register 0 included. -/
def writebackEffect {p : Params} (s : Engine p) : Except FaultCause (Engine p) :=
  match destOf s.l4.instr with
  | some d =>
    match s.l4.result with
    | some v => .ok { s with x := writeReg s.x d v }
    | none => .error .contractViolation
  | none => .ok s

end Sys2Proof.Machine
end

