-- ==== Sys2Proof/Machine/Engine.lean ====
section
/-! DEFINITION. One clock cycle of the pipeline engine (spec/45_pipeline_engine.md R140 to R151). -/

namespace Sys2Proof.Machine

open Sys2Proof

/-- Micro-steps 1 to 3: the stall flag is consumed and the latches advance; in a stalling cycle the three upstream
latches are held and a bubble enters the Memory latch (R142 to R145). -/
def advance {p : Params} (s : Engine p) : Engine p :=
  if s.stall = true then { s with stall := false, l4 := s.l3, l3 := Latch.bubble }
  else { s with l4 := s.l3, l3 := s.l2, l2 := s.l1, l1 := s.l0, l0 := Latch.bubble }

/-- Micro-step 5, retirement: the front of the hazard queue leaves when the Writeback latch's record writes a
register (R147). -/
def retire {p : Params} (s : Engine p) : Except FaultCause (Engine p) :=
  if writesRegister s.l4.instr = true then
    match hqPop s.hq with
    | .ok q => .ok { s with hq := q }
    | .error c => .error c
  else .ok s

/-- Whether all five latches hold Empty, by kind (R148). -/
def allEmpty {p : Params} (s : Engine p) : Bool :=
  isEmpty s.l0.instr && isEmpty s.l1.instr && isEmpty s.l2.instr && isEmpty s.l3.instr && isEmpty s.l4.instr

/-- Micro-steps 6 and 7: termination and the cycle counter (R148, R149). -/
def closeCycle {p : Params} (s : Engine p) : Engine p :=
  { s with done := allEmpty s, cycle := s.cycle + 1#p.ctrW }

/-- Micro-steps 4 to 7 after Fetch and Decode: Execute, Memory, Writeback, retirement, termination, counter, the
first fault ending the cycle (R146, R150). -/
def lateEffects {p : Params} (s : Engine p) : Except FaultCause (Engine p) :=
  match executeEffect s with
  | .error c => .error c
  | .ok s3 =>
    match memoryEffect s3 with
    | .error c => .error c
    | .ok s4 =>
      match writebackEffect s4 with
      | .error c => .error c
      | .ok s5 =>
        match retire s5 with
        | .error c => .error c
        | .ok s6 => .ok (closeCycle s6)

/-- The state after the advance and the Fetch and Decode effects of a cycle in which Fetch takes `taken`. -/
def earlyEffects {p : Params} (taken : Option Instr) (s : Engine p) : Engine p :=
  decodeEffect (fetchEffect s.stall taken (advance s))

/-- The engine performs cycles only while `done` and `fault` are low (R140, R153). -/
def running {p : Params} (s : Engine p) : Bool := !s.done && !s.fault

/-- All the updates of one clock cycle in which the Fetch effect takes `taken`, or its first fault (R150, R151).  The
parameters are an argument: what a cycle makes is an engine state for the same ones. -/
def cycleEffects {p : Params} (taken : Option Instr) (s : Engine p) : Except FaultCause (Engine p) :=
  lateEffects (earlyEffects taken s)

/-- One clock cycle (R151) in which the Fetch effect takes the instruction `taken`, or takes none: all of its updates
or none (R150). -/
def cycle (taken : Option Instr) (s : State) : Host.Outcome State Fault Refusal :=
  if running s.engine = true then
    match cycleEffects taken s.engine with
    | .ok t => .next t.pack
    | .error c => takeFault c s.engine
  else .fault (.engineStopped s)

end Sys2Proof.Machine
end

