-- ==== Sys2Proof/Machine/Arithmetic.lean ====
section
/-! DEFINITION. The meanings of `add`, `sub`, `mult` in both operand forms (spec/40_arithmetic.md).

The meaning of an instruction is the clock cycle in which Fetch takes it: the engine works on up to five instructions
at once, and R151 is its step.  The instruction's later effects are those the stage effects give its record in the
following cycles: the operands in Decode (`decodeSlots`), hazards and result in Execute (`executeEffect`, `compute`
with the instruction's own `…Result`), the register write in Writeback (`writebackEffect`). -/

namespace Sys2Proof.Machine

open Sys2Proof

/-- `add dest,s1,s2` enters the pipeline (R101, R108); its Execute computes `addResult`. -/
def execAdd (dest src1 src2 : RegId) (s : State) : Host.Outcome State Fault Refusal :=
  cycle (some (.add dest src1 src2)) s

/-- `sub dest,s1,s2` enters the pipeline (R102, R108); its Execute computes `subResult`. -/
def execSub (dest src1 src2 : RegId) (s : State) : Host.Outcome State Fault Refusal :=
  cycle (some (.sub dest src1 src2)) s

/-- `mult dest,s1,s2` enters the pipeline (R103, R108); its Execute computes `multResult`. -/
def execMult (dest src1 src2 : RegId) (s : State) : Host.Outcome State Fault Refusal :=
  cycle (some (.mult dest src1 src2)) s

/-- `add dest,s1,imm` enters the pipeline (R104, R108); its Execute computes `addImmResult`. -/
def execAddImm (dest src1 : RegId) (imm : Int) (s : State) : Host.Outcome State Fault Refusal :=
  cycle (some (.addImm dest src1 imm)) s

/-- `sub dest,s1,imm` enters the pipeline (R105, R108); its Execute computes `subImmResult`. -/
def execSubImm (dest src1 : RegId) (imm : Int) (s : State) : Host.Outcome State Fault Refusal :=
  cycle (some (.subImm dest src1 imm)) s

/-- `mult dest,s1,imm` enters the pipeline (R106, R108); its Execute computes `multImmResult`. -/
def execMultImm (dest src1 : RegId) (imm : Int) (s : State) : Host.Outcome State Fault Refusal :=
  cycle (some (.multImm dest src1 imm)) s

end Sys2Proof.Machine
end

