-- ==== Sys2Proof/Machine/JumpEmpty.lean ====
section
/-! DEFINITION. The meanings of `j` and of the bubble Empty (spec/42_jump_empty.md): the clock cycle in which Fetch
takes the word.  A Jump acts one cycle later, in Decode (`jumpEffect`); Empty is a no-op in every stage. -/

namespace Sys2Proof.Machine

open Sys2Proof

/-- `j target` enters the pipeline (R130, R132). -/
def execJ (target : Int) (s : State) : Host.Outcome State Fault Refusal := cycle (some (.j target)) s

/-- Empty is fetched like any instruction: counted and stepped over (R131). -/
def execEmpty (s : State) : Host.Outcome State Fault Refusal := cycle (some .empty) s

end Sys2Proof.Machine
end

