-- ==== Sys2Proof/Machine/LoadStore.lean ====
section
/-! DEFINITION. The meanings of `lw` and `sw` (spec/41_load_store.md): the clock cycle in which Fetch takes the
instruction.  The effective address is computed in Execute (`lwAddress`, `swAddress`), the access happens in Memory
(`loadEffect`, `storeEffect`), and a load's register write in Writeback. -/

namespace Sys2Proof.Machine

open Sys2Proof

/-- `lw dest,offset(base)` enters the pipeline (R120, R123). -/
def execLw (dest base : RegId) (offset : Int) (s : State) : Host.Outcome State Fault Refusal :=
  cycle (some (.lw dest base offset)) s

/-- `sw srcVal,offset(base)` enters the pipeline (R121, R124). -/
def execSw (srcVal base : RegId) (offset : Int) (s : State) : Host.Outcome State Fault Refusal :=
  cycle (some (.sw srcVal base offset)) s

end Sys2Proof.Machine
end

