-- ==== Sys2Proof/Machine/Dispatch.lean ====
section
/-! DEFINITION. The meaning of each instruction, one arm per constructor. -/

namespace Sys2Proof.Machine

open Sys2Proof

def exec (i : Instr) (s : State) : Host.Outcome State Fault Refusal :=
  match i with
  | .empty => Sys2Proof.Machine.execEmpty s
  | .add dest src1 src2 => Sys2Proof.Machine.execAdd dest src1 src2 s
  | .sub dest src1 src2 => Sys2Proof.Machine.execSub dest src1 src2 s
  | .mult dest src1 src2 => Sys2Proof.Machine.execMult dest src1 src2 s
  | .addImm dest src1 imm => Sys2Proof.Machine.execAddImm dest src1 imm s
  | .subImm dest src1 imm => Sys2Proof.Machine.execSubImm dest src1 imm s
  | .multImm dest src1 imm => Sys2Proof.Machine.execMultImm dest src1 imm s
  | .lw dest base offset => Sys2Proof.Machine.execLw dest base offset s
  | .sw srcVal base offset => Sys2Proof.Machine.execSw srcVal base offset s
  | .j target => Sys2Proof.Machine.execJ target s

end Sys2Proof.Machine
end

