-- ==== Sys2Proof/Machine/Step.lean ====
section
/-! DEFINITION. The step of the machine: one clock cycle (R12, R140). -/

namespace Sys2Proof.Machine

open Sys2Proof

/-- One cycle (R151): the Fetch effect's word decides which instruction's cycle it is; a stalling cycle and a fetch
outside the program take no instruction (R172); a Fetch fault comes before any other (R233).  A stopped engine
performs no cycle (R153). -/
def step (s : State) : Host.Outcome State Fault Refusal :=
  if running s.engine = true then
    match fetchRequest s.engine with
    | .ok (some i) => exec i s
    | .ok none => cycle none s
    | .error c => takeFault c s.engine
  else .fault (.engineStopped s)

/-- The state with the table word `w` of `nbits` bits loaded where the next step fetches it. -/
def State.withFetchWord (s : State) (nbits w : Nat) : State :=
  placeWord (BitVec.ofNat 32 (w % 2 ^ nbits)) s

end Sys2Proof.Machine
end

