-- ==== Sys2Proof/Machine/Boundary.lean ====
section
/-! DEFINITION. What a state at a cycle boundary says of the next cycle: which record each stage will work on (R141,
R143, R144), what Memory will access, what Execute's source checks will answer, whether Fetch fetches. -/

namespace Sys2Proof.Machine

open Sys2Proof

/-- The record in the Decode latch when the stage effects of the next cycle run. -/
def enteringDecode {p : Params} (s : Engine p) : Latch p.xlen := if s.stall = true then s.l1 else s.l0

/-- The record in the Execute latch when the stage effects of the next cycle run. -/
def enteringExecute {p : Params} (s : Engine p) : Latch p.xlen := if s.stall = true then s.l2 else s.l1

/-- The record in the Memory latch when the stage effects of the next cycle run. -/
def enteringMemory {p : Params} (s : Engine p) : Latch p.xlen := if s.stall = true then Latch.bubble else s.l2

/-- The record in the Writeback latch when the stage effects of the next cycle run. -/
def enteringWriteback {p : Params} (s : Engine p) : Latch p.xlen := s.l3

/-- The data address a record in the Memory latch accesses: a Load's in `resolvedSrc1`, a Store's in `resolvedSrc2`
(R183). -/
def accessAddress {n : Nat} (l : Latch n) : Option (Word n) :=
  match kindOf l.instr with
  | .load => l.resolvedSrc1
  | .store => l.resolvedSrc2
  | .arithmetic => none
  | .jump => none
  | .empty => none

/-- The data fault the next cycle's Memory effect raises, if any (R57). -/
def accessFault {p : Params} (s : Engine p) : Option FaultCause :=
  match accessAddress (enteringMemory s) with
  | some addr => dataAddressFault p.memBytes addr
  | none => none

/-- The address the next cycle's Memory effect stores to, if it stores (R183). -/
def storeAddress {p : Params} (s : Engine p) : Option (Word p.xlen) :=
  if writesMemory (enteringMemory s).instr = true then (enteringMemory s).resolvedSrc2 else none

/-- The check Execute makes of one source register in the next cycle, against the queue and the latches as the advance
leaves them (R201, R202). -/
def sourceCheck {p : Params} (s : Engine p) (src : Option RegId) (slot : Option (Word p.xlen)) :
    SourceCheck p.xlen :=
  checkSource s.hq (enteringMemory s) (enteringWriteback s) src slot

/-- The source register `r` cannot be had in the next cycle: it is in the hazard queue and nothing can be forwarded
(R204). -/
def blocked {p : Params} (s : Engine p) (r : RegId) : Prop :=
  r ∈ s.hq ∧ forward (enteringMemory s) (enteringWriteback s) r = none

/-- The operand Execute works with in the next cycle: the forwarded value of a register in the hazard queue, else the
value Decode read; none where the check stalls (R179). -/
def operandSeen {p : Params} (s : Engine p) (src : Option RegId) (slot : Option (Word p.xlen)) :
    Option (Word p.xlen) :=
  match sourceCheck s src slot with
  | .clear v => v
  | .stalled => none

/-- The next cycle's Fetch effect fetches an instruction: not stalling, the pc in the program range (R171). -/
def fetches {p : Params} (s : Engine p) : Bool := !s.stall && inProgram p s.pc

end Sys2Proof.Machine
end

