-- ==== Sys2Proof/Machine/Run.lean ====
section
/-! DEFINITION. One edge of the clock with the reset input (R38), and the host's `run()` (R152) with a budget of cycles,
since a run may never end (R155, U14). -/

namespace Sys2Proof.Machine

open Sys2Proof

/-- The state a fault outcome carries: the one the engine stands still in. -/
def stoppedState : Fault → State
  | .illegalInstruction s => s
  | .fetchMisaligned s => s
  | .dataMisaligned s => s
  | .dataOutOfRange s => s
  | .contractViolation s => s
  | .engineStopped s => s

/-- One rising edge of `clk` (R38, R140).  With `rst` high every state element takes its reset value for what the host
has loaded, whatever the state was (R260); with `rst` low the engine performs one cycle, or, once stopped, keeps every
element (R153). -/
def clockEdge (rst : Bool) (p : Params) (regInit : Regs p.xlen) (mem : Memory) (s : State) : State :=
  if rst = true then (Engine.atReset p regInit mem).pack
  else match step s with
    | .next t => t
    | .fault f => stoppedState f
    | .refused _ => s

/-- How a bounded run ends. -/
inductive RunOutcome where
  /-- `done` is set; the final state is the one at that cycle's boundary (R153). -/
  | done (s : State)
  /-- The run stopped with a fault (R231). -/
  | faulted (f : Fault)
  /-- The cycles given were not enough (U14). -/
  | unfinished (s : State)
deriving DecidableEq, Repr

/-- `run()` for at most `n` cycles (R152): cycles are performed until `done` or a fault. -/
def run : Nat → State → RunOutcome
  | 0, s => if s.engine.done = true then .done s else .unfinished s
  | n + 1, s =>
    if s.engine.done = true then .done s
    else match step s with
      | .next t => run n t
      | .fault f => .faulted f
      | .refused _ => .unfinished s

/-- The state after `n` cycles, if none of them stops (R12: cycle boundary `n`). -/
def stateAfter : Nat → State → Option State
  | 0, s => some s
  | n + 1, s =>
    match step s with
    | .next t => stateAfter n t
    | .fault _ => none
    | .refused _ => none

end Sys2Proof.Machine
end

