-- ==== Sys2Proof/Machine/HazardFree.lean ====
section
/-! DEFINITION. The conditions (a) to (d) of R270 under which a program is hazard-free, each as a check of the state
at a cycle boundary: the latches then hold the records that occupied the stages in the cycle just ended.
`lostForward` and `shadowFault` are the model's own two conditions, for behaviours R270 leaves out (log entry 14). -/

namespace Sys2Proof.Machine

open Sys2Proof

/-- Condition (a) broken (R264): the record in the Decode latch, in its last cycle there, reads a register whose
youngest older writer is in the Writeback latch. -/
def staleRead {p : Params} (s : Engine p) : Bool :=
  !s.stall && (sourcesOf s.l1.instr).any fun r =>
    destOf s.l4.instr == some r && destOf s.l3.instr != some r && destOf s.l2.instr != some r

/-- Condition (b) broken (R265): a writer of a register, an `lw` into it and a reader of it follow each other with no
bubble between. -/
def wrongForward {p : Params} (s : Engine p) : Bool :=
  !s.stall && kindOf s.l2.instr == .load && (sourcesOf s.l1.instr).any fun r =>
    destOf s.l2.instr == some r && destOf s.l3.instr == some r

/-- The addresses that the records now in the pipeline will store to within `n` cycles, oldest first, found by letting
them run on with nothing fetched behind them.  Eight cycles empty the pipeline. -/
def pendingStores {p : Params} : Nat → Engine p → List (Word p.xlen)
  | 0, _ => []
  | n + 1, s =>
    (storeAddress s).toList ++ match cycleEffects none s with
      | .ok t => pendingStores n t
      | .error _ => []

/-- Condition (c) broken (R268): the next cycle fetches, for execution, a cell that an older `sw` still in the pipeline
stores to. -/
def fetchesPendingStore {p : Params} (s : Engine p) : Bool :=
  fetches s && (targetLiteral s.l0.instr).isNone && decide (s.pc ∈ pendingStores 8 s)

/-- Condition (d) broken (R269): `done` is set with the pc inside the program. -/
def endsEarly {p : Params} (s : Engine p) : Bool := s.done && inProgram p s.pc

/-- One of the conditions (a) to (d) of R270 is broken. -/
def hazardOfR270 {p : Params} (s : Engine p) : Bool :=
  staleRead s || wrongForward s || fetchesPendingStore s || endsEarly s

/-- The model's own condition, first part: a record whose first source waits for the `lw` directly ahead has as its
second source the destination of the record before that `lw`.  The pass ends at the first source (R182), the writer
retires, and the forward to the second source is lost. -/
def lostForward {p : Params} (s : Engine p) : Bool :=
  !s.stall && kindOf s.l2.instr == .load && src1Of s.l1.instr == destOf s.l2.instr &&
    (src2Of s.l1.instr).isSome && src2Of s.l1.instr == destOf s.l3.instr && src2Of s.l1.instr != destOf s.l2.instr

/-- The model's own condition, second part: the slot behind a Jump cannot be fetched.  The fetch faults before the Jump
flushes it (R74, R150), where the sequential reference never looks at it. -/
def shadowFault {p : Params} (s : Engine p) : Bool :=
  (targetLiteral s.l0.instr).isSome && match fetchRequest s with
    | .ok _ => false
    | .error _ => true

/-- The check `broken` answers no at every cycle boundary of the run from `s`, `s` itself included. -/
def neverAlong (broken : {p : Params} → Engine p → Bool) (s : State) : Prop :=
  ∀ n t, stateAfter n s = some t → broken t.engine = false

end Sys2Proof.Machine
end

