-- ==== Sys2Proof/Machine/Sequential.lean ====
section
/-! DEFINITION. The sequential reference interpreter of R263, made of the sequential readings of the instruction
rules.  It is the yardstick of R270, not the machine: the machine is `Sys2Proof.Machine.step`. -/

namespace Sys2Proof.Machine

open Sys2Proof

/-- What the sequential reference works on (R263). -/
structure SeqState (n : Nat) where
  pc  : Word n
  x   : Regs n
  mem : Memory
deriving DecidableEq, Repr

/-- The sequential reading of an Arithmetic in register form (R100). -/
def seqReg {n : Nat} (f : Word n → Word n → Word n) (dest src1 src2 : RegId) (t : SeqState n) : SeqState n :=
  { t with x := writeReg t.x dest (f (readReg t.x src1) (readReg t.x src2)) }

/-- The sequential reading of an Arithmetic in immediate form (R100). -/
def seqImm {n : Nat} (f : Word n → Word n → Word n) (dest src1 : RegId) (imm : Word n) (t : SeqState n) :
    SeqState n :=
  { t with x := writeReg t.x dest (f (readReg t.x src1) imm) }

/-- The sequential reading of `lw` (R120). -/
def seqLw {n : Nat} (memBytes : Nat) (dest base : RegId) (offset : Word n) (t : SeqState n) :
    Except FaultCause (SeqState n) :=
  match memRead memBytes t.mem (effectiveAddress (readReg t.x base) offset) with
  | .ok v => .ok { t with x := writeReg t.x dest v }
  | .error c => .error c

/-- The sequential reading of `sw` (R121). -/
def seqSw {n : Nat} (memBytes : Nat) (srcVal base : RegId) (offset : Word n) (t : SeqState n) :
    Except FaultCause (SeqState n) :=
  match memWrite memBytes t.mem (effectiveAddress (readReg t.x base) offset) (readReg t.x srcVal) with
  | .ok m => .ok { t with mem := m }
  | .error c => .error c

/-- The sequential reading of each instruction (R101 to R106, R120, R121, R130, R131), on a state whose pc has already
moved to the following address. -/
def seqExec {n : Nat} (memBytes : Nat) (i : Instr) (t : SeqState n) : Except FaultCause (SeqState n) :=
  match i with
  | .empty => .ok t
  | .add d a b => .ok (seqReg addResult d a b t)
  | .sub d a b => .ok (seqReg subResult d a b t)
  | .mult d a b => .ok (seqReg multResult d a b t)
  | .addImm d a v => .ok (seqImm addImmResult d a (literalWord n v) t)
  | .subImm d a v => .ok (seqImm subImmResult d a (literalWord n v) t)
  | .multImm d a v => .ok (seqImm multImmResult d a (literalWord n v) t)
  | .lw d b off => seqLw memBytes d b (literalWord n off) t
  | .sw r b off => seqSw memBytes r b (literalWord n off) t
  | .j target => .ok { t with pc := literalWord n target }

/-- One turn of the reference's loop (R263): `none` when the pc has left the program. -/
def seqStep (p : Params) (t : SeqState p.xlen) : Except FaultCause (Option (SeqState p.xlen)) :=
  match fetchWord p t.mem t.pc with
  | .error c => .error c
  | .ok none => .ok none
  | .ok (some i) =>
    match seqExec p.memBytes i { t with pc := t.pc + 4#p.xlen } with
    | .error c => .error c
    | .ok t' => .ok (some t')

/-- How a bounded run of the reference ends. -/
inductive SeqOutcome (n : Nat) where
  /-- The pc left the program: the final registers and memory (R263). -/
  | finished (t : SeqState n)
  /-- A fault of R263. -/
  | faulted (c : FaultCause)
  /-- The turns given were not enough (U14). -/
  | unfinished (t : SeqState n)
deriving DecidableEq, Repr

/-- The reference for at most `n` turns (R263). -/
def seqRun (p : Params) : Nat → SeqState p.xlen → SeqOutcome p.xlen
  | 0, t => .unfinished t
  | n + 1, t =>
    match seqStep p t with
    | .error c => .faulted c
    | .ok none => .finished t
    | .ok (some t') => seqRun p n t'

/-- The registers and memory of the machine, as the reference sees them. -/
def seqOf {p : Params} (s : Engine p) : SeqState p.xlen := { pc := s.pc, x := s.x, mem := s.mem }

end Sys2Proof.Machine
end

