-- ==== Sys2Proof/Safety.lean ====
section
/-! DEFINITION. What counts as a sound state and a safe step, in the terms the statements use. -/

namespace Sys2Proof.Machine

open Sys2Proof

/-! ### The slots of a record, by the stage it has passed (R30) -/

/-- No slot is written. -/
def slotsFresh {n : Nat} (l : Latch n) : Bool := l.resolvedSrc1.isNone && l.resolvedSrc2.isNone && l.result.isNone

/-- The operand slots of the record are those its kind has: `resolvedSrc1` of an Arithmetic, Load or Store, and
`resolvedSrc2` of an Arithmetic or Store. -/
def operandsWritten {n : Nat} (l : Latch n) : Bool :=
  (l.resolvedSrc1.isSome == readsRegisters l.instr) &&
  (l.resolvedSrc2.isSome == (kindOf l.instr == .arithmetic || kindOf l.instr == .store))

/-- Decode has written the operand slots, nothing else is written. -/
def slotsDecoded {n : Nat} (l : Latch n) : Bool := operandsWritten l && l.result.isNone

/-- Execute has also written `result` of an Arithmetic. -/
def slotsExecuted {n : Nat} (l : Latch n) : Bool :=
    operandsWritten l && (l.result.isSome == (kindOf l.instr == .arithmetic))

/-- Memory has also written `result` of a Load: every record that writes a register has its result. -/
def slotsComplete {n : Nat} (l : Latch n) : Bool := operandsWritten l && (l.result.isSome == writesRegister l.instr)

/-- The destination of a record, as a queue of at most one entry. -/
def destQueue {n : Nat} (l : Latch n) : List RegId := (destOf l.instr).toList

/-- What the hazard queue holds at a cycle boundary (R206). -/
def boundaryQueue {p : Params} (s : Engine p) : List RegId :=
  destQueue s.l3 ++ (if s.stall = true then [] else destQueue s.l2)

/-- What holds of the machine at every cycle boundary of every run from a load. -/
structure Sound {p : Params} (s : Engine p) : Prop where
  /-- The parameters are ones a load accepts (R8). -/
  params_wf : p.wf
  /-- Memory is in canonical form. -/
  mem_wf : memoryWf s.mem = true
  /-- No byte outside memory is listed (R51). -/
  mem_within : memoryWithin p.xlen p.memBytes s.mem = true
  /-- Every latch holds a well-formed record (R73). -/
  records_wf : (s.l0.instr.wellFormed && s.l1.instr.wellFormed && s.l2.instr.wellFormed && s.l3.instr.wellFormed &&
    s.l4.instr.wellFormed) = true
  /-- The Fetch latch's slots are unwritten (R28, R171). -/
  l0_fresh : slotsFresh s.l0 = true
  /-- The Decode latch's record has its operands (R174, R175). -/
  l1_decoded : slotsDecoded s.l1 = true
  /-- The Execute latch's record has passed Execute, or is stalled with its operands read (R181, R182). -/
  l2_executed : (if s.stall = true then slotsDecoded s.l2 else slotsExecuted s.l2) = true
  /-- The Memory latch's record has passed Memory (R183). -/
  l3_complete : slotsComplete s.l3 = true
  /-- The Writeback latch's record has passed Memory. -/
  l4_complete : slotsComplete s.l4 = true
  /-- The content of the hazard queue (R206). -/
  hq_content : s.hq = boundaryQueue s
  /-- A stall stands only on a load-use pair: the Memory latch holds a Load of a register the stalled record reads
  (R208). -/
  stall_loadUse : s.stall = true →
    kindOf s.l3.instr = .load ∧ ∃ r ∈ sourcesOf s.l2.instr, destOf s.l3.instr = some r
  /-- A Jump in the Decode latch has set the pc and flushed the Fetch latch (R176). -/
  jump_taken : ∀ target, targetOf p.xlen s.l1.instr = some target → s.pc = target ∧ s.l0 = Latch.bubble
  /-- `done` is set only with every latch Empty (R148). -/
  done_empty : s.done = true → allEmpty s = true
  /-- The cause is 0 while no fault is recorded (R232). -/
  cause_zero : s.fault = false → s.faultCause = 0#3

/-- The pipeline holds nothing that is still to act: under parameters a load accepts the engine runs unstalled, every
latch but Writeback's holds the bubble and no register is in flight. -/
structure Quiet {p : Params} (s : Engine p) : Prop where
  params_wf : p.wf
  running : running s = true
  stall : s.stall = false
  l0 : s.l0 = Latch.bubble
  l1 : s.l1 = Latch.bubble
  l2 : s.l2 = Latch.bubble
  l3 : s.l3 = Latch.bubble
  hq : s.hq = []

/-- Cycles in which Fetch takes the given instructions one after the other.  In a stalling cycle Fetch takes nothing
(R172), so the instruction given for that cycle is not taken. -/
def feed : List Instr → State → Host.Outcome State Fault Refusal
  | [], s => .next s
  | i :: is, s =>
    match exec i s with
    | .next t => feed is t
    | .fault f => .fault f
    | .refused r => .refused r

/-- Four Empty words: what follows an instruction that is alone in the pipeline. -/
def fourEmpties : List Instr := [.empty, .empty, .empty, .empty]

/-- The state five cycles after a quiet one in which an instruction that changes neither registers, memory nor pc was
fetched, followed by four Empty words: its record, with its slots, is in the Writeback latch. -/
def passed {p : Params} (s : Engine p) (record : Latch p.xlen) : Engine p :=
  { s with
    pc := s.pc + 20#p.xlen
    l0 := Latch.bubble
    l1 := Latch.bubble
    l2 := Latch.bubble
    l3 := Latch.bubble
    l4 := record
    cycle := s.cycle + 5#p.ctrW
    fetched := s.fetched + 5#p.ctrW }

/-- The instructions, each followed by four Empty words, the only padding the ISA offers (R269). -/
def padded (is : List Instr) : List Instr := is.flatMap fun i => i :: fourEmpties

/-- The sequential readings of the instructions, one after the other (R263). -/
def seqFeed {n : Nat} (memBytes : Nat) : List Instr → SeqState n → Except FaultCause (SeqState n)
  | [], t => .ok t
  | i :: is, t =>
    match seqExec memBytes i t with
    | .ok t' => seqFeed memBytes is t'
    | .error c => .error c

/-- A step is safe when it is not a contract violation, which the spec calls unreachable (R232). -/
def safeOutcome : Host.Outcome State Fault Refusal → Prop
  | .fault (.contractViolation _) => False
  | _ => True

end Sys2Proof.Machine
end

