-- ==== Sys2Proof/Certificates/Slice0/Obligations.lean ====
section
/-! DEFINITION. The statements about the machine, one `def Obligations.<Name> : Prop` each. -/

open Sys2Proof Sys2Proof.Machine

/-! ### Encoding (spec/30_encoding.md) -/

/-- R80: the formulas of `encode`, and that `encode` and `decode` are inverse to each other. -/
def Obligations.EncodeIsInverseOfDecode : Prop :=
  (∀ r, r.wellFormed = true → decode (encode r) = .ok r) ∧
  (∀ w r, decode w = .ok r → r.wellFormed = true ∧ encode r = w) ∧
  encode .empty = 0#32 ∧
  (∀ d a b : RegId,
    encode (.add d a b) = 0x01#32 <<< 26 ||| d.setWidth 32 <<< 21 ||| a.setWidth 32 <<< 16 ||| b.setWidth 32 <<< 11 ∧
    encode (.sub d a b) = 0x02#32 <<< 26 ||| d.setWidth 32 <<< 21 ||| a.setWidth 32 <<< 16 ||| b.setWidth 32 <<< 11 ∧
    encode (.mult d a b) = 0x03#32 <<< 26 ||| d.setWidth 32 <<< 21 ||| a.setWidth 32 <<< 16 ||| b.setWidth 32 <<< 11) ∧
  (∀ (d a : RegId) (v : Int),
    encode (.addImm d a v) = 0x09#32 <<< 26 ||| d.setWidth 32 <<< 21 ||| a.setWidth 32 <<< 16 |||
      (BitVec.ofInt 16 v).setWidth 32 ∧
    encode (.subImm d a v) = 0x0A#32 <<< 26 ||| d.setWidth 32 <<< 21 ||| a.setWidth 32 <<< 16 |||
      (BitVec.ofInt 16 v).setWidth 32 ∧
    encode (.multImm d a v) = 0x0B#32 <<< 26 ||| d.setWidth 32 <<< 21 ||| a.setWidth 32 <<< 16 |||
      (BitVec.ofInt 16 v).setWidth 32 ∧
    encode (.lw d a v) = 0x10#32 <<< 26 ||| d.setWidth 32 <<< 21 ||| a.setWidth 32 <<< 16 |||
      (BitVec.ofInt 16 v).setWidth 32 ∧
    encode (.sw d a v) = 0x11#32 <<< 26 ||| d.setWidth 32 <<< 21 ||| a.setWidth 32 <<< 16 |||
      (BitVec.ofInt 16 v).setWidth 32) ∧
  (∀ t : Int, encode (.j t) = 0x20#32 <<< 26 ||| (BitVec.ofInt 26 t).setWidth 32)

/-- R78, the list: the words the decoder refuses are exactly those with opcode 0 and a bit among 25:0, with opcode 1
to 3 and a bit among 10:0, and those with an opcode that no row has. -/
def Obligations.IllegalWordsAreExactlyThese : Prop :=
  ∀ w : InstrWord, (∃ e, decode w = .error e) ↔
    ((w >>> 26).toNat = 0 ∧ w.toNat % 2 ^ 26 ≠ 0) ∨
    (1 ≤ (w >>> 26).toNat ∧ (w >>> 26).toNat ≤ 3 ∧ w.toNat % 2 ^ 11 ≠ 0) ∨
    (4 ≤ (w >>> 26).toNat ∧ (w >>> 26).toNat ≤ 8) ∨
    (0x0C ≤ (w >>> 26).toNat ∧ (w >>> 26).toNat ≤ 0x0F) ∨
    (0x12 ≤ (w >>> 26).toNat ∧ (w >>> 26).toNat ≤ 0x1F) ∨
    (0x21 ≤ (w >>> 26).toNat)

/-- R81: the worked encodings, in both directions. -/
def Obligations.WorkedEncodings : Prop :=
  ∀ p ∈ ([(0x04411800#32, .add 2#5 1#5 3#5), (0x04821000#32, .add 4#5 2#5 2#5), (0x08A63800#32, .sub 5#5 6#5 7#5),
      (0x0D095000#32, .mult 8#5 9#5 10#5), (0x24410005#32, .addImm 2#5 1#5 5),
      (0x2841FFFF#32, .subImm 2#5 1#5 (-1)), (0x40620000#32, .lw 3#5 2#5 0),
      (0x4062FFFC#32, .lw 3#5 2#5 (-4)), (0x44220000#32, .sw 1#5 2#5 0), (0x8000100C#32, .j 0x100c),
      (0x00000000#32, .empty)] : List (InstrWord × Instr)),
    encode p.2 = p.1 ∧ decode p.1 = .ok p.2

/-- R71: the micro-op flags of every kind. -/
def Obligations.MicroOpFlagsFollowTheKind : Prop :=
  (∀ i, kindOf i = .arithmetic → readsRegisters i = true ∧ writesRegister i = true ∧ readsMemory i = false ∧
    writesMemory i = false ∧ usesAlu i = true) ∧
  (∀ i, kindOf i = .load → readsRegisters i = true ∧ writesRegister i = true ∧ readsMemory i = true ∧
    writesMemory i = false ∧ usesAlu i = true) ∧
  (∀ i, kindOf i = .store → readsRegisters i = true ∧ writesRegister i = false ∧ readsMemory i = false ∧
    writesMemory i = true ∧ usesAlu i = true) ∧
  (∀ i, kindOf i = .jump ∨ kindOf i = .empty → readsRegisters i = false ∧ writesRegister i = false ∧
    readsMemory i = false ∧ writesMemory i = false ∧ usesAlu i = false)

/-! ### Memory (spec/20_memory.md) -/

/-- R59: the access primitives, on a memory of `memBytes` addresses and cells of `n` bits: the two faults in their
order, the cell read, and the cell written with every other byte as before.  At XLEN = 32 a cell's four bytes stand at
its own address. -/
def Obligations.AccessPrimitivesCheckThenAccess : Prop :=
  ∀ (n memBytes : Nat) (m : Memory) (addr v : Word n),
    (addr.toNat % 4 ≠ 0 → memRead memBytes m addr = .error .dataMisaligned ∧
      memWrite memBytes m addr v = .error .dataMisaligned) ∧
    (addr.toNat % 4 = 0 → memBytes ≤ addr.toNat → memRead memBytes m addr = .error .dataOutOfRange ∧
      memWrite memBytes m addr v = .error .dataOutOfRange) ∧
    (addr.toNat % 4 = 0 → addr.toNat < memBytes → memoryWf m = true →
      memRead memBytes m addr = .ok (readCell n m addr.toNat) ∧
      ∃ m', memWrite memBytes m addr v = .ok m' ∧ memoryWf m' = true ∧ readCell n m' addr.toNat = v ∧
        (∀ a, a < cellBase n addr.toNat ∨ cellBase n addr.toNat + cellBytes n ≤ a → readByte m' a = readByte m a) ∧
        (n = 32 → cellBase n addr.toNat = addr.toNat ∧ cellBytes n = 4))

/-! ### Each instruction alone in the pipeline

Each statement gives the word's decoding and, from every quiet state, the next state of the cycle that fetches the
instruction and the state four cycles later, when it has passed Writeback.  The final state is written out in full, so
everything it does not name is unchanged. -/

/-- R101. -/
def Obligations.AddWritesSum : Prop :=
  ∀ d a b : RegId, decode (0x01#6 ++ d ++ a ++ b ++ 0#11) = .ok (.add d a b) ∧
    ∀ (p : Params) (s : Engine p), Quiet s → ∃ s1 : Engine p, exec (.add d a b) s.pack = .next s1.pack ∧
      feed fourEmpties s1.pack = .next (Engine.pack { passed s
        { instr := .add d a b, resolvedSrc1 := some (readReg s.x a), resolvedSrc2 := some (readReg s.x b),
          result := some (readReg s.x a + readReg s.x b) } with
        x := writeReg s.x d (readReg s.x a + readReg s.x b) })

/-- R102. -/
def Obligations.SubWritesDifference : Prop :=
  ∀ d a b : RegId, decode (0x02#6 ++ d ++ a ++ b ++ 0#11) = .ok (.sub d a b) ∧
    ∀ (p : Params) (s : Engine p), Quiet s → ∃ s1 : Engine p, exec (.sub d a b) s.pack = .next s1.pack ∧
      feed fourEmpties s1.pack = .next (Engine.pack { passed s
        { instr := .sub d a b, resolvedSrc1 := some (readReg s.x a), resolvedSrc2 := some (readReg s.x b),
          result := some (readReg s.x a - readReg s.x b) } with
        x := writeReg s.x d (readReg s.x a - readReg s.x b) })

/-- R103: the low XLEN bits of the product of the unsigned readings, which are those of the signed ones. -/
def Obligations.MultWritesLowProduct : Prop :=
  ∀ d a b : RegId, decode (0x03#6 ++ d ++ a ++ b ++ 0#11) = .ok (.mult d a b) ∧
    ∀ (p : Params) (s : Engine p), Quiet s → ∃ s1 : Engine p, exec (.mult d a b) s.pack = .next s1.pack ∧
      feed fourEmpties s1.pack = .next (Engine.pack { passed s
        { instr := .mult d a b, resolvedSrc1 := some (readReg s.x a), resolvedSrc2 := some (readReg s.x b),
          result := some (readReg s.x a * readReg s.x b) } with
        x := writeReg s.x d (BitVec.ofNat p.xlen ((readReg s.x a).toNat * (readReg s.x b).toNat)) }) ∧
      BitVec.ofNat p.xlen ((readReg s.x a).toNat * (readReg s.x b).toNat) =
        BitVec.ofInt p.xlen ((readReg s.x a).toInt * (readReg s.x b).toInt)

/-- R104. -/
def Obligations.AddImmWritesSum : Prop :=
  ∀ (d a : RegId) (imm16 : BitVec 16),
    decode (0x09#6 ++ d ++ a ++ imm16) = .ok (.addImm d a imm16.toInt) ∧
    ∀ (p : Params) (s : Engine p), Quiet s → ∃ s1 : Engine p, exec (.addImm d a imm16.toInt) s.pack = .next s1.pack ∧
      feed fourEmpties s1.pack = .next (Engine.pack { passed s
        { instr := .addImm d a imm16.toInt, resolvedSrc1 := some (readReg s.x a),
          resolvedSrc2 := some (imm16.signExtend p.xlen),
          result := some (readReg s.x a + imm16.signExtend p.xlen) } with
        x := writeReg s.x d (readReg s.x a + imm16.signExtend p.xlen) })

/-- R105. -/
def Obligations.SubImmWritesDifference : Prop :=
  ∀ (d a : RegId) (imm16 : BitVec 16),
    decode (0x0A#6 ++ d ++ a ++ imm16) = .ok (.subImm d a imm16.toInt) ∧
    ∀ (p : Params) (s : Engine p), Quiet s → ∃ s1 : Engine p, exec (.subImm d a imm16.toInt) s.pack = .next s1.pack ∧
      feed fourEmpties s1.pack = .next (Engine.pack { passed s
        { instr := .subImm d a imm16.toInt, resolvedSrc1 := some (readReg s.x a),
          resolvedSrc2 := some (imm16.signExtend p.xlen),
          result := some (readReg s.x a - imm16.signExtend p.xlen) } with
        x := writeReg s.x d (readReg s.x a - imm16.signExtend p.xlen) })

/-- R106. -/
def Obligations.MultImmWritesLowProduct : Prop :=
  ∀ (d a : RegId) (imm16 : BitVec 16),
    decode (0x0B#6 ++ d ++ a ++ imm16) = .ok (.multImm d a imm16.toInt) ∧
    ∀ (p : Params) (s : Engine p), Quiet s → ∃ s1 : Engine p, exec (.multImm d a imm16.toInt) s.pack = .next s1.pack ∧
      feed fourEmpties s1.pack = .next (Engine.pack { passed s
        { instr := .multImm d a imm16.toInt, resolvedSrc1 := some (readReg s.x a),
          resolvedSrc2 := some (imm16.signExtend p.xlen),
          result := some (readReg s.x a * imm16.signExtend p.xlen) } with
        x := writeReg s.x d (readReg s.x a * imm16.signExtend p.xlen) })

/-- R120: the load of a cell, and its two faults in the cycle the `lw` would occupy the Memory latch. -/
def Obligations.LwLoadsCell : Prop :=
  ∀ (d b : RegId) (imm16 : BitVec 16),
    decode (0x10#6 ++ d ++ b ++ imm16) = .ok (.lw d b imm16.toInt) ∧
    ∀ (p : Params) (s : Engine p), Quiet s → ∃ s1 s3 : Engine p, exec (.lw d b imm16.toInt) s.pack = .next s1.pack ∧
      feed [.empty, .empty] s1.pack = .next s3.pack ∧
      (if (readReg s.x b + imm16.signExtend p.xlen).toNat % 4 ≠ 0 then
        exec .empty s3.pack = .fault (.dataMisaligned (Engine.pack { s3 with fault := true, faultCause := 3#3 }))
      else if p.memBytes ≤ (readReg s.x b + imm16.signExtend p.xlen).toNat then
        exec .empty s3.pack = .fault (.dataOutOfRange (Engine.pack { s3 with fault := true, faultCause := 4#3 }))
      else
        feed [.empty, .empty] s3.pack = .next (Engine.pack { passed s
          { instr := .lw d b imm16.toInt, resolvedSrc1 := some (readReg s.x b + imm16.signExtend p.xlen),
            resolvedSrc2 := none,
            result := some (readCell p.xlen s.mem (readReg s.x b + imm16.signExtend p.xlen).toNat) } with
          x := writeReg s.x d (readCell p.xlen s.mem (readReg s.x b + imm16.signExtend p.xlen).toNat) }))

/-- R121: the store to a cell, what it leaves of memory, and its two faults, in which nothing is written. -/
def Obligations.SwStoresCell : Prop :=
  ∀ (v b : RegId) (imm16 : BitVec 16),
    decode (0x11#6 ++ v ++ b ++ imm16) = .ok (.sw v b imm16.toInt) ∧
    ∀ (p : Params) (s : Engine p), Quiet s → ∃ s1 s3 : Engine p, exec (.sw v b imm16.toInt) s.pack = .next s1.pack ∧
      feed [.empty, .empty] s1.pack = .next s3.pack ∧ s3.mem = s.mem ∧
      (if (readReg s.x b + imm16.signExtend p.xlen).toNat % 4 ≠ 0 then
        exec .empty s3.pack = .fault (.dataMisaligned (Engine.pack { s3 with fault := true, faultCause := 3#3 }))
      else if p.memBytes ≤ (readReg s.x b + imm16.signExtend p.xlen).toNat then
        exec .empty s3.pack = .fault (.dataOutOfRange (Engine.pack { s3 with fault := true, faultCause := 4#3 }))
      else ∃ m,
        feed [.empty, .empty] s3.pack = .next (Engine.pack { passed s
          { instr := .sw v b imm16.toInt, resolvedSrc1 := some (readReg s.x v),
            resolvedSrc2 := some (readReg s.x b + imm16.signExtend p.xlen), result := none } with mem := m }) ∧
        (memoryWf s.mem = true → readCell p.xlen m (readReg s.x b + imm16.signExtend p.xlen).toNat = readReg s.x v) ∧
        ∀ a, (a < cellBase p.xlen (readReg s.x b + imm16.signExtend p.xlen).toNat ∨
            cellBase p.xlen (readReg s.x b + imm16.signExtend p.xlen).toNat + cellBytes p.xlen ≤ a) →
          readByte m a = readByte s.mem a)

/-- R130, R133: the jump sets the pc one cycle after its fetch and discards exactly the one slot fetched then: an
instruction, whichever it is, which is counted in `fetched` and has no other effect, or nothing, where the address after
the jump is outside the program. -/
def Obligations.JumpDiscardsExactlyOneInstruction : Prop :=
  ∀ target26 : BitVec 26, decode (0x20#6 ++ target26) = .ok (.j target26.toNat) ∧
    ∀ (p : Params) (s : Engine p), Quiet s → ∃ s1 : Engine p, exec (.j target26.toNat) s.pack = .next s1.pack ∧
      s1.pc = s.pc + 4#p.xlen ∧ s1.fetched = s.fetched + 1#p.ctrW ∧
      ∀ discarded : Option Instr, ∃ s2 : Engine p, cycle discarded s1.pack = .next s2.pack ∧
        s2.pc = target26.setWidth p.xlen ∧ s2.l0 = Latch.bubble ∧
        s2.fetched = (if discarded.isSome = true then s1.fetched + 1#p.ctrW else s1.fetched) ∧
        feed [.empty, .empty, .empty] s2.pack = .next (Engine.pack { passed s (Latch.fresh (.j target26.toNat)) with
          pc := target26.setWidth p.xlen + 12#p.xlen, fetched := s2.fetched + 3#p.ctrW })

/-- R131, R269: Empty is fetched, counted and stepped over; with nothing else in the pipeline the run ends in that
cycle. -/
def Obligations.EmptyChangesNothingAndMayEndTheRun : Prop :=
  decode 0x00000000#32 = .ok .empty ∧
  ∀ (p : Params) (s : Engine p), Quiet s → exec .empty s.pack = .next (Engine.pack { s with
    pc := s.pc + 4#p.xlen, fetched := s.fetched + 1#p.ctrW, cycle := s.cycle + 1#p.ctrW, l4 := Latch.bubble,
    done := true })

/-! ### Every cycle, from every state -/

/-- The step runs the decoded instruction: where the engine runs unstalled and the pc is in the program, aligned and
in memory, the step is the meaning of the instruction the cell at the pc decodes to, with nothing added.  How a cell of
more than 32 bits decodes is the model's choice (log entry 13). -/
def Obligations.StepRunsDecodedInstruction : Prop :=
  ∀ (p : Params) (s : Engine p) (i : Instr), running s = true → s.stall = false → inProgram p s.pc = true →
    s.pc.toNat % 4 = 0 → s.pc.toNat < p.memBytes → decodeCell (readCell p.xlen s.mem s.pc.toNat) = .ok i →
    step s.pack = exec i s.pack

/-- The model's own placing of an instruction (log entry 4): from any state, the step after it runs that instruction. -/
def Obligations.PlacedWordIsRunNext : Prop :=
  ∀ (s : State) (nbits w : Nat) (i : Instr), memoryWf s.engine.mem = true → decodeTableWord nbits w = some i →
    step (s.withFetchWord nbits w) = exec i (s.withFetchWord nbits w)

/-- R39: the parameters are arguments of the machine: what a step, a meaning or a clock edge without reset makes is an
engine state for the same ones. -/
def Obligations.ParametersAreNeverChanged : Prop :=
  (∀ s t, step s = .next t → ∃ e : Engine s.params, t = e.pack) ∧
  (∀ i s t, exec i s = .next t → ∃ e : Engine s.params, t = e.pack) ∧
  (∀ s f, step s = .fault f → ∃ e : Engine s.params, stoppedState f = e.pack) ∧
  ∀ q x m s, ∃ e : Engine s.params, clockEdge false q x m s = e.pack

/-- R22, R184: the one register a cycle writes is the destination of the record that enters Writeback, if it has one,
and the records that have one are the Arithmetic ones and `lw`; register 0 is written like any other. -/
def Obligations.OnlyWritebackWritesRegisters : Prop :=
  (∀ (p : Params) (s t : Engine p), step s.pack = .next t.pack →
    (∀ d, destOf s.l3.instr = some d → ∃ v, s.l3.result = some v ∧ t.x = writeReg s.x d v ∧
      readReg t.x d = v ∧ ∀ r, r ≠ d → readReg t.x r = readReg s.x r) ∧
    (destOf s.l3.instr = none → t.x = s.x)) ∧
  (∀ i : Instr, (destOf i).isSome = true ↔
    (∃ d a b, i = .add d a b ∨ i = .sub d a b ∨ i = .mult d a b) ∨
    (∃ d a v, i = .addImm d a v ∨ i = .subImm d a v ∨ i = .multImm d a v) ∨ ∃ d b v, i = .lw d b v)

/-- R174, R175: Decode reads the registers as they were at the start of the cycle, whatever Writeback writes in it. -/
def Obligations.DecodeReadsRegistersOfCycleStart : Prop :=
  ∀ (p : Params) (s t : Engine p), step s.pack = .next t.pack →
    t.l1.instr = (enteringDecode s).instr ∧
    (∀ r, src1Of t.l1.instr = some r → t.l1.resolvedSrc1 = some (readReg s.x r)) ∧
    (∀ r, src2Of t.l1.instr = some r → t.l1.resolvedSrc2 = some (readReg s.x r)) ∧
    (∀ v, kindOf t.l1.instr = .arithmetic → immOf p.xlen t.l1.instr = some v → t.l1.resolvedSrc2 = some v) ∧
    (kindOf t.l1.instr = .load → t.l1.resolvedSrc2 = (enteringDecode s).resolvedSrc2)

/-- Memory changes only by the Store that enters Memory, and then only in its cell, which is in range and aligned; a
Load that enters Memory takes its cell into `result`. -/
def Obligations.OnlyStoresWriteMemory : Prop :=
  ∀ (p : Params) (s t : Engine p), step s.pack = .next t.pack →
    (∀ addr, storeAddress s = some addr → ∃ v, (enteringMemory s).resolvedSrc1 = some v ∧
      addr.toNat % 4 = 0 ∧ addr.toNat < p.memBytes ∧
      (∀ a, a < cellBase p.xlen addr.toNat ∨ cellBase p.xlen addr.toNat + cellBytes p.xlen ≤ a →
        readByte t.mem a = readByte s.mem a) ∧
      (memoryWf s.mem = true → readCell p.xlen t.mem addr.toNat = v)) ∧
    (storeAddress s = none → t.mem = s.mem) ∧
    (kindOf (enteringMemory s).instr = .load → ∃ addr, (enteringMemory s).resolvedSrc1 = some addr ∧
      addr.toNat % 4 = 0 ∧ addr.toNat < p.memBytes ∧ t.l3.result = some (readCell p.xlen s.mem addr.toNat))

/-- R143, R144: how the records move, in a cycle that is not stalling and in one that is.  A record enters Memory and
Writeback with its slots as they are; the one slot changed on the way is the result of a Load, read in Memory (R183). -/
def Obligations.LatchesAdvanceOrHold : Prop :=
  ∀ (p : Params) (s t : Engine p), step s.pack = .next t.pack → t.l4 = s.l3 ∧
    (s.stall = false → t.l2.instr = s.l1.instr ∧ t.l1.instr = s.l0.instr ∧
      (kindOf s.l2.instr ≠ .load → t.l3 = s.l2) ∧
      (kindOf s.l2.instr = .load → ∃ addr, s.l2.resolvedSrc1 = some addr ∧
        t.l3 = { s.l2 with result := some (readCell p.xlen s.mem addr.toNat) })) ∧
    (s.stall = true → t.l3 = Latch.bubble ∧ t.l2.instr = s.l2.instr ∧ t.l1.instr = s.l1.instr ∧
      (targetOf p.xlen s.l1.instr = none → t.l0 = s.l0))

/-- The pc and the fetched count: Fetch adds a word and counts, a Jump in Decode wins, nothing else changes them. -/
def Obligations.PcChangesOnlyByFetchAndJump : Prop :=
  ∀ (p : Params) (s t : Engine p), step s.pack = .next t.pack →
    (∀ target, targetOf p.xlen (enteringDecode s).instr = some target → t.pc = target ∧ t.l0 = Latch.bubble) ∧
    (targetOf p.xlen (enteringDecode s).instr = none →
      t.pc = if fetches s = true then s.pc + 4#p.xlen else s.pc) ∧
    t.fetched = if fetches s = true then s.fetched + 1#p.ctrW else s.fetched

/-- R149, R148: every committed cycle counts one, and `done` is set exactly when every latch holds Empty. -/
def Obligations.EveryCycleCountsAndTestsTermination : Prop :=
  ∀ (p : Params) (s t : Engine p), step s.pack = .next t.pack → t.cycle = s.cycle + 1#p.ctrW ∧
    (t.done = true ↔ t.l0.instr = .empty ∧ t.l1.instr = .empty ∧ t.l2.instr = .empty ∧ t.l3.instr = .empty ∧
      t.l4.instr = .empty)

/-- The frame of every instruction's own cycle: what a meaning that answers a next state leaves alone, and the one
place each thing that may change is changed by. -/
def Obligations.MeaningFrame : Prop :=
  ∀ (p : Params) (i : Instr) (s t : Engine p), exec i s.pack = .next t.pack →
    t.fault = s.fault ∧ t.faultCause = s.faultCause ∧ t.cycle = s.cycle + 1#p.ctrW ∧
    (∀ r, destOf s.l3.instr ≠ some r → readReg t.x r = readReg s.x r) ∧
    (∀ a, (∀ addr, storeAddress s = some addr →
      a < cellBase p.xlen addr.toNat ∨ cellBase p.xlen addr.toNat + cellBytes p.xlen ≤ a) →
      readByte t.mem a = readByte s.mem a) ∧
    t.l4 = s.l3 ∧
    (s.stall = true → t.fetched = s.fetched) ∧
    (s.stall = false → t.fetched = s.fetched + 1#p.ctrW ∧
      (targetOf p.xlen s.l0.instr = none → t.l0 = Latch.fresh i ∧ t.pc = s.pc + 4#p.xlen))

/-- R34: a committed cycle adds one to `cycle`, a fetch that reads an instruction adds one to `fetched`, and neither is
read by the engine: with any other values in both, the same step does the same to everything else. -/
def Obligations.CountersCountAndAreNotRead : Prop :=
  ∀ (p : Params) (s t : Engine p) (c g : Counter p.ctrW), step s.pack = .next t.pack →
    step (Engine.pack { s with cycle := c, fetched := g }) = .next (Engine.pack { t with
      cycle := c + 1#p.ctrW, fetched := if fetches s = true then g + 1#p.ctrW else g })

/-! ### Execute, hazards and forwarding (spec/47_hazard_forwarding.md) -/

/-- R202: `forward` answers the result of the Memory latch's record if it writes `r` and has its result, else that of
the Writeback latch's on the same terms, else nothing. -/
def Obligations.ForwardSearchesMemoryThenWriteback : Prop :=
  ∀ (n : Nat) (l3 l4 : Latch n) (r : RegId), forward l3 l4 r =
    if writesRegister l3.instr = true ∧ destOf l3.instr = some r ∧ l3.result ≠ none then l3.result
    else if writesRegister l4.instr = true ∧ destOf l4.instr = some r ∧ l4.result ≠ none then l4.result
    else none

/-- R204: the stall is raised exactly when a checked source is in the hazard queue and cannot be forwarded. -/
def Obligations.StallRaisedExactlyWhenBlocked : Prop :=
  ∀ (p : Params) (s t : Engine p), step s.pack = .next t.pack →
    (t.stall = true ↔ ∃ r ∈ sourcesOf (enteringExecute s).instr, blocked s r)

/-- R181: what an Execute pass that does not stall computes, from the operands as forwarded, and that Execute raises no
fault. -/
def Obligations.ExecuteComputesFromOperandsSeen : Prop :=
  (∀ (p : Params) (s t : Engine p), step s.pack = .next t.pack → t.stall = false →
    (∀ op, opOf (enteringExecute s).instr = some op → ∃ a b,
      operandSeen s (src1Of (enteringExecute s).instr) (enteringExecute s).resolvedSrc1 = some a ∧
      operandSeen s (src2Of (enteringExecute s).instr) (enteringExecute s).resolvedSrc2 = some b ∧
      t.l2.result = some (match op with | .add => a + b | .sub => a - b | .mult => a * b)) ∧
    (∀ d base off, (enteringExecute s).instr = .lw d base off → ∃ a,
      operandSeen s (some base) (enteringExecute s).resolvedSrc1 = some a ∧
        t.l2.resolvedSrc1 = some (a + literalWord p.xlen off)) ∧
    (∀ v base off, (enteringExecute s).instr = .sw v base off → ∃ b,
      operandSeen s (some base) (enteringExecute s).resolvedSrc2 = some b ∧
      t.l2.resolvedSrc2 = some (b + literalWord p.xlen off) ∧
      t.l2.resolvedSrc1 = operandSeen s (some v) (enteringExecute s).resolvedSrc1)) ∧
  (∀ (p : Params) (s : Engine p) f c, Sound s → executeEffect (earlyEffects f s) ≠ .error c)

/-- R182: a stalled pass computes nothing and registers nothing; a first source that could be forwarded before the
second one failed keeps the forwarded value, and any other slot is as it was. -/
def Obligations.StalledPassKeepsTheRecord : Prop :=
  ∀ (p : Params) (s t : Engine p), step s.pack = .next t.pack → t.stall = true →
    t.l2.instr = (enteringExecute s).instr ∧ t.l2.resolvedSrc2 = (enteringExecute s).resolvedSrc2 ∧
    t.l2.result = (enteringExecute s).result ∧
    (∀ r v, src1Of (enteringExecute s).instr = some r → r ∈ s.hq →
      forward (enteringMemory s) (enteringWriteback s) r = some v → t.l2.resolvedSrc1 = some v) ∧
    ((∀ r v, src1Of (enteringExecute s).instr = some r → r ∈ s.hq →
      forward (enteringMemory s) (enteringWriteback s) r ≠ some v) →
      t.l2.resolvedSrc1 = (enteringExecute s).resolvedSrc1) ∧
    t.hq = if writesRegister s.l3.instr = true then s.hq.tail else s.hq

/-- R206: the content of the hazard queue when Execute runs and at the cycle boundary, and that the retirement removes
the entry of the very record in Writeback. -/
def Obligations.HazardQueueHoldsTheInFlightDestinations : Prop :=
  ∀ (p : Params) (s : Engine p), Sound s →
    s.hq = destQueue (enteringWriteback s) ++ destQueue (enteringMemory s) ∧
    (∀ d, destOf (enteringWriteback s).instr = some d → s.hq.head? = some d) ∧
    ∀ t : Engine p, step s.pack = .next t.pack →
      t.hq = destQueue t.l3 ++ (if t.stall = true then [] else destQueue t.l2)

/-- R207: at most two entries when Execute tests the queue and at a boundary, at most three in between. -/
def Obligations.HazardQueueNeverOverflows : Prop :=
  ∀ (p : Params) (s : Engine p), Sound s → s.hq.length ≤ 2 ∧
    (∀ f, (earlyEffects f s).hq = s.hq ∧
      ∀ s3, executeEffect (earlyEffects f s) = .ok s3 → s3.hq.length ≤ 3) ∧
    (∀ f, executeEffect (earlyEffects f s) ≠ .error .contractViolation)

/-- R208: a raised stall stands on the Load directly ahead and on nothing else, the retry finds every queued source
forwardable from the Writeback latch, and it succeeds. -/
def Obligations.StallIsLoadUseAndLastsOneCycle : Prop :=
  ∀ (p : Params) (s t : Engine p) (r : RegId), Sound s → step s.pack = .next t.pack →
      r ∈ sourcesOf (enteringExecute s).instr → blocked s r →
    kindOf (enteringMemory s).instr = .load ∧ destOf (enteringMemory s).instr = some r ∧
    destOf (enteringWriteback s).instr ≠ some r ∧
    t.stall = true ∧ t.hq = [r] ∧ enteringMemory t = Latch.bubble ∧
    (enteringWriteback t).instr = (enteringMemory s).instr ∧ (enteringWriteback t).result.isSome = true ∧
    (∀ r' ∈ sourcesOf (enteringExecute t).instr, r' ∈ t.hq →
      r' = r ∧ forward (enteringMemory t) (enteringWriteback t) r' = (enteringWriteback t).result) ∧
    ∃ u : Engine p, step t.pack = .next u.pack ∧ u.stall = false

/-- In a stalling cycle the pc and the fetched count stand still, memory is not written, and the one register written
is that of the record leaving the Memory latch. -/
def Obligations.StallingCycleHasNoUpstreamEffect : Prop :=
  ∀ (p : Params) (s t : Engine p), Sound s → s.stall = true → step s.pack = .next t.pack →
    t.pc = s.pc ∧ t.fetched = s.fetched ∧ t.mem = s.mem ∧ t.l0 = s.l0 ∧
    ∀ r, destOf s.l3.instr ≠ some r → readReg t.x r = readReg s.x r

/-- R210 and R266: `k` Empty words between a producer and a consumer, of any form each, put the consumer `k + 1` latches
behind.  The consumer's Execute works with the registers as the producer's sequential reading leaves them, at distance 3
with those before it; it waits one cycle exactly when it reads the destination of a Load directly ahead. -/
def Obligations.ProducerReachesConsumerByDistance : Prop :=
  ∀ (p : Params) (i c : Instr) (k : Nat) (s : Engine p) (t' : SeqState p.xlen), k ≤ 4 → Quiet s →
    writesRegister i = true → readsRegisters c = true → seqExec p.memBytes i (seqOf s) = .ok t' →
    ∃ t : Engine p, feed (i :: (List.replicate k .empty ++ [c, .empty, .empty])) s.pack = .next t.pack ∧
    if k = 0 ∧ kindOf i = .load ∧ (∃ r ∈ sourcesOf c, destOf i = some r) then
      t.stall = true ∧ ∃ u : Engine p, exec .empty t.pack = .next u.pack ∧ u.stall = false ∧
        u.pc = t.pc ∧ u.fetched = t.fetched ∧ compute (decodeSlots t'.x (Latch.fresh c)) = .ok u.l2
    else
      t.stall = false ∧ compute (decodeSlots (if k = 2 then s.x else t'.x) (Latch.fresh c)) = .ok t.l2

/-- R210 at one pair of forms, to the end of both: an `add` and, `k` Empty words behind it, a `sub` with its
destination as first source.  At every distance but 3 the `sub` computes with the new value, at distance 3 with the
old one, never stalling. -/
def Obligations.ArithmeticForwardingByDistance : Prop :=
  ∀ (d a b e : RegId) (k : Nat) (p : Params) (s : Engine p), k ≤ 4 → Quiet s → ∃ t : Engine p,
    feed (.add d a b :: (List.replicate k .empty ++ .sub e d b :: fourEmpties)) s.pack = .next t.pack ∧
    t.x = writeReg (writeReg s.x d (readReg s.x a + readReg s.x b)) e
      ((if k = 2 then readReg s.x d else readReg s.x a + readReg s.x b) -
        (if k = 2 then readReg s.x b else readReg (writeReg s.x d (readReg s.x a + readReg s.x b)) b)) ∧
    t.mem = s.mem ∧ t.cycle = s.cycle + BitVec.ofNat p.ctrW (k + 6)

/-- R266 at one pair of forms, to the end of both: an `lw` and, directly behind it, an `add` with its destination as
second source.  The `add` waits one cycle and then has the loaded value. -/
def Obligations.LoadUseCostsOneCycle : Prop :=
  ∀ (d base e a : RegId) (off : Int) (p : Params) (s : Engine p), Quiet s →
    dataAddressFault p.memBytes (readReg s.x base + literalWord p.xlen off) = none → ∃ s4 s5 t : Engine p,
    feed [.lw d base off, .add e a d, .empty, .empty] s.pack = .next s4.pack ∧ s4.stall = true ∧
    exec .empty s4.pack = .next s5.pack ∧ s5.stall = false ∧ s5.pc = s4.pc ∧ s5.fetched = s4.fetched ∧
    feed [.empty, .empty] s5.pack = .next t.pack ∧ t.mem = s.mem ∧
    t.x = writeReg (writeReg s.x d (readCell p.xlen s.mem (readReg s.x base + literalWord p.xlen off).toNat)) e
      (readReg (writeReg s.x d (readCell p.xlen s.mem (readReg s.x base + literalWord p.xlen off).toNat)) a +
        readCell p.xlen s.mem (readReg s.x base + literalWord p.xlen off).toNat)

/-- R211: a Load of `r` entering Memory with a writer of `r` ahead of it in Writeback does not stall a reader of `r`;
`forward` answers the older writer's result.  So with a writer of `d` directly ahead of a load of `d`, the reader
directly behind the load computes with the older writer's value. -/
def Obligations.TwoWritersThenLoadForwardsTheOlder : Prop :=
  (∀ (p : Params) (s : Engine p) (r : RegId), Sound s → kindOf (enteringMemory s).instr = .load →
    destOf (enteringMemory s).instr = some r → destOf (enteringWriteback s).instr = some r →
    (enteringWriteback s).result.isSome = true ∧
    forward (enteringMemory s) (enteringWriteback s) r = (enteringWriteback s).result ∧ ¬ blocked s r) ∧
  ∀ (d a base e : RegId) (v off : Int) (p : Params) (s : Engine p) (older addr : Word p.xlen), Quiet s →
    older = readReg s.x a + literalWord p.xlen v →
    addr = readReg (writeReg s.x d older) base + literalWord p.xlen off →
    dataAddressFault p.memBytes addr = none → ∃ s5 t : Engine p,
    feed [.addImm d a v, .lw d base off, .add e d d, .empty, .empty] s.pack = .next s5.pack ∧ s5.stall = false ∧
    feed [.empty, .empty] s5.pack = .next t.pack ∧
    t.x = writeReg (writeReg s.x d (readCell p.xlen s.mem addr.toNat)) e (older + older)

/-- A store followed by a load of the same address, with up to four Empty words between, loads the value stored. -/
def Obligations.StoreThenLoadRoundTrip : Prop :=
  ∀ (v base d : RegId) (off : Int) (k : Nat) (p : Params) (s : Engine p), k ≤ 4 → Quiet s → memoryWf s.mem = true →
    dataAddressFault p.memBytes (readReg s.x base + literalWord p.xlen off) = none → ∃ t : Engine p,
    feed (.sw v base off :: (List.replicate k .empty ++ .lw d base off :: fourEmpties)) s.pack = .next t.pack ∧
    t.x = writeReg s.x d (readReg s.x v) ∧
    t.mem = writeCell s.mem (readReg s.x base + literalWord p.xlen off).toNat (readReg s.x v)

/-! ### Faults and stopping (spec/60_exceptions.md) -/

/-- R58: a fetch is attempted only in the program range, a misaligned pc there faults, a pc outside is no error and
makes Fetch produce Empty, and a fetch is never out of memory. -/
def Obligations.FetchIsAttemptedOnlyInTheProgram : Prop :=
  ∀ (p : Params) (s : Engine p), running s = true → s.stall = false →
    (inProgram p s.pc = false → fetchRequest s = .ok none ∧
      (∀ u, step s.pack ≠ .fault (.fetchMisaligned u) ∧ step s.pack ≠ .fault (.illegalInstruction u)) ∧
      ∀ t : Engine p, step s.pack = .next t.pack → t.l0 = Latch.bubble ∧ t.fetched = s.fetched ∧
        (targetOf p.xlen s.l0.instr = none → t.pc = s.pc)) ∧
    (inProgram p s.pc = true → s.pc.toNat % 4 ≠ 0 →
      step s.pack = .fault (.fetchMisaligned (Engine.pack { s with fault := true, faultCause := 2#3 }))) ∧
    (inProgram p s.pc = true → p.wf → s.pc.toNat < p.memBytes)

/-- A word in the program that is no instruction faults when it is fetched.  That a cell of more than 32 bits with a
bit set above bit 31 is such a word is the model's choice (log entry 13). -/
def Obligations.IllegalWordFaultsWhenFetched : Prop :=
  ∀ (p : Params) (s : Engine p) e, running s = true → s.stall = false → inProgram p s.pc = true →
    s.pc.toNat % 4 = 0 → p.wf → decodeCell (readCell p.xlen s.mem s.pc.toNat) = .error e →
    step s.pack = .fault (.illegalInstruction (Engine.pack { s with fault := true, faultCause := 1#3 }))

/-- R57: the two data faults of a record entering Memory, when the fetch of the same cycle does not fault. -/
def Obligations.DataAccessFaults : Prop :=
  ∀ (p : Params) (s : Engine p) f addr, Sound s → running s = true → fetchRequest s = .ok f →
    accessAddress (enteringMemory s) = some addr →
    (addr.toNat % 4 ≠ 0 →
      step s.pack = .fault (.dataMisaligned (Engine.pack { s with fault := true, faultCause := 3#3 }))) ∧
    (addr.toNat % 4 = 0 → p.memBytes ≤ addr.toNat →
      step s.pack = .fault (.dataOutOfRange (Engine.pack { s with fault := true, faultCause := 4#3 })))

/-- R233: only Fetch and Memory can fault, Fetch's cause comes first, and without a fault the cycle commits. -/
def Obligations.StepOutcomeExactly : Prop :=
  ∀ (p : Params) (s : Engine p), Sound s → running s = true →
    (∀ c, fetchRequest s = .error c → step s.pack = takeFault c s ∧
      (s.pc.toNat % 4 ≠ 0 → c = .fetchMisaligned) ∧ (s.pc.toNat % 4 = 0 → c = .illegalInstruction)) ∧
    (∀ f, fetchRequest s = .ok f →
      (∀ c, accessFault s = some c → step s.pack = takeFault c s ∧
        (∀ addr, accessAddress (enteringMemory s) = some addr → addr.toNat % 4 ≠ 0 → c = .dataMisaligned) ∧
        (∀ addr, accessAddress (enteringMemory s) = some addr → addr.toNat % 4 = 0 → c = .dataOutOfRange)) ∧
      (accessFault s = none → ∃ t : Engine p, step s.pack = .next t.pack))

/-- Every meaning answers a next state exactly when the engine runs and the record entering Memory makes no faulting
access. -/
def Obligations.MeaningCompletesExactly : Prop :=
  ∀ (p : Params) (i : Instr) (s : Engine p), Sound s →
      ((∃ t : Engine p, exec i s.pack = .next t.pack) ↔ running s = true ∧ accessFault s = none)

/-- A step that faults commits nothing: the state it stops in is the state before it, but for the fault record where
the engine was running.  That a stopped engine's step is itself a fault, from which the same holds, is the form of log
entry 6, a design choice of the model. -/
def Obligations.FaultingCycleCommitsNothing : Prop :=
  ∀ (p : Params) (s : Engine p) f, step s.pack = .fault f →
    step (stoppedState f) = .fault (.engineStopped (stoppedState f)) ∧
    ((running s = false ∧ stoppedState f = s.pack) ∨
    (running s = true ∧ ∃ c, stoppedState f = Engine.pack { s with fault := true, faultCause := causeCode c } ∧
      causeCode c ≠ 0#3))

/-- R153, in the model's form (log entry 6): a stopped engine answers no next state, for any instruction. -/
def Obligations.StoppedEngineStandsStill : Prop :=
  ∀ s : State, s.engine.done = true ∨ s.engine.fault = true →
    step s = .fault (.engineStopped s) ∧ ∀ i, exec i s = .fault (.engineStopped s)

/-- R153, R260: with `rst` low a stopped machine keeps every state element; an edge with `rst` high puts every element
at its reset value, whatever the state was.  The pc is CODE_BASE wherever that is an XLEN-bit address; elsewhere it is
the model's choice (`CodeBaseAtTheEndOfTheAddresses`, log entry 15). -/
def Obligations.OnlyResetLeavesAStoppedState : Prop :=
  ∀ (p q : Params) (s : Engine p) (x : Regs q.xlen) (m : Memory),
    (s.done = true ∨ s.fault = true → clockEdge false q x m s.pack = s.pack) ∧
    (∀ c, step s.pack = takeFault c s →
      clockEdge false q x m s.pack = Engine.pack { s with fault := true, faultCause := causeCode c } ∧
      clockEdge false q x m (clockEdge false q x m s.pack) = clockEdge false q x m s.pack) ∧
    ∃ pc : Word q.xlen, (q.codeBase < 2 ^ q.xlen → pc.toNat = q.codeBase) ∧
    clockEdge true q x m s.pack = Engine.pack (p := q)
      { x := x, pc := pc, mem := m,
        l0 := Latch.bubble, l1 := Latch.bubble, l2 := Latch.bubble, l3 := Latch.bubble, l4 := Latch.bubble,
        hq := [], stall := false, cycle := 0#q.ctrW, fetched := 0#q.ctrW, done := false, fault := false,
        faultCause := 0#3 }

/-! ### Reset and load (spec/70_reset_and_hazards.md) -/

/-- R40, at the default parameters and with no program loaded. -/
def Obligations.ResetValues : Prop :=
  State.reset = Engine.reset.pack ∧
  (∀ r, readReg Engine.reset.x r = 0#32) ∧ Engine.reset.pc = 0x1000#32 ∧ (∀ a, readByte Engine.reset.mem a = 0#8) ∧
  Engine.reset.l0 = Latch.bubble ∧ Engine.reset.l1 = Latch.bubble ∧ Engine.reset.l2 = Latch.bubble ∧
  Engine.reset.l3 = Latch.bubble ∧ Engine.reset.l4 = Latch.bubble ∧ Engine.reset.hq = [] ∧
  Engine.reset.stall = false ∧ Engine.reset.cycle = 0#64 ∧ Engine.reset.fetched = 0#64 ∧ Engine.reset.done = false ∧
  Engine.reset.fault = false ∧ Engine.reset.faultCause = 0#3

/-- The reset table after a load: the program words stand in order from CODE_BASE on, every other byte is MEM_INIT's,
the registers are REG_INIT and the pc is CODE_BASE.  Two parts of it are the model's choice and no rule of the spec: at
an XLEN over 32 a program word stands in bits 31:0 of its cell with zeros above (log entry 13), and memory is a list of
bytes in which a cell has the positions `cellBase` gives (log entry 3).  The one accepted CODE_BASE that is no XLEN-bit
address is the model's choice too and has a statement of its own (`CodeBaseAtTheEndOfTheAddresses`, log entry 15). -/
def Obligations.LoadedStateIsTheResetTable : Prop :=
  ∀ (cfg : Params) program regInit memInit s, loadWords cfg program regInit memInit = .ok s →
    ∃ e : Engine { cfg with progLen := program.length }, s = e.pack ∧
    e.x = regInit ∧ (cfg.codeBase < 2 ^ cfg.xlen → e.pc.toNat = cfg.codeBase) ∧
    (∀ k w, program[k]? = some w → readCell cfg.xlen e.mem (cfg.codeBase + 4 * k) = w.setWidth cfg.xlen) ∧
    (∀ a, a < cellBase cfg.xlen cfg.codeBase ∨ cellBase cfg.xlen (cfg.codeBase + 4 * program.length) ≤ a →
      readByte e.mem a = readByte memInit a) ∧
    e.l0 = Latch.bubble ∧ e.l1 = Latch.bubble ∧ e.l2 = Latch.bubble ∧ e.l3 = Latch.bubble ∧ e.l4 = Latch.bubble ∧
    e.hq = [] ∧ e.stall = false ∧ e.cycle = 0#cfg.ctrW ∧ e.fetched = 0#cfg.ctrW ∧ e.done = false ∧ e.fault = false ∧
    e.faultCause = 0#3

/-- The model's choice (log entry 15), no rule of the spec: of the values of CODE_BASE that are no XLEN-bit address a
load accepts 2^XLEN alone, with MEM_BYTES = 2^XLEN and an empty program; the pc starts at 0, and the run ends after one
cycle with nothing changed but the cycle counter.  An edge with `rst` high takes CODE_BASE modulo 2^XLEN as well. -/
def Obligations.CodeBaseAtTheEndOfTheAddresses : Prop :=
  (∀ (cfg : Params) program regInit memInit s, loadWords cfg program regInit memInit = .ok s →
    2 ^ cfg.xlen ≤ cfg.codeBase →
    cfg.codeBase = 2 ^ cfg.xlen ∧ cfg.memBytes = 2 ^ cfg.xlen ∧ program = [] ∧
    ∃ e : Engine { cfg with progLen := program.length }, s = e.pack ∧ e.pc.toNat = 0 ∧ e.mem = memInit ∧
      step s = .next (Engine.pack { e with cycle := 1#cfg.ctrW, done := true })) ∧
  ∀ (q : Params) (x : Regs q.xlen) (m : Memory) (s : State), ∃ e : Engine q,
    clockEdge true q x m s = e.pack ∧ e.pc.toNat = q.codeBase % 2 ^ q.xlen

/-- An empty program ends after cycle 1 with nothing changed but the cycle counter. -/
def Obligations.EmptyProgramEndsAfterOneCycle : Prop :=
  step State.reset = .next (Engine.pack { Engine.reset with cycle := 1#64, done := true })

/-! ### Invariants -/

/-- The invariant holds at reset. -/
def Obligations.InvariantHoldsAtReset : Prop := Sound State.reset.engine

/-- The invariant holds after every accepted load. -/
def Obligations.InvariantHoldsAfterLoad : Prop :=
  ∀ (cfg : Params) program regInit memInit s, loadWords cfg program regInit memInit = .ok s → Sound s.engine

/-- Every step keeps the invariant. -/
def Obligations.EveryStepKeepsTheInvariant : Prop :=
  ∀ (p : Params) (s t : Engine p), Sound s → step s.pack = .next t.pack → Sound t

/-- Cause 5 is unreachable: no step from a state with the invariant is a contract violation. -/
def Obligations.NoContractViolation : Prop := ∀ (p : Params) (s : Engine p), Sound s → safeOutcome (step s.pack)

/-- Once the pc has left the program and no Jump is to be decoded, the run ends within eight cycles. -/
def Obligations.RunEndsAfterTheProgram : Prop :=
  ∀ (p : Params) (s : Engine p), Sound s → inProgram p s.pc = false → targetOf p.xlen s.l0.instr = none →
      targetOf p.xlen s.l1.instr = none →
    ∀ t, run 8 s.pack ≠ .unfinished t

/-! ### The sequential reference (R263) and the hazard-free programs (R270) -/

/-- On instructions each followed by four Empty words, which is hazard-free padding (R269, R270), the pipeline and the
sequential readings agree on registers and memory, whatever the instructions. -/
def Obligations.PaddedPipelineMatchesSequentialReference : Prop :=
  ∀ (p : Params) (is : List Instr) (s : Engine p), Quiet s → (∀ i ∈ is, i ≠ .empty) →
    (∀ t', seqFeed p.memBytes is (seqOf s) = .ok t' →
      ∃ t : Engine p, feed (padded is) s.pack = .next t.pack ∧ Quiet t ∧ t.x = t'.x ∧ t.mem = t'.mem) ∧
    (∀ c, seqFeed p.memBytes is (seqOf s) = .error c →
      ∃ u : Engine p, feed (padded is) s.pack = takeFault c u)

/-- The sequential reference over a program in memory, one instruction at a time: where four Empty words stand behind
an instruction (three at the target, behind a Jump), both in the memory it finds and in the one it leaves, the
pipeline's five cycles from a quiet state end in the very pc, registers and memory the reference has after its turns.
-/
def Obligations.FiveCyclesAreTheSequentialTurns : Prop :=
  ∀ (p : Params) (s : Engine p) (i : Instr) (turns : Nat) (t' : SeqState p.xlen), Quiet s → i ≠ .empty →
    fetchWord p s.mem s.pc = .ok (some i) →
    turns = (if kindOf i = .jump then 4 else 5) →
    (kindOf i = .jump → ∃ f, fetchWord p s.mem (s.pc + 4#p.xlen) = .ok f) →
    (∀ k u, 1 ≤ k → k < turns → seqRun p k (seqOf s) = .unfinished u →
      fetchWord p u.mem u.pc = .ok (some .empty) ∧ fetchWord p s.mem u.pc = .ok (some .empty)) →
    seqRun p turns (seqOf s) = .unfinished t' →
    ∃ t : Engine p, stateAfter 5 s.pack = some t.pack ∧ Quiet t ∧ seqOf t = t'

/-- R270 as it is worded: under its conditions (a) to (d) along the run, a program on which the sequential reference
ends without a fault ends in the pipeline with the same registers and memory.  It fails: `add r6,r0,3`, `lw r7,0(r2)`,
`add r8,r7,r6` meets (a) to (d), and by the order of R182 the last record's pass ends at `r7`, so `r6` is never
forwarded (log entry 14). -/
def Obligations.HazardFreeProgramsMatchSequentialAsWorded : Prop :=
  ∀ (cfg : Params) program regInit memInit s n t', loadWords cfg program regInit memInit = .ok s →
    seqRun s.params n (seqOf s.engine) = .finished t' →
    neverAlong hazardOfR270 s →
    ∃ m, ∃ e : Engine s.params, run m s = .done e.pack ∧ e.x = t'.x ∧ e.mem = t'.mem

/-- R270 with the two conditions its words leave out (`lostForward` and `shadowFault`, log entry 14): under all six
along the run, a program on which the sequential reference ends without a fault ends in the pipeline with the same
registers and memory. -/
def Obligations.HazardFreeProgramsMatchSequential : Prop :=
  ∀ (cfg : Params) program regInit memInit s n t', loadWords cfg program regInit memInit = .ok s →
    seqRun s.params n (seqOf s.engine) = .finished t' →
    neverAlong hazardOfR270 s → neverAlong lostForward s → neverAlong shadowFault s →
    ∃ m, ∃ e : Engine s.params, run m s = .done e.pack ∧ e.x = t'.x ∧ e.mem = t'.mem
end

