-- ==== Sys2Proof/Laws/Decode.lean ====
section
/-! SUPPORT. The fields of an encoded word, and a word put together from its fields. -/

namespace Sys2Proof

/-- The fields of a format R word (R75). -/
theorem encodeR_fields (op : BitVec 6) (ra rb rc : RegId) :
    opcodeField (encodeR op ra rb rc) = op ∧ raField (encodeR op ra rb rc) = ra ∧
      rbField (encodeR op ra rb rc) = rb ∧ rcField (encodeR op ra rb rc) = rc ∧
      lowField (encodeR op ra rb rc) = 0#11 := by
  refine ⟨?_, ?_, ?_, ?_, ?_⟩ <;>
  · simp only [opcodeField, raField, rbField, rcField, lowField, encodeR]
    apply BitVec.eq_of_getLsbD_eq
    intro i hi
    simp only [BitVec.getLsbD_append, BitVec.getLsbD_extractLsb', hi, decide_true, Bool.true_and]
    split_ifs <;> first | omega | (congr 1; omega)

/-- The fields of a format I word (R75). -/
theorem encodeI_fields (op : BitVec 6) (ra rb : RegId) (imm : Int) :
    opcodeField (encodeI op ra rb imm) = op ∧ raField (encodeI op ra rb imm) = ra ∧
      rbField (encodeI op ra rb imm) = rb ∧ (encodeI op ra rb imm).extractLsb' 0 16 = BitVec.ofInt 16 imm := by
  refine ⟨?_, ?_, ?_, ?_⟩ <;>
  · simp only [opcodeField, raField, rbField, encodeI]
    apply BitVec.eq_of_getLsbD_eq
    intro i hi
    simp only [BitVec.getLsbD_append, BitVec.getLsbD_extractLsb', hi, decide_true, Bool.true_and]
    split_ifs <;> first | omega | (congr 1; omega)

/-- The fields of a format J word (R75). -/
theorem encodeJ_fields (op : BitVec 6) (target : Int) :
    opcodeField (encodeJ op target) = op ∧ (encodeJ op target).extractLsb' 0 26 = BitVec.ofInt 26 target := by
  constructor <;>
  · simp only [opcodeField, encodeJ]
    apply BitVec.eq_of_getLsbD_eq
    intro i hi
    simp only [BitVec.getLsbD_append, BitVec.getLsbD_extractLsb', hi, decide_true, Bool.true_and]
    split_ifs <;> first | omega | (congr 1; omega)

/-- A word with bits 10:0 zero is the format R word of its fields (R75). -/
theorem word_eq_encodeR {w : InstrWord} (h : lowField w = 0#11) :
    w = encodeR (opcodeField w) (raField w) (rbField w) (rcField w) := by
  have low : ∀ i, i < 11 → w.getLsbD i = false := fun i hi => by
    have := congrArg (fun v => v.getLsbD i) h
    simpa [lowField, hi] using this
  simp only [opcodeField, raField, rbField, rcField, encodeR]
  apply BitVec.eq_of_getLsbD_eq
  intro i hi
  simp only [BitVec.getLsbD_append, BitVec.getLsbD_extractLsb']
  by_cases h0 : i < 11
  · simp [h0, low i h0]
  · by_cases h1 : i - 11 < 5
    · simp [h0, h1, show 11 + (i - 11) = i by omega]
    · by_cases h2 : i - 11 - 5 < 5
      · simp [h0, h1, h2, show 16 + (i - 11 - 5) = i by omega]
      · by_cases h3 : i - 11 - 5 - 5 < 5
        · simp [h0, h1, h2, h3, show 21 + (i - 11 - 5 - 5) = i by omega]
        · simp [h0, h1, h2, h3, show i - 11 - 5 - 5 - 5 < 6 by omega, show 26 + (i - 11 - 5 - 5 - 5) = i by omega]

/-- The low 16 bits of a word, from the immediate read off it (R77). -/
theorem ofInt_immField (w : InstrWord) : BitVec.ofInt 16 (immField w) = w.extractLsb' 0 16 := by
  unfold immField
  exact BitVec.ofInt_toInt

/-- The low 26 bits of a word, from the target read off it (R77). -/
theorem ofInt_targetField (w : InstrWord) : BitVec.ofInt 26 (targetField w) = w.extractLsb' 0 26 := by
  simp only [targetField, BitVec.ofInt_natCast, BitVec.ofNat_toNat, BitVec.setWidth_eq]

/-- Every word is the format I word of its fields (R75). -/
theorem word_eq_encodeI (w : InstrWord) : w = encodeI (opcodeField w) (raField w) (rbField w) (immField w) := by
  simp only [encodeI, ofInt_immField]
  simp only [opcodeField, raField, rbField]
  apply BitVec.eq_of_getLsbD_eq
  intro i hi
  simp only [BitVec.getLsbD_append, BitVec.getLsbD_extractLsb']
  by_cases h0 : i < 16
  · simp [h0]
  · by_cases h2 : i - 16 < 5
    · simp [h0, h2, show 16 + (i - 16) = i by omega]
    · by_cases h3 : i - 16 - 5 < 5
      · simp [h0, h2, h3, show 21 + (i - 16 - 5) = i by omega]
      · simp [h0, h2, h3, show i - 16 - 5 - 5 < 6 by omega, show 26 + (i - 16 - 5 - 5) = i by omega]

/-- Every word is the format J word of its fields (R75). -/
theorem word_eq_encodeJ (w : InstrWord) : w = encodeJ (opcodeField w) (targetField w) := by
  simp only [encodeJ, ofInt_targetField]
  simp only [opcodeField]
  apply BitVec.eq_of_getLsbD_eq
  intro i hi
  simp only [BitVec.getLsbD_append, BitVec.getLsbD_extractLsb']
  by_cases h0 : i < 26
  · simp [h0]
  · simp [h0, show i - 26 < 6 by omega, show 26 + (i - 26) = i by omega]

/-- The immediate the decoder produces fits its field (R77). -/
theorem fitsImm16_immField (w : InstrWord) : fitsImm16 (immField w) = true := by
  have h1 := BitVec.le_toInt (w.extractLsb' 0 16)
  have h2 := BitVec.toInt_lt (x := w.extractLsb' 0 16)
  rw [fitsImm16, Bool.and_eq_true, decide_eq_true_eq, decide_eq_true_eq, immField]
  omega

/-- The target the decoder produces fits its field (R77). -/
theorem fitsTarget26_targetField (w : InstrWord) : fitsTarget26 (targetField w) = true := by
  have := (w.extractLsb' 0 26).isLt
  rw [fitsTarget26, Bool.and_eq_true, decide_eq_true_eq, decide_eq_true_eq, targetField]
  omega

/-- An immediate that fits its field is the number its low 16 bits stand for (R77). -/
theorem toInt_ofInt_imm {v : Int} (h : fitsImm16 v = true) : (BitVec.ofInt 16 v).toInt = v := by
  simp only [fitsImm16, Bool.and_eq_true, decide_eq_true_eq] at h
  rw [BitVec.toInt_ofInt, Int.bmod_eq_of_le] <;> omega

/-- A target that fits its field is the number its low 26 bits stand for (R77). -/
theorem toNat_ofInt_target {t : Int} (h : fitsTarget26 t = true) : ((BitVec.ofInt 26 t).toNat : Int) = t := by
  simp only [fitsTarget26, Bool.and_eq_true, decide_eq_true_eq] at h
  rw [BitVec.toNat_ofInt]
  omega

end Sys2Proof
end

