-- ==== Sys2Proof/Laws/State.lean ====
section
/-! SUPPORT. One lemma per field for each named update of the state and of a latch. -/

namespace Sys2Proof.Machine

open Sys2Proof

/-! ### Latches -/

@[simp] theorem fresh_instr {n : Nat} (i : Instr) : (Latch.fresh (n := n) i).instr = i := rfl

@[simp] theorem fresh_resolvedSrc1 {n : Nat} (i : Instr) : (Latch.fresh (n := n) i).resolvedSrc1 = none := rfl

@[simp] theorem fresh_resolvedSrc2 {n : Nat} (i : Instr) : (Latch.fresh (n := n) i).resolvedSrc2 = none := rfl

@[simp] theorem fresh_result {n : Nat} (i : Instr) : (Latch.fresh (n := n) i).result = none := rfl

@[simp] theorem bubble_instr {n : Nat} : (Latch.bubble (n := n)).instr = .empty := rfl

@[simp] theorem bubble_resolvedSrc1 {n : Nat} : (Latch.bubble (n := n)).resolvedSrc1 = none := rfl

@[simp] theorem bubble_resolvedSrc2 {n : Nat} : (Latch.bubble (n := n)).resolvedSrc2 = none := rfl

@[simp] theorem bubble_result {n : Nat} : (Latch.bubble (n := n)).result = none := rfl

/-- A fetched Empty word is the bubble (R29, R131). -/
@[simp] theorem fresh_empty {n : Nat} : (Latch.fresh .empty : Latch n) = Latch.bubble := rfl

/-! ### Steps of the pc and the counters at any width -/

/-- Two numbers added as words are their sum as a word. -/
theorem ofNat_add_ofNat (n a b : Nat) : BitVec.ofNat n a + BitVec.ofNat n b = BitVec.ofNat n (a + b) :=
  (BitVec.ofNat_add a b).symm

/-! ### Registers -/

/-- A register just written reads as the value, register 0 too (R21). -/
@[simp] theorem readReg_writeReg_same {n : Nat} (x : Regs n) (r : RegId) (v : Word n) :
    readReg (writeReg x r v) r = v := by
  simp [readReg, writeReg]

/-- A write leaves every other register alone. -/
theorem readReg_writeReg_ne {n : Nat} (x : Regs n) {r d : RegId} (v : Word n) (h : r ≠ d) :
    readReg (writeReg x d v) r = readReg x r := by
  have : d.toNat ≠ r.toNat := fun e => h (BitVec.eq_of_toNat_eq e.symm)
  simp [readReg, writeReg, this]

/-! ### Fault entry -/

@[simp] theorem recordFault_x {p : Params} (c : FaultCause) (s : Engine p) : (recordFault c s).x = s.x := rfl

@[simp] theorem recordFault_pc {p : Params} (c : FaultCause) (s : Engine p) : (recordFault c s).pc = s.pc := rfl

@[simp] theorem recordFault_mem {p : Params} (c : FaultCause) (s : Engine p) : (recordFault c s).mem = s.mem := rfl

@[simp] theorem recordFault_l0 {p : Params} (c : FaultCause) (s : Engine p) : (recordFault c s).l0 = s.l0 := rfl

@[simp] theorem recordFault_l1 {p : Params} (c : FaultCause) (s : Engine p) : (recordFault c s).l1 = s.l1 := rfl

@[simp] theorem recordFault_l2 {p : Params} (c : FaultCause) (s : Engine p) : (recordFault c s).l2 = s.l2 := rfl

@[simp] theorem recordFault_l3 {p : Params} (c : FaultCause) (s : Engine p) : (recordFault c s).l3 = s.l3 := rfl

@[simp] theorem recordFault_l4 {p : Params} (c : FaultCause) (s : Engine p) : (recordFault c s).l4 = s.l4 := rfl

@[simp] theorem recordFault_hq {p : Params} (c : FaultCause) (s : Engine p) : (recordFault c s).hq = s.hq := rfl

@[simp] theorem recordFault_stall {p : Params} (c : FaultCause) (s : Engine p) :
    (recordFault c s).stall = s.stall := rfl

@[simp] theorem recordFault_cycle {p : Params} (c : FaultCause) (s : Engine p) :
    (recordFault c s).cycle = s.cycle := rfl

@[simp] theorem recordFault_fetched {p : Params} (c : FaultCause) (s : Engine p) :
    (recordFault c s).fetched = s.fetched := rfl

@[simp] theorem recordFault_done {p : Params} (c : FaultCause) (s : Engine p) : (recordFault c s).done = s.done := rfl

@[simp] theorem recordFault_fault {p : Params} (c : FaultCause) (s : Engine p) : (recordFault c s).fault = true := rfl

@[simp] theorem recordFault_faultCause {p : Params} (c : FaultCause) (s : Engine p) :
    (recordFault c s).faultCause = causeCode c := rfl

/-! ### The Decode effect of a Jump -/

@[simp] theorem jumpEffect_x {p : Params} (t : Word p.xlen) (s : Engine p) : (jumpEffect t s).x = s.x := rfl

@[simp] theorem jumpEffect_pc {p : Params} (t : Word p.xlen) (s : Engine p) : (jumpEffect t s).pc = t := rfl

@[simp] theorem jumpEffect_mem {p : Params} (t : Word p.xlen) (s : Engine p) : (jumpEffect t s).mem = s.mem := rfl

@[simp] theorem jumpEffect_l0 {p : Params} (t : Word p.xlen) (s : Engine p) :
    (jumpEffect t s).l0 = Latch.bubble := rfl

@[simp] theorem jumpEffect_l1 {p : Params} (t : Word p.xlen) (s : Engine p) : (jumpEffect t s).l1 = s.l1 := rfl

@[simp] theorem jumpEffect_l2 {p : Params} (t : Word p.xlen) (s : Engine p) : (jumpEffect t s).l2 = s.l2 := rfl

@[simp] theorem jumpEffect_l3 {p : Params} (t : Word p.xlen) (s : Engine p) : (jumpEffect t s).l3 = s.l3 := rfl

@[simp] theorem jumpEffect_l4 {p : Params} (t : Word p.xlen) (s : Engine p) : (jumpEffect t s).l4 = s.l4 := rfl

@[simp] theorem jumpEffect_hq {p : Params} (t : Word p.xlen) (s : Engine p) : (jumpEffect t s).hq = s.hq := rfl

@[simp] theorem jumpEffect_stall {p : Params} (t : Word p.xlen) (s : Engine p) :
    (jumpEffect t s).stall = s.stall := rfl

@[simp] theorem jumpEffect_cycle {p : Params} (t : Word p.xlen) (s : Engine p) :
    (jumpEffect t s).cycle = s.cycle := rfl

@[simp] theorem jumpEffect_fetched {p : Params} (t : Word p.xlen) (s : Engine p) :
    (jumpEffect t s).fetched = s.fetched := rfl

@[simp] theorem jumpEffect_done {p : Params} (t : Word p.xlen) (s : Engine p) : (jumpEffect t s).done = s.done := rfl

@[simp] theorem jumpEffect_fault {p : Params} (t : Word p.xlen) (s : Engine p) :
    (jumpEffect t s).fault = s.fault := rfl

@[simp] theorem jumpEffect_faultCause {p : Params} (t : Word p.xlen) (s : Engine p) :
    (jumpEffect t s).faultCause = s.faultCause := rfl

/-! ### Termination and the cycle counter -/

@[simp] theorem closeCycle_x {p : Params} (s : Engine p) : (closeCycle s).x = s.x := rfl

@[simp] theorem closeCycle_pc {p : Params} (s : Engine p) : (closeCycle s).pc = s.pc := rfl

@[simp] theorem closeCycle_mem {p : Params} (s : Engine p) : (closeCycle s).mem = s.mem := rfl

@[simp] theorem closeCycle_l0 {p : Params} (s : Engine p) : (closeCycle s).l0 = s.l0 := rfl

@[simp] theorem closeCycle_l1 {p : Params} (s : Engine p) : (closeCycle s).l1 = s.l1 := rfl

@[simp] theorem closeCycle_l2 {p : Params} (s : Engine p) : (closeCycle s).l2 = s.l2 := rfl

@[simp] theorem closeCycle_l3 {p : Params} (s : Engine p) : (closeCycle s).l3 = s.l3 := rfl

@[simp] theorem closeCycle_l4 {p : Params} (s : Engine p) : (closeCycle s).l4 = s.l4 := rfl

@[simp] theorem closeCycle_hq {p : Params} (s : Engine p) : (closeCycle s).hq = s.hq := rfl

@[simp] theorem closeCycle_stall {p : Params} (s : Engine p) : (closeCycle s).stall = s.stall := rfl

@[simp] theorem closeCycle_cycle {p : Params} (s : Engine p) : (closeCycle s).cycle = s.cycle + 1#p.ctrW := rfl

@[simp] theorem closeCycle_fetched {p : Params} (s : Engine p) : (closeCycle s).fetched = s.fetched := rfl

@[simp] theorem closeCycle_done {p : Params} (s : Engine p) : (closeCycle s).done = allEmpty s := rfl

@[simp] theorem closeCycle_fault {p : Params} (s : Engine p) : (closeCycle s).fault = s.fault := rfl

@[simp] theorem closeCycle_faultCause {p : Params} (s : Engine p) : (closeCycle s).faultCause = s.faultCause := rfl

/-! ### Reset -/

@[simp] theorem atReset_x (p : Params) (x : Regs p.xlen) (m : Memory) : (Engine.atReset p x m).x = x := rfl

@[simp] theorem atReset_pc (p : Params) (x : Regs p.xlen) (m : Memory) :
    (Engine.atReset p x m).pc = BitVec.ofNat p.xlen p.codeBase := rfl

@[simp] theorem atReset_mem (p : Params) (x : Regs p.xlen) (m : Memory) : (Engine.atReset p x m).mem = m := rfl

@[simp] theorem atReset_l0 (p : Params) (x : Regs p.xlen) (m : Memory) :
    (Engine.atReset p x m).l0 = Latch.bubble := rfl

@[simp] theorem atReset_l1 (p : Params) (x : Regs p.xlen) (m : Memory) :
    (Engine.atReset p x m).l1 = Latch.bubble := rfl

@[simp] theorem atReset_l2 (p : Params) (x : Regs p.xlen) (m : Memory) :
    (Engine.atReset p x m).l2 = Latch.bubble := rfl

@[simp] theorem atReset_l3 (p : Params) (x : Regs p.xlen) (m : Memory) :
    (Engine.atReset p x m).l3 = Latch.bubble := rfl

@[simp] theorem atReset_l4 (p : Params) (x : Regs p.xlen) (m : Memory) :
    (Engine.atReset p x m).l4 = Latch.bubble := rfl

@[simp] theorem atReset_hq (p : Params) (x : Regs p.xlen) (m : Memory) : (Engine.atReset p x m).hq = [] := rfl

@[simp] theorem atReset_stall (p : Params) (x : Regs p.xlen) (m : Memory) :
    (Engine.atReset p x m).stall = false := rfl

@[simp] theorem atReset_cycle (p : Params) (x : Regs p.xlen) (m : Memory) :
    (Engine.atReset p x m).cycle = 0#p.ctrW := rfl

@[simp] theorem atReset_fetched (p : Params) (x : Regs p.xlen) (m : Memory) :
    (Engine.atReset p x m).fetched = 0#p.ctrW := rfl

@[simp] theorem atReset_done (p : Params) (x : Regs p.xlen) (m : Memory) : (Engine.atReset p x m).done = false := rfl

@[simp] theorem atReset_fault (p : Params) (x : Regs p.xlen) (m : Memory) :
    (Engine.atReset p x m).fault = false := rfl

@[simp] theorem atReset_faultCause (p : Params) (x : Regs p.xlen) (m : Memory) :
    (Engine.atReset p x m).faultCause = 0#3 := rfl

end Sys2Proof.Machine
end

