-- ==== Sys2Proof/Laws/Records.lean ====
section
/-! SUPPORT. The fields and micro-op flags of each record (R28, R71), one lemma per constructor, so that no proof
unfolds an accessor. -/

namespace Sys2Proof.Machine

open Sys2Proof

@[simp] theorem record_empty :
    kindOf .empty = .empty ∧ opOf .empty = none ∧ destOf .empty = none ∧ src1Of .empty = none ∧
    src2Of .empty = none ∧ immLiteral .empty = none ∧ targetLiteral .empty = none ∧ readsRegisters .empty = false ∧
    writesRegister .empty = false ∧ readsMemory .empty = false ∧ writesMemory .empty = false ∧
    usesAlu .empty = false ∧ isEmpty .empty = true := by
  refine ⟨rfl, rfl, rfl, rfl, rfl, rfl, rfl, rfl, rfl, rfl, rfl, rfl, rfl⟩

@[simp] theorem record_add (d a b : RegId) :
    kindOf (.add d a b) = .arithmetic ∧ opOf (.add d a b) = some .add ∧ destOf (.add d a b) = some d ∧
    src1Of (.add d a b) = some a ∧ src2Of (.add d a b) = some b ∧ immLiteral (.add d a b) = none ∧
    targetLiteral (.add d a b) = none ∧ readsRegisters (.add d a b) = true ∧ writesRegister (.add d a b) = true ∧
    readsMemory (.add d a b) = false ∧ writesMemory (.add d a b) = false ∧ usesAlu (.add d a b) = true ∧
    isEmpty (.add d a b) = false := by
  refine ⟨rfl, rfl, rfl, rfl, rfl, rfl, rfl, rfl, rfl, rfl, rfl, rfl, rfl⟩

@[simp] theorem record_sub (d a b : RegId) :
    kindOf (.sub d a b) = .arithmetic ∧ opOf (.sub d a b) = some .sub ∧ destOf (.sub d a b) = some d ∧
    src1Of (.sub d a b) = some a ∧ src2Of (.sub d a b) = some b ∧ immLiteral (.sub d a b) = none ∧
    targetLiteral (.sub d a b) = none ∧ readsRegisters (.sub d a b) = true ∧ writesRegister (.sub d a b) = true ∧
    readsMemory (.sub d a b) = false ∧ writesMemory (.sub d a b) = false ∧ usesAlu (.sub d a b) = true ∧
    isEmpty (.sub d a b) = false := by
  refine ⟨rfl, rfl, rfl, rfl, rfl, rfl, rfl, rfl, rfl, rfl, rfl, rfl, rfl⟩

@[simp] theorem record_mult (d a b : RegId) :
    kindOf (.mult d a b) = .arithmetic ∧ opOf (.mult d a b) = some .mult ∧ destOf (.mult d a b) = some d ∧
    src1Of (.mult d a b) = some a ∧ src2Of (.mult d a b) = some b ∧ immLiteral (.mult d a b) = none ∧
    targetLiteral (.mult d a b) = none ∧ readsRegisters (.mult d a b) = true ∧ writesRegister (.mult d a b) = true ∧
    readsMemory (.mult d a b) = false ∧ writesMemory (.mult d a b) = false ∧ usesAlu (.mult d a b) = true ∧
    isEmpty (.mult d a b) = false := by
  refine ⟨rfl, rfl, rfl, rfl, rfl, rfl, rfl, rfl, rfl, rfl, rfl, rfl, rfl⟩

@[simp] theorem record_addImm (d a : RegId) (v : Int) :
    kindOf (.addImm d a v) = .arithmetic ∧ opOf (.addImm d a v) = some .add ∧ destOf (.addImm d a v) = some d ∧
    src1Of (.addImm d a v) = some a ∧ src2Of (.addImm d a v) = none ∧ immLiteral (.addImm d a v) = some v ∧
    targetLiteral (.addImm d a v) = none ∧ readsRegisters (.addImm d a v) = true ∧
    writesRegister (.addImm d a v) = true ∧ readsMemory (.addImm d a v) = false ∧
    writesMemory (.addImm d a v) = false ∧ usesAlu (.addImm d a v) = true ∧ isEmpty (.addImm d a v) = false := by
  refine ⟨rfl, rfl, rfl, rfl, rfl, rfl, rfl, rfl, rfl, rfl, rfl, rfl, rfl⟩

@[simp] theorem record_subImm (d a : RegId) (v : Int) :
    kindOf (.subImm d a v) = .arithmetic ∧ opOf (.subImm d a v) = some .sub ∧ destOf (.subImm d a v) = some d ∧
    src1Of (.subImm d a v) = some a ∧ src2Of (.subImm d a v) = none ∧ immLiteral (.subImm d a v) = some v ∧
    targetLiteral (.subImm d a v) = none ∧ readsRegisters (.subImm d a v) = true ∧
    writesRegister (.subImm d a v) = true ∧ readsMemory (.subImm d a v) = false ∧
    writesMemory (.subImm d a v) = false ∧ usesAlu (.subImm d a v) = true ∧ isEmpty (.subImm d a v) = false := by
  refine ⟨rfl, rfl, rfl, rfl, rfl, rfl, rfl, rfl, rfl, rfl, rfl, rfl, rfl⟩

@[simp] theorem record_multImm (d a : RegId) (v : Int) :
    kindOf (.multImm d a v) = .arithmetic ∧ opOf (.multImm d a v) = some .mult ∧
    destOf (.multImm d a v) = some d ∧ src1Of (.multImm d a v) = some a ∧ src2Of (.multImm d a v) = none ∧
    immLiteral (.multImm d a v) = some v ∧ targetLiteral (.multImm d a v) = none ∧
    readsRegisters (.multImm d a v) = true ∧ writesRegister (.multImm d a v) = true ∧
    readsMemory (.multImm d a v) = false ∧ writesMemory (.multImm d a v) = false ∧
    usesAlu (.multImm d a v) = true ∧ isEmpty (.multImm d a v) = false := by
  refine ⟨rfl, rfl, rfl, rfl, rfl, rfl, rfl, rfl, rfl, rfl, rfl, rfl, rfl⟩

@[simp] theorem record_lw (d b : RegId) (v : Int) :
    kindOf (.lw d b v) = .load ∧ opOf (.lw d b v) = none ∧ destOf (.lw d b v) = some d ∧
    src1Of (.lw d b v) = some b ∧ src2Of (.lw d b v) = none ∧ immLiteral (.lw d b v) = some v ∧
    targetLiteral (.lw d b v) = none ∧ readsRegisters (.lw d b v) = true ∧ writesRegister (.lw d b v) = true ∧
    readsMemory (.lw d b v) = true ∧ writesMemory (.lw d b v) = false ∧ usesAlu (.lw d b v) = true ∧
    isEmpty (.lw d b v) = false := by
  refine ⟨rfl, rfl, rfl, rfl, rfl, rfl, rfl, rfl, rfl, rfl, rfl, rfl, rfl⟩

@[simp] theorem record_sw (r b : RegId) (v : Int) :
    kindOf (.sw r b v) = .store ∧ opOf (.sw r b v) = none ∧ destOf (.sw r b v) = none ∧
    src1Of (.sw r b v) = some r ∧ src2Of (.sw r b v) = some b ∧ immLiteral (.sw r b v) = some v ∧
    targetLiteral (.sw r b v) = none ∧ readsRegisters (.sw r b v) = true ∧ writesRegister (.sw r b v) = false ∧
    readsMemory (.sw r b v) = false ∧ writesMemory (.sw r b v) = true ∧ usesAlu (.sw r b v) = true ∧
    isEmpty (.sw r b v) = false := by
  refine ⟨rfl, rfl, rfl, rfl, rfl, rfl, rfl, rfl, rfl, rfl, rfl, rfl, rfl⟩

@[simp] theorem record_j (t : Int) :
    kindOf (.j t) = .jump ∧ opOf (.j t) = none ∧ destOf (.j t) = none ∧ src1Of (.j t) = none ∧
    src2Of (.j t) = none ∧ immLiteral (.j t) = none ∧ targetLiteral (.j t) = some t ∧ readsRegisters (.j t) = false ∧
    writesRegister (.j t) = false ∧ readsMemory (.j t) = false ∧ writesMemory (.j t) = false ∧
    usesAlu (.j t) = false ∧ isEmpty (.j t) = false := by
  refine ⟨rfl, rfl, rfl, rfl, rfl, rfl, rfl, rfl, rfl, rfl, rfl, rfl, rfl⟩

/-! ### The XLEN-bit immediate and target of each record (R10, R77) -/

@[simp] theorem literals_empty (n : Nat) :
    immOf n .empty = none ∧ targetOf n .empty = none := ⟨rfl, rfl⟩

@[simp] theorem literals_add (n : Nat) (d a b : RegId) :
    immOf n (.add d a b) = none ∧ targetOf n (.add d a b) = none := ⟨rfl, rfl⟩

@[simp] theorem literals_sub (n : Nat) (d a b : RegId) :
    immOf n (.sub d a b) = none ∧ targetOf n (.sub d a b) = none := ⟨rfl, rfl⟩

@[simp] theorem literals_mult (n : Nat) (d a b : RegId) :
    immOf n (.mult d a b) = none ∧ targetOf n (.mult d a b) = none := ⟨rfl, rfl⟩

@[simp] theorem literals_addImm (n : Nat) (d a : RegId) (v : Int) :
    immOf n (.addImm d a v) = some (literalWord n v) ∧ targetOf n (.addImm d a v) = none := ⟨rfl, rfl⟩

@[simp] theorem literals_subImm (n : Nat) (d a : RegId) (v : Int) :
    immOf n (.subImm d a v) = some (literalWord n v) ∧ targetOf n (.subImm d a v) = none := ⟨rfl, rfl⟩

@[simp] theorem literals_multImm (n : Nat) (d a : RegId) (v : Int) :
    immOf n (.multImm d a v) = some (literalWord n v) ∧ targetOf n (.multImm d a v) = none := ⟨rfl, rfl⟩

@[simp] theorem literals_lw (n : Nat) (d b : RegId) (v : Int) :
    immOf n (.lw d b v) = some (literalWord n v) ∧ targetOf n (.lw d b v) = none := ⟨rfl, rfl⟩

@[simp] theorem literals_sw (n : Nat) (r b : RegId) (v : Int) :
    immOf n (.sw r b v) = some (literalWord n v) ∧ targetOf n (.sw r b v) = none := ⟨rfl, rfl⟩

@[simp] theorem literals_j (n : Nat) (t : Int) :
    immOf n (.j t) = none ∧ targetOf n (.j t) = some (literalWord n t) := ⟨rfl, rfl⟩

/-- The word of an immediate is its field, sign-extended (R77). -/
theorem literalWord_imm (n : Nat) (imm16 : BitVec 16) : literalWord n imm16.toInt = imm16.signExtend n := rfl

/-- The word of a target is its field, zero-extended (R77). -/
theorem literalWord_target (n : Nat) (target26 : BitVec 26) :
    literalWord n target26.toNat = target26.setWidth n := by
  apply BitVec.eq_of_toNat_eq
  simp [literalWord]

end Sys2Proof.Machine
end

