-- ==== Sys2Proof/Laws/Hazard.lean ====
section
/-! SUPPORT. What the record fields, the hazard queue and the forwarding arbiter can answer. -/

namespace Sys2Proof.Machine

open Sys2Proof

/-! ### Records -/

/-- A record has a destination exactly when it writes a register (R71). -/
theorem destOf_isSome (i : Instr) : (destOf i).isSome = writesRegister i := by cases i <;> rfl

/-- A record without the writes-register flag has no destination (R202). -/
theorem destOf_none_iff (i : Instr) : destOf i = none ↔
    writesRegister i = false := by cases i <;> simp [destOf, writesRegister, kindOf, flagsOf]

/-- A record that uses the ALU is one that reads registers (R71). -/
theorem usesAlu_eq_readsRegisters (i : Instr) : usesAlu i = readsRegisters i := by cases i <;> rfl

/-- Only Empty has kind Empty (R29). -/
theorem isEmpty_iff (i : Instr) : isEmpty i = true ↔ i = .empty := by cases i <;> simp [isEmpty, kindOf]

/-- Only a Jump has a target (R28). -/
theorem targetOf_eq_some {n : Nat} {i : Instr} {t : Word n} :
    targetOf n i = some t ↔ ∃ v, i = .j v ∧ t = literalWord n v := by
  cases i <;> simp [targetOf, targetLiteral, eq_comm]

/-! ### The hazard queue -/

theorem hqAppend_ok {depth : Nat} {q q' : List RegId} {r : RegId} :
    hqAppend depth q r = .ok q' ↔ q.length < depth ∧ q' = q ++ [r] := by
  unfold hqAppend; split <;> simp_all [eq_comm]

theorem hqAppend_error {depth : Nat} {q : List RegId} {r : RegId} {c : FaultCause} (h : hqAppend depth q r = .error c) :
    c = .contractViolation := by
  unfold hqAppend at h; split at h <;> simp_all

theorem hqPop_ok {q q' : List RegId} : hqPop q = .ok q' ↔ ∃ r, q = r :: q' := by
  cases q <;> simp [hqPop, eq_comm]

theorem hqPop_error {q : List RegId} {c : FaultCause} (h : hqPop q = .error c) : c = .contractViolation := by
  cases q <;> simp_all [hqPop]

/-! ### Forwarding -/

theorem candidate_eq_some {n : Nat} {l : Latch n} {r : RegId} {v : Word n} :
    candidate l r = some v ↔ destOf l.instr = some r ∧ l.result = some v := by
  unfold candidate
  have := destOf_isSome l.instr
  split <;> rename_i h
  · simp [h.2]
  · constructor
    · intro e; cases e
    · rintro ⟨h1, -⟩; rw [h1] at this; exact absurd ⟨this.symm, h1⟩ h

/-- The bubble forwards nothing (R202). -/
@[simp] theorem candidate_bubble {n : Nat} (r : RegId) : candidate (n := n) Latch.bubble r = none := rfl

/-- `forward` answers from the Memory latch, or else from the Writeback latch (R202). -/
theorem forward_eq_some {n : Nat} {l3 l4 : Latch n} {r : RegId} {v : Word n} :
    forward l3 l4 r = some v ↔ candidate l3 r = some v ∨ (candidate l3 r = none ∧ candidate l4 r = some v) := by
  unfold forward
  cases candidate l3 r <;> simp

/-- `forward` has nothing exactly when neither candidate has (R202). -/
theorem forward_eq_none {n : Nat} {l3 l4 : Latch n} {r : RegId} :
    forward l3 l4 r = none ↔ candidate l3 r = none ∧ candidate l4 r = none := by
  unfold forward
  cases candidate l3 r <;> simp

@[simp] theorem forward_bubble_left {n : Nat} (l4 : Latch n) (r : RegId) :
    forward Latch.bubble l4 r = candidate l4 r := rfl

/-! ### The source checks of Execute -/

@[simp] theorem checkSource_none {n : Nat} (hq : List RegId) (l3 l4 : Latch n) (slot : Option (Word n)) :
    checkSource hq l3 l4 none slot = .clear slot := rfl

@[simp] theorem checkSource_nil {n : Nat} (l3 l4 : Latch n) (src : Option RegId) (slot : Option (Word n)) :
    checkSource [] l3 l4 src slot = .clear slot := by cases src <;> simp [checkSource]

/-- A check stalls exactly when its register is in the queue and nothing can be forwarded (R204). -/
theorem checkSource_stalled {n : Nat} {hq : List RegId} {l3 l4 : Latch n} {src : Option RegId} {slot :
    Option (Word n)} :
    checkSource hq l3 l4 src slot = .stalled ↔ ∃ r, src = some r ∧ r ∈ hq ∧ forward l3 l4 r = none := by
  cases src with
  | none => simp
  | some r =>
    simp only [checkSource, Option.some.injEq, exists_eq_left']
    by_cases h : r ∈ hq
    · cases forward l3 l4 r <;> simp [h]
    · simp [h]

/-- A clear check keeps the slot or holds the forwarded value (R179). -/
theorem checkSource_clear {n : Nat} {hq : List RegId} {l3 l4 : Latch n} {src : Option RegId} {slot v : Option (Word n)}
    (h : checkSource hq l3 l4 src slot = .clear v) :
    v = slot ∨ ∃ r w, src = some r ∧ r ∈ hq ∧ forward l3 l4 r = some w ∧ v = some w := by
  cases src with
  | none => simp at h; exact .inl h.symm
  | some r =>
    simp only [checkSource] at h
    by_cases hr : r ∈ hq
    · cases hf : forward l3 l4 r with
      | none => simp [hr, hf] at h
      | some w => simp [hr, hf] at h; exact .inr ⟨r, w, rfl, hr, hf, h.symm⟩
    · simp [hr] at h; exact .inl h.symm

/-- A clear check never empties a written slot. -/
theorem checkSource_isSome {n : Nat} {hq : List RegId} {l3 l4 : Latch n} {src : Option RegId} {slot v : Option (Word n)}
    (h : checkSource hq l3 l4 src slot = .clear v) (hs : slot.isSome = true) : v.isSome = true := by
  rcases checkSource_clear h with rfl | ⟨r, w, -, -, -, rfl⟩
  · exact hs
  · rfl

end Sys2Proof.Machine
end

