-- ==== Sys2Proof/Laws/Memory.lean ====
section
/-! SUPPORT. The laws of memory: every operation keeps the canonical form, and what a read gives after a write. -/

namespace Sys2Proof.Machine

open Sys2Proof

/-! ### The canonical form -/

/-- A memory whose listed addresses are all above `a`. -/
def above (a : Nat) (m : Memory) : Prop := ∀ c ∈ m, a < c.1

theorem memoryWf_cons (c : Host.Cell) (m : Memory) :
    memoryWf (c :: m) = true ↔ c.2 ≠ unlistedByte ∧ above c.1 m ∧ memoryWf m = true := by
  induction m generalizing c with
  | nil => simp [memoryWf, above]
  | cons d rest ih =>
    simp only [memoryWf, Bool.and_eq_true, bne_iff_ne, decide_eq_true_eq]
    constructor
    · rintro ⟨⟨h1, h2⟩, h3⟩
      refine ⟨h1, ?_, h3⟩
      intro e he
      rcases List.mem_cons.1 he with rfl | he
      · exact h2
      · exact lt_trans h2 (((ih d).1 h3).2.1 e he)
    · rintro ⟨h1, h2, h3⟩
      exact ⟨⟨h1, h2 d (by simp)⟩, h3⟩

theorem above_writeByte {k a : Nat} {m : Memory} {v : Byte} (h : above k m) (hk : k < a) :
    above k (writeByte m a v) := by
  induction m with
  | nil => unfold writeByte; split <;> simp_all [above]
  | cons c rest ih =>
    have hr : above k rest := fun e he => h e (by simp [he])
    have hc : k < c.1 := h c (by simp)
    unfold writeByte
    split
    · split
      · exact h
      · intro e he; rcases List.mem_cons.1 he with rfl | he
        · exact hk
        · exact h e he
    · split
      · split
        · exact hr
        · intro e he; rcases List.mem_cons.1 he with rfl | he
          · exact hk
          · exact hr e he
      · intro e he; rcases List.mem_cons.1 he with rfl | he
        · exact hc
        · exact ih hr e he

/-- Writing a byte keeps the canonical form. -/
theorem memoryWf_writeByte {m : Memory} (a : Nat) (v : Byte) (h : memoryWf m = true) :
    memoryWf (writeByte m a v) = true := by
  induction m with
  | nil => unfold writeByte; split <;> simp_all [memoryWf]
  | cons c rest ih =>
    obtain ⟨h1, h2, h3⟩ := (memoryWf_cons c rest).1 h
    unfold writeByte
    split
    · rename_i hlt
      split
      · exact h
      · refine (memoryWf_cons _ _).2 ⟨‹_›, ?_, h⟩
        intro e he; rcases List.mem_cons.1 he with rfl | he
        · exact hlt
        · exact lt_trans hlt (h2 e he)
    · split
      · rename_i heq
        split
        · exact h3
        · exact (memoryWf_cons _ _).2 ⟨‹_›, by simpa [heq] using h2, h3⟩
      · exact (memoryWf_cons _ _).2 ⟨h1, above_writeByte h2 (by simp only at *; omega), ih h3⟩

/-- Writing bytes keeps the canonical form. -/
theorem memoryWf_writeBytes {m : Memory} (a v k : Nat) (h : memoryWf m = true) :
    memoryWf (writeBytes m a v k) = true := by
  induction k generalizing m a v with
  | zero => exact h
  | succ k ih => exact ih _ _ (memoryWf_writeByte _ _ h)

/-- Writing a cell keeps the canonical form. -/
theorem memoryWf_writeCell {n : Nat} {m : Memory} (a : Nat) (v : Word n) (h : memoryWf m = true) :
    memoryWf (writeCell m a v) = true := memoryWf_writeBytes _ _ _ h

/-- Loading a program keeps the canonical form. -/
theorem memoryWf_writeCells {n : Nat} {m : Memory} (a : Nat) (ws : List (Word n)) (h : memoryWf m = true) :
    memoryWf (writeCells m a ws) = true := by
  induction ws generalizing m a with
  | nil => exact h
  | cons w ws ih => exact ih _ (memoryWf_writeCell a w h)

/-- `MemWrite`, when it stores, keeps the canonical form. -/
theorem memoryWf_memWrite {n k : Nat} {m m' : Memory} {addr v : Word n} (hw : memWrite k m addr v = .ok m')
    (h : memoryWf m = true) : memoryWf m' = true := by
  unfold memWrite at hw
  split at hw
  · cases hw
  · cases hw; exact memoryWf_writeCell _ _ h

/-! ### The bytes stay inside memory -/

theorem listed_writeByte {b : Nat} {m : Memory} {a : Nat} (v : Byte) (h : ∀ c ∈ m, c.1 < b) (ha : a < b) :
    ∀ c ∈ writeByte m a v, c.1 < b := by
  induction m with
  | nil => unfold writeByte; split <;> simp_all
  | cons c rest ih =>
    have hc : c.1 < b := h c (by simp)
    have hr : ∀ e ∈ rest, e.1 < b := fun e he => h e (by simp [he])
    unfold writeByte
    split
    · split
      · exact h
      · intro e he; rcases List.mem_cons.1 he with rfl | he
        · exact ha
        · exact h e he
    · split
      · split
        · exact hr
        · intro e he; rcases List.mem_cons.1 he with rfl | he
          · exact ha
          · exact hr e he
      · intro e he; rcases List.mem_cons.1 he with rfl | he
        · exact hc
        · exact ih hr e he

theorem listed_writeBytes {b k : Nat} {m : Memory} {a : Nat} (v : Nat) (h : ∀ c ∈ m, c.1 < b) (ha : a + k ≤ b) :
    ∀ c ∈ writeBytes m a v k, c.1 < b := by
  induction k generalizing m a v with
  | zero => exact h
  | succ k ih => exact ih _ (listed_writeByte _ h (by omega)) (by omega)

/-- The cell of an address below MEM_BYTES lies inside memory. -/
theorem cellBase_within {n a memBytes : Nat} (h4 : memBytes % 4 = 0) (ha : a < memBytes) :
    cellBase n a + cellBytes n ≤ memBytes / 4 * cellBytes n := by
  have : a / 4 + 1 ≤ memBytes / 4 := by omega
  calc cellBase n a + cellBytes n = (a / 4 + 1) * cellBytes n := by rw [cellBase, Nat.succ_mul]
    _ ≤ memBytes / 4 * cellBytes n := Nat.mul_le_mul_right _ this

theorem memoryWithin_writeCell {n memBytes : Nat} {m : Memory} {a : Nat} (v : Word n)
    (h : memoryWithin n memBytes m = true) (h4 : memBytes % 4 = 0) (ha : a < memBytes) :
    memoryWithin n memBytes (writeCell m a v) = true := by
  simp only [memoryWithin, List.all_eq_true, decide_eq_true_eq] at h ⊢
  exact listed_writeBytes _ h (cellBase_within h4 ha)

theorem memoryWithin_writeCells {n memBytes : Nat} {m : Memory} {a : Nat} (ws : List (Word n))
    (h : memoryWithin n memBytes m = true) (h4 : memBytes % 4 = 0) (ha : a + 4 * ws.length ≤ memBytes) :
    memoryWithin n memBytes (writeCells m a ws) = true := by
  induction ws generalizing m a with
  | nil => exact h
  | cons w ws ih =>
    simp only [List.length_cons] at ha
    exact ih (memoryWithin_writeCell w h h4 (by omega)) (by omega)

/-! ### Reads after writes -/

/-- A write leaves every other byte alone. -/
theorem readByte_writeByte_ne (m : Memory) {a b : Nat} (v : Byte) (h : b ≠ a) :
    readByte (writeByte m a v) b = readByte m b := by
  have h' : ¬ a = b := fun e => h e.symm
  induction m with
  | nil => unfold writeByte; split <;> simp [readByte, h']
  | cons c rest ih =>
    unfold writeByte
    split
    · split <;> simp [readByte, h']
    · split
      · rename_i heq
        subst heq
        split <;> simp [readByte, h']
      · simp [readByte, ih]

theorem readByte_above {a : Nat} {m : Memory} (h : above a m) : readByte m a = unlistedByte := by
  induction m with
  | nil => rfl
  | cons c rest ih =>
    have hc : a < c.1 := h c (by simp)
    simp only [readByte]
    rw [if_neg (by omega)]
    exact ih fun e he => h e (by simp [he])

/-- A read of the byte just written gives it. -/
theorem readByte_writeByte_same {m : Memory} (a : Nat) (v : Byte) (h : memoryWf m = true) :
    readByte (writeByte m a v) a = v := by
  induction m with
  | nil => unfold writeByte; split <;> simp_all [readByte]
  | cons c rest ih =>
    obtain ⟨-, h2, h3⟩ := (memoryWf_cons c rest).1 h
    unfold writeByte
    split
    · rename_i hlt
      split
      · rename_i hv
        rw [hv]
        exact readByte_above fun e he => by
          rcases List.mem_cons.1 he with rfl | he
          · exact hlt
          · exact lt_trans hlt (h2 e he)
      · simp [readByte]
    · split
      · rename_i heq
        split
        · rename_i hv
          rw [hv]
          exact readByte_above (by rw [heq]; exact h2)
        · simp [readByte]
      · rename_i hne
        simp only [readByte]
        rw [if_neg (fun e => hne e.symm)]
        exact ih h3

theorem readByte_writeBytes_outside (m : Memory) {a b : Nat} (v k : Nat) (h : b < a ∨ a + k ≤ b) :
    readByte (writeBytes m a v k) b = readByte m b := by
  induction k generalizing m a v with
  | zero => rfl
  | succ k ih =>
    simp only [writeBytes]
    rw [ih _ _ (by omega), readByte_writeByte_ne _ _ (by omega)]

/-- A store leaves every byte outside its cell alone. -/
theorem readByte_writeCell_outside {n : Nat} (m : Memory) {a b : Nat} (v : Word n)
    (h : b < cellBase n a ∨ cellBase n a + cellBytes n ≤ b) : readByte (writeCell m a v) b = readByte m b :=
  readByte_writeBytes_outside m _ _ h

/-- The bytes just written read as the number, as far as they hold it. -/
theorem readBytes_writeBytes_same {m : Memory} (a v k : Nat) (h : memoryWf m = true) :
    readBytes (writeBytes m a v k) a k = v % 256 ^ k := by
  induction k generalizing m a v with
  | zero => simp [readBytes, Nat.mod_one]
  | succ k ih =>
    simp only [readBytes, writeBytes]
    rw [ih _ _ (memoryWf_writeByte _ _ h), readByte_writeBytes_outside _ _ _ (by omega), readByte_writeByte_same _ _ h,
      Nat.pow_succ', Nat.mod_mul, BitVec.toNat_ofNat]

/-- Reading bytes depends on those bytes only. -/
theorem readBytes_congr {m m' : Memory} (a k : Nat) (h : ∀ b, a ≤ b → b < a + k → readByte m' b = readByte m b) :
    readBytes m' a k = readBytes m a k := by
  induction k generalizing a with
  | zero => rfl
  | succ k ih =>
    simp only [readBytes]
    rw [h a (by omega) (by omega), ih (a + 1) fun b h1 h2 => h b (by omega) (by omega)]

/-- `cellBytes n` bytes hold every word of `n` bits. -/
theorem two_pow_le_cellBytes (n : Nat) : 2 ^ n ≤ 256 ^ cellBytes n := by
  rw [show 256 = 2 ^ 8 from rfl, ← Nat.pow_mul]
  exact Nat.pow_le_pow_right (by omega) (by unfold cellBytes; omega)

/-- A read of the cell just written gives the word. -/
theorem readCell_writeCell_same {n : Nat} {m : Memory} (a : Nat) (v : Word n) (h : memoryWf m = true) :
    readCell n (writeCell m a v) a = v := by
  unfold readCell writeCell
  rw [readBytes_writeBytes_same _ _ _ h, Nat.mod_eq_of_lt (Nat.lt_of_lt_of_le v.isLt (two_pow_le_cellBytes n))]
  simp

/-- A store leaves every other cell alone. -/
theorem readCell_writeCell_ne {n : Nat} (m : Memory) {a b : Nat} (v : Word n) (h : a / 4 ≠ b / 4) :
    readCell n (writeCell m a v) b = readCell n m b := by
  unfold readCell
  rw [readBytes_congr]
  intro c h1 h2
  apply readByte_writeCell_outside
  unfold cellBase at *
  rcases Nat.lt_or_gt_of_ne h with hlt | hgt
  · have := Nat.mul_le_mul_right (cellBytes n) (show a / 4 + 1 ≤ b / 4 from hlt)
    rw [Nat.succ_mul] at this; omega
  · have := Nat.mul_le_mul_right (cellBytes n) (show b / 4 + 1 ≤ a / 4 from hgt)
    rw [Nat.succ_mul] at this; omega

/-! ### The data access check -/

theorem dataAddressFault_none {n k : Nat} {addr : Word n} :
    dataAddressFault k addr = none ↔ addr.toNat % 4 = 0 ∧ addr.toNat < k := by
  unfold dataAddressFault
  split
  · simp_all
  · split <;> simp_all

/-- `MemRead` answers exactly on the address of a cell. -/
theorem memRead_ok {n k : Nat} {m : Memory} {addr w : Word n} :
    memRead k m addr = .ok w ↔ dataAddressFault k addr = none ∧ w = readCell n m addr.toNat := by
  unfold memRead
  cases dataAddressFault k addr <;> simp [eq_comm]

/-- `MemWrite` answers exactly on the address of a cell. -/
theorem memWrite_ok {n k : Nat} {m m' : Memory} {addr v : Word n} :
    memWrite k m addr v = .ok m' ↔ dataAddressFault k addr = none ∧ m' = writeCell m addr.toNat v := by
  unfold memWrite
  cases dataAddressFault k addr <;> simp [eq_comm]

end Sys2Proof.Machine
end

