-- ==== Sys2Proof/Laws/Stages.lean ====
section
/-! SUPPORT. Everything each stage effect can do, said once (an inversion lemma each). -/

namespace Sys2Proof.Machine

open Sys2Proof

/-! ### The end of an Execute pass -/

theorem setResult_ok {n : Nat} {f : Word n → Word n → Word n} {l l' : Latch n} :
    setResult f l = .ok l' ↔ ∃ a b, l.resolvedSrc1 = some a ∧ l.resolvedSrc2 = some b ∧
      l' = { l with result := some (f a b) } := by
  unfold setResult
  cases l.resolvedSrc1 <;> cases l.resolvedSrc2 <;> simp [eq_comm]

theorem setResult_error {n : Nat} {f : Word n → Word n →
    Word n} {l : Latch n} {c : FaultCause} (h : setResult f l = .error c) :
    c = .contractViolation ∧ (l.resolvedSrc1 = none ∨ l.resolvedSrc2 = none) := by
  unfold setResult at h
  cases h1 : l.resolvedSrc1 <;> cases h2 : l.resolvedSrc2 <;> simp_all

theorem lwAddress_ok {n : Nat} {off : Word n} {l l' : Latch n} :
    lwAddress off l = .ok l' ↔ ∃ b, l.resolvedSrc1 = some b ∧
      l' = { l with resolvedSrc1 := some (effectiveAddress b off) } := by
  unfold lwAddress
  cases l.resolvedSrc1 <;> simp [eq_comm]

theorem swAddress_ok {n : Nat} {off : Word n} {l l' : Latch n} :
    swAddress off l = .ok l' ↔ ∃ b, l.resolvedSrc2 = some b ∧
      l' = { l with resolvedSrc2 := some (effectiveAddress b off) } := by
  unfold swAddress
  cases l.resolvedSrc2 <;> simp [eq_comm]

/-- `compute` keeps the construction fields (R28). -/
theorem compute_instr {n : Nat} {l l' : Latch n} (h : compute l = .ok l') : l'.instr = l.instr := by
  unfold compute at h
  split at h <;>
    first
      | (cases h; rfl)
      | (obtain ⟨_, _, _, _, rfl⟩ := setResult_ok.1 h; rfl)
      | (obtain ⟨_, _, rfl⟩ := lwAddress_ok.1 h; rfl)
      | (obtain ⟨_, _, rfl⟩ := swAddress_ok.1 h; rfl)

/-- `compute` fails only on an unwritten operand slot, which a record with its operands written does not have (R30). -/
theorem compute_total {n : Nat} {l : Latch n} (h : operandsWritten l = true) : ∃ l', compute l = .ok l' := by
  obtain ⟨i, r1, r2, r⟩ := l
  cases i <;> cases r1 <;> cases r2 <;>
    simp_all [operandsWritten, compute, setResult, lwAddress, swAddress, readsRegisters, kindOf, flagsOf]

/-- After `compute` the record's slots are those Execute leaves (R30, R181). -/
theorem compute_executed {n : Nat} {l l' : Latch n} (hl : slotsDecoded l = true) (h : compute l = .ok l') :
    slotsExecuted l' = true := by
  obtain ⟨i, r1, r2, r⟩ := l
  cases i <;> cases r1 <;> cases r2 <;> cases r <;>
    simp_all [slotsDecoded, slotsExecuted, operandsWritten, compute, setResult, lwAddress, swAddress, readsRegisters,
      kindOf, flagsOf] <;> subst h <;> simp

theorem compute_error {n : Nat} {l : Latch n} {c : FaultCause} (h : compute l = .error c) : c = .contractViolation := by
  obtain ⟨i, r1, r2, r⟩ := l
  cases i <;> cases r1 <;> cases r2 <;> simp_all [compute, setResult, lwAddress, swAddress]

/-! ### Execute -/

/-- All that a successful Execute pass does (R180, R181). -/
theorem executeFinish_ok {p : Params} {l : Latch p.xlen} {s t : Engine p} :
    executeFinish l s = .ok t ↔ ∃ l', compute l = .ok l' ∧
      ((destOf l.instr = none ∧ t = { s with l2 := l' }) ∨
        ∃ d, destOf l.instr = some d ∧ s.hq.length < p.hqDepth ∧ t = { s with l2 := l', hq := s.hq ++ [d] }) := by
  unfold executeFinish
  cases hd : destOf l.instr with
  | none => cases hc : compute l <;> simp [eq_comm]
  | some d =>
    cases hq : hqAppend p.hqDepth s.hq d with
    | error c =>
      have : ¬ s.hq.length < p.hqDepth := by
        intro hlt; simp [hqAppend, hlt] at hq
      simp [hq, this]
    | ok q =>
      obtain ⟨hlt, rfl⟩ := hqAppend_ok.1 hq
      cases hc : compute l <;> simp [hq, hlt, eq_comm]

/-- What the Execute effect can do: nothing, raise the stall at the first or the second source, or finish (R182). -/
theorem executeEffect_cases {p : Params} {s t : Engine p} (h : executeEffect s = .ok t) :
    (usesAlu s.l2.instr = false ∧ t = s) ∨
    (usesAlu s.l2.instr = true ∧
      checkSource s.hq s.l3 s.l4 (src1Of s.l2.instr) s.l2.resolvedSrc1 = .stalled ∧ t = { s with stall := true }) ∨
    (∃ v1, usesAlu s.l2.instr = true ∧
      checkSource s.hq s.l3 s.l4 (src1Of s.l2.instr) s.l2.resolvedSrc1 = .clear v1 ∧
      checkSource s.hq s.l3 s.l4 (src2Of s.l2.instr) s.l2.resolvedSrc2 = .stalled ∧
      t = { s with l2 := { s.l2 with resolvedSrc1 := v1 }, stall := true }) ∨
    (∃ v1 v2, usesAlu s.l2.instr = true ∧
      checkSource s.hq s.l3 s.l4 (src1Of s.l2.instr) s.l2.resolvedSrc1 = .clear v1 ∧
      checkSource s.hq s.l3 s.l4 (src2Of s.l2.instr) s.l2.resolvedSrc2 = .clear v2 ∧
      executeFinish { s.l2 with resolvedSrc1 := v1, resolvedSrc2 := v2 } s = .ok t) := by
  unfold executeEffect at h
  cases hu : usesAlu s.l2.instr with
  | false => simp [hu] at h; exact .inl ⟨rfl, h.symm⟩
  | true =>
    simp only [hu, if_true] at h
    cases h1 : checkSource s.hq s.l3 s.l4 (src1Of s.l2.instr) s.l2.resolvedSrc1 with
    | stalled => simp [h1] at h; exact .inr (.inl ⟨rfl, rfl, h.symm⟩)
    | clear v1 =>
      simp only [h1] at h
      cases h2 : checkSource s.hq s.l3 s.l4 (src2Of s.l2.instr) s.l2.resolvedSrc2 with
      | stalled => simp [h2] at h; exact .inr (.inr (.inl ⟨v1, rfl, rfl, rfl, h.symm⟩))
      | clear v2 => simp only [h2] at h; exact .inr (.inr (.inr ⟨v1, v2, rfl, rfl, rfl, h⟩))

/-- What Execute leaves alone. -/
theorem executeEffect_frame {p : Params} {s t : Engine p} (h : executeEffect s = .ok t) :
    t = { s with l2 := t.l2, hq := t.hq, stall := t.stall } ∧ t.l2.instr = s.l2.instr := by
  rcases executeEffect_cases h with ⟨-, rfl⟩ | ⟨-, -, rfl⟩ | ⟨_, -, -, -, rfl⟩ | ⟨_, _, -, -, -, hf⟩
  · exact ⟨rfl, rfl⟩
  · exact ⟨rfl, rfl⟩
  · exact ⟨rfl, rfl⟩
  · obtain ⟨l', hc, ⟨-, rfl⟩ | ⟨d, -, -, rfl⟩⟩ := executeFinish_ok.1 hf
    · exact ⟨rfl, by simpa using compute_instr hc⟩
    · exact ⟨rfl, by simpa using compute_instr hc⟩

/-- Execute faults only by contract violation. -/
theorem executeEffect_error {p : Params} {s : Engine p} {c : FaultCause} (h : executeEffect s = .error c) :
    c = .contractViolation := by
  unfold executeEffect at h
  split at h
  · split at h
    · cases h
    · split at h
      · cases h
      · unfold executeFinish at h
        split at h
        · split at h
          · cases h; exact hqAppend_error ‹_›
          · split at h
            · cases h; exact compute_error ‹_›
            · cases h
        · split at h
          · cases h; exact compute_error ‹_›
          · cases h
  · cases h

/-! ### Memory -/

/-- What the Memory effect can do: store, load, or nothing (R183). -/
theorem memoryEffect_cases {p : Params} {s t : Engine p} (h : memoryEffect s = .ok t) :
    (∃ addr v, writesMemory s.l3.instr = true ∧ s.l3.resolvedSrc2 = some addr ∧ s.l3.resolvedSrc1 = some v ∧
      dataAddressFault p.memBytes addr = none ∧ t = { s with mem := writeCell s.mem addr.toNat v }) ∨
    (∃ addr, readsMemory s.l3.instr = true ∧ s.l3.resolvedSrc1 = some addr ∧
      dataAddressFault p.memBytes addr = none ∧
      t = { s with l3 := { s.l3 with result := some (readCell p.xlen s.mem addr.toNat) } }) ∨
    (writesMemory s.l3.instr = false ∧ readsMemory s.l3.instr = false ∧ t = s) := by
  unfold memoryEffect at h
  split at h
  · rename_i hw
    unfold storeEffect at h
    split at h
    · rename_i addr v h2 h1
      split at h
      · rename_i m hm
        obtain ⟨hf, rfl⟩ := memWrite_ok.1 hm
        cases h
        exact .inl ⟨addr, v, hw, h2, h1, hf, rfl⟩
      · cases h
    · cases h
  · rename_i hw
    split at h
    · rename_i hr
      unfold loadEffect at h
      split at h
      · rename_i addr h1
        split at h
        · rename_i w hm
          obtain ⟨hf, rfl⟩ := memRead_ok.1 hm
          cases h
          exact .inr (.inl ⟨addr, hr, h1, hf, rfl⟩)
        · cases h
      · cases h
    · rename_i hr
      cases h
      exact .inr (.inr ⟨by simpa using hw, by simpa using hr, rfl⟩)

/-! ### Writeback and retirement -/

/-- What Writeback can do: write the destination, or nothing (R184). -/
theorem writebackEffect_cases {p : Params} {s t : Engine p} (h : writebackEffect s = .ok t) :
    (∃ d v, destOf s.l4.instr = some d ∧ s.l4.result = some v ∧ t = { s with x := writeReg s.x d v }) ∨
    (destOf s.l4.instr = none ∧ t = s) := by
  unfold writebackEffect at h
  split at h
  · rename_i d hd
    split at h
    · rename_i v hv
      cases h
      exact .inl ⟨d, v, hd, hv, rfl⟩
    · cases h
  · rename_i hd
    cases h
    exact .inr ⟨hd, rfl⟩

/-- What retirement can do: take the front of the queue, or nothing (R147). -/
theorem retire_cases {p : Params} {s t : Engine p} (h : retire s = .ok t) :
    (∃ r q, writesRegister s.l4.instr = true ∧ s.hq = r :: q ∧ t = { s with hq := q }) ∨
    (writesRegister s.l4.instr = false ∧ t = s) := by
  unfold retire at h
  split at h
  · rename_i hw
    split at h
    · rename_i q hq
      obtain ⟨r, hq⟩ := hqPop_ok.1 hq
      cases h
      exact .inl ⟨r, q, hw, hq, rfl⟩
    · cases h
  · rename_i hw
    cases h
    exact .inr ⟨by simpa using hw, rfl⟩

end Sys2Proof.Machine
end

