-- ==== Sys2Proof/Laws/Engine.lean ====
section
/-! SUPPORT. What one cycle can do, said once: the early effects field by field, the late effects by cases. -/

namespace Sys2Proof.Machine

open Sys2Proof

/-! ### The state after the advance, Fetch and Decode -/

section early

variable {p : Params} (f : Option Instr) (s : Engine p)

@[simp] theorem early_x : (earlyEffects f s).x = s.x := by
  unfold earlyEffects decodeEffect fetchEffect advance; dsimp only; cases s.stall <;> cases f <;> simp <;> split <;> rfl

@[simp] theorem early_mem : (earlyEffects f s).mem = s.mem := by
  unfold earlyEffects decodeEffect fetchEffect advance; dsimp only; cases s.stall <;> cases f <;> simp <;> split <;> rfl

@[simp] theorem early_hq : (earlyEffects f s).hq = s.hq := by
  unfold earlyEffects decodeEffect fetchEffect advance; dsimp only; cases s.stall <;> cases f <;> simp <;> split <;> rfl

@[simp] theorem early_cycle : (earlyEffects f s).cycle = s.cycle := by
  unfold earlyEffects decodeEffect fetchEffect advance; dsimp only; cases s.stall <;> cases f <;> simp <;> split <;> rfl

@[simp] theorem early_done : (earlyEffects f s).done = s.done := by
  unfold earlyEffects decodeEffect fetchEffect advance; dsimp only; cases s.stall <;> cases f <;> simp <;> split <;> rfl

@[simp] theorem early_fault : (earlyEffects f s).fault = s.fault := by
  unfold earlyEffects decodeEffect fetchEffect advance; dsimp only; cases s.stall <;> cases f <;> simp <;> split <;> rfl

@[simp] theorem early_faultCause : (earlyEffects f s).faultCause = s.faultCause := by
  unfold earlyEffects decodeEffect fetchEffect advance; dsimp only; cases s.stall <;> cases f <;> simp <;> split <;> rfl

/-- The stall flag is consumed at the start of the cycle (R142). -/
@[simp] theorem early_stall : (earlyEffects f s).stall = false := by
  unfold earlyEffects decodeEffect fetchEffect advance; dsimp only
  cases h : s.stall <;> cases f <;> simp <;> split <;> simp_all

/-- The Writeback latch takes the Memory latch's record in every cycle (R143, R144). -/
@[simp] theorem early_l4 : (earlyEffects f s).l4 = enteringWriteback s := by
  unfold earlyEffects decodeEffect fetchEffect advance enteringWriteback; dsimp only
  cases s.stall <;> cases f <;> simp <;> split <;> rfl

/-- The Memory latch takes the Execute latch's record, or a bubble in a stalling cycle (R143, R144). -/
@[simp] theorem early_l3 : (earlyEffects f s).l3 = enteringMemory s := by
  unfold earlyEffects decodeEffect fetchEffect advance enteringMemory; dsimp only
  cases s.stall <;> cases f <;> simp <;> split <;> rfl

/-- The Execute latch takes the Decode latch's record, or keeps its own in a stalling cycle (R143, R144). -/
@[simp] theorem early_l2 : (earlyEffects f s).l2 = enteringExecute s := by
  unfold earlyEffects decodeEffect fetchEffect advance enteringExecute; dsimp only
  cases s.stall <;> cases f <;> simp <;> split <;> rfl

/-- The Decode latch's record after the register read, from the registers of the start of the cycle (R23, R174). -/
@[simp] theorem early_l1 : (earlyEffects f s).l1 = decodeSlots s.x (enteringDecode s) := by
  unfold earlyEffects decodeEffect fetchEffect advance enteringDecode; dsimp only
  cases s.stall <;> cases f <;> simp <;> split <;> rfl

/-- The pc after Fetch and Decode: a Jump in Decode wins over Fetch's advance (R25). -/
theorem early_pc : (earlyEffects f s).pc =
    match targetOf p.xlen (enteringDecode s).instr with
    | some t => t
    | none => if s.stall = true ∨ f = none then s.pc else s.pc + 4#p.xlen := by
  unfold earlyEffects decodeEffect fetchEffect advance enteringDecode; dsimp only
  cases s.stall <;> cases f <;> simp <;> split <;> simp_all

/-- The Fetch latch after Fetch and Decode: flushed by a Jump in Decode (R176). -/
theorem early_l0 : (earlyEffects f s).l0 =
    match targetOf p.xlen (enteringDecode s).instr with
    | some _ => Latch.bubble
    | none => if s.stall = true then s.l0 else match f with
      | some i => Latch.fresh i
      | none => Latch.bubble := by
  unfold earlyEffects decodeEffect fetchEffect advance enteringDecode; dsimp only
  cases s.stall <;> cases f <;> simp <;> split <;> simp_all

/-- The fetched-instruction count after Fetch: a flushed fetch stays counted (R171, R176). -/
theorem early_fetched : (earlyEffects f s).fetched =
    if s.stall = true ∨ f = none then s.fetched else s.fetched + 1#p.ctrW := by
  unfold earlyEffects decodeEffect fetchEffect advance; dsimp only
  cases s.stall <;> cases f <;> simp <;> split <;> simp_all

end early

/-! ### The cycle -/

/-- A cycle answers a next state exactly when the engine runs and no effect faults (R140, R150). -/
theorem cycle_next {f : Option Instr} {s t : State} :
    cycle f s = .next t ↔ running s.engine = true ∧ ∃ e, cycleEffects f s.engine = .ok e ∧ t = e.pack := by
  unfold cycle
  split
  · rename_i hr
    cases h : cycleEffects f s.engine with
    | ok u => simp [hr, eq_comm]
    | error c => cases c <;> simp [takeFault]
  · rename_i hr; simp [hr]

/-- The same of engine states for the same parameters. -/
theorem cycle_pack {p : Params} {f : Option Instr} {s t : Engine p} :
    cycle f s.pack = .next t.pack ↔ running s = true ∧ lateEffects (earlyEffects f s) = .ok t := by
  rw [cycle_next]
  constructor
  · rintro ⟨hr, e, he, h⟩
    cases h
    exact ⟨hr, he⟩
  · exact fun ⟨hr, he⟩ => ⟨hr, t, he, rfl⟩

/-- Every meaning is the cycle in which Fetch takes its instruction. -/
theorem exec_eq_cycle (i : Instr) (s : State) : exec i s = cycle (some i) s := by cases i <;> rfl

/-- A step that answers a next state is a cycle in which Fetch takes what it requested (R151). -/
theorem step_next {s t : State} :
    step s = .next t ↔ ∃ f, fetchRequest s.engine = .ok f ∧ cycle f s = .next t := by
  unfold step
  by_cases hr : running s.engine = true
  · simp only [hr, if_true]
    cases h : fetchRequest s.engine with
    | error c => cases c <;> simp [takeFault]
    | ok f => cases f <;> simp [exec_eq_cycle]
  · simp only [hr]
    constructor
    · intro h; cases h
    · rintro ⟨f, -, h⟩; exact absurd (cycle_next.1 h).1 hr

/-- A step keeps the parameters: what it answers is an engine state for the same ones (R39). -/
theorem step_packed {s t : State} (h : step s = .next t) : ∃ e : Engine s.params, t = e.pack := by
  obtain ⟨f, -, hc⟩ := step_next.1 h
  obtain ⟨-, e, -, he⟩ := cycle_next.1 hc
  exact ⟨e, he⟩

/-- The four late effects in turn, when none faults (R146, R147). -/
theorem lateEffects_ok {p : Params} {s t : Engine p} :
    lateEffects s = .ok t ↔ ∃ s3 s4 s5 s6, executeEffect s = .ok s3 ∧ memoryEffect s3 = .ok s4 ∧
      writebackEffect s4 = .ok s5 ∧ retire s5 = .ok s6 ∧ t = closeCycle s6 := by
  unfold lateEffects
  cases executeEffect s with
  | error c => simp
  | ok s3 =>
    cases h3 : memoryEffect s3 with
    | error c => simp [h3]
    | ok s4 =>
      cases h4 : writebackEffect s4 with
      | error c => simp [h3, h4]
      | ok s5 => cases h5 : retire s5 <;> simp [h3, h4, h5, eq_comm]

/-- What the late effects leave alone, and what termination and the counter make of the rest (R148, R149, R185). -/
theorem lateEffects_frame {p : Params} {s t : Engine p} (h : lateEffects s = .ok t) :
    t.pc = s.pc ∧ t.l0 = s.l0 ∧ t.l1 = s.l1 ∧ t.l4 = s.l4 ∧ t.fetched = s.fetched ∧
      t.fault = s.fault ∧ t.faultCause = s.faultCause ∧ t.cycle = s.cycle + 1#p.ctrW ∧ t.done = allEmpty t ∧
      t.l2.instr = s.l2.instr ∧ t.l3.instr = s.l3.instr := by
  obtain ⟨s3, s4, s5, s6, h3, h4, h5, h6, rfl⟩ := lateEffects_ok.1 h
  obtain ⟨e3, hi⟩ := executeEffect_frame h3
  rcases retire_cases h6 with ⟨r, q, -, -, rfl⟩ | ⟨-, rfl⟩ <;>
  rcases writebackEffect_cases h5 with ⟨d, v, -, -, rfl⟩ | ⟨-, rfl⟩ <;>
  rcases memoryEffect_cases h4 with ⟨a, v, -, -, -, -, rfl⟩ | ⟨a, -, -, -, rfl⟩ | ⟨-, -, rfl⟩ <;>
  · rw [e3]; simp [hi, allEmpty, closeCycle]

/-- All that the late effects do to a state, when none faults: an Execute pass, at most one data access, at most one
register write with its retirement (R146, R147, R185). -/
theorem lateEffects_cases {p : Params} {e t : Engine p} (h : lateEffects e = .ok t) :
    ∃ s3, executeEffect e = .ok s3 ∧ t.stall = s3.stall ∧ t.l2 = s3.l2 ∧
      ((∃ addr v, writesMemory e.l3.instr = true ∧ e.l3.resolvedSrc2 = some addr ∧ e.l3.resolvedSrc1 = some v ∧
          dataAddressFault p.memBytes addr = none ∧ t.mem = writeCell e.mem addr.toNat v ∧ t.l3 = e.l3) ∨
        (∃ addr, readsMemory e.l3.instr = true ∧ e.l3.resolvedSrc1 = some addr ∧
          dataAddressFault p.memBytes addr = none ∧ t.mem = e.mem ∧
          t.l3 = { e.l3 with result := some (readCell p.xlen e.mem addr.toNat) }) ∨
        (writesMemory e.l3.instr = false ∧ readsMemory e.l3.instr = false ∧ t.mem = e.mem ∧ t.l3 = e.l3)) ∧
      ((∃ d v r, destOf e.l4.instr = some d ∧ e.l4.result = some v ∧ t.x = writeReg e.x d v ∧ s3.hq = r :: t.hq) ∨
        (destOf e.l4.instr = none ∧ t.x = e.x ∧ t.hq = s3.hq)) := by
  obtain ⟨s3, s4, s5, s6, h3, h4, h5, h6, rfl⟩ := lateEffects_ok.1 h
  refine ⟨s3, h3, ?_⟩
  obtain ⟨e3, hi⟩ := executeEffect_frame h3
  have hm : s3.mem = e.mem := by rw [e3]
  have h3' : s3.l3 = e.l3 := by rw [e3]
  have h4' : s3.l4 = e.l4 := by rw [e3]
  have hx : s3.x = e.x := by rw [e3]
  clear e3
  rcases memoryEffect_cases h4 with ⟨a, v, ha, hb, hc, hd, rfl⟩ | ⟨a, ha, hb, hc, rfl⟩ | ⟨ha, hb, rfl⟩ <;>
  rcases writebackEffect_cases h5 with ⟨d, w, hwd, hwv, rfl⟩ | ⟨hwd, rfl⟩ <;>
  rcases retire_cases h6 with ⟨r, q, hr, hq, rfl⟩ | ⟨hr, rfl⟩ <;>
  simp only [hm, h3', h4', hx] at ha hb hwd hr ⊢ <;>
  first
    | (exfalso; have := destOf_isSome e.l4.instr; simp_all; done)
    | simp_all

/-- A step that answers a next state, as the late effects of the state Fetch and Decode left. -/
theorem step_late {p : Params} {s t : Engine p} (h : step s.pack = .next t.pack) :
    ∃ f, fetchRequest s = .ok f ∧ running s = true ∧ lateEffects (earlyEffects f s) = .ok t := by
  obtain ⟨f, hf, hc⟩ := step_next.1 h
  exact ⟨f, hf, cycle_pack.1 hc⟩

end Sys2Proof.Machine
end

