-- ==== Sys2Proof/Tests/Slice0.lean ====
section
/-! SUPPORT. Tests: well-formedness, decoding of words written out from spec/30_encoding.md, one-step tests with
results from the rules' own corner cases and examples, and a witness for the hypotheses of every statement. -/

namespace Sys2Proof.Tests

open Sys2Proof Sys2Proof.Machine

/-! ### Well-formed records (R73, R77): each check refuses an ill-formed term and accepts the ends of its range -/

theorem test_wf_addImm : (Instr.addImm 2 1 0x8000).wellFormed = false ∧
    (Instr.addImm 2 1 0x7FFF).wellFormed = true := by decide

theorem test_wf_subImm : (Instr.subImm 2 1 (-32769)).wellFormed = false ∧
    (Instr.subImm 2 1 (-32768)).wellFormed = true := by decide

theorem test_wf_multImm : (Instr.multImm 2 1 0x00010000).wellFormed = false ∧
    (Instr.multImm 2 1 (-1)).wellFormed = true := by decide

theorem test_wf_lw : (Instr.lw 3 2 0x8000).wellFormed = false ∧ (Instr.lw 3 2 (-4)).wellFormed = true := by decide

theorem test_wf_sw : (Instr.sw 1 2 (-32769)).wellFormed = false ∧ (Instr.sw 1 2 0x7FFF).wellFormed = true := by
  decide

theorem test_wf_j : (Instr.j 0x4000000).wellFormed = false ∧ (Instr.j 0x3FFFFFF).wellFormed = true := by decide

/-! ### Decoding: one word per constructor, written field by field from R75 and R76 -/

theorem test_decode_empty : decode (0b000000#6 ++ 0#26) = .ok .empty := by rfl

theorem test_decode_add :
    decode (0b000001#6 ++ 0b00010#5 ++ 0b00001#5 ++ 0b00011#5 ++ 0b00000000000#11) = .ok (.add 2 1 3) := by rfl

theorem test_decode_sub :
    decode (0b000010#6 ++ 0b00101#5 ++ 0b00110#5 ++ 0b00111#5 ++ 0b00000000000#11) = .ok (.sub 5 6 7) := by rfl

theorem test_decode_mult :
    decode (0b000011#6 ++ 0b01000#5 ++ 0b01001#5 ++ 0b01010#5 ++ 0b00000000000#11) = .ok (.mult 8 9 10) := by rfl

theorem test_decode_addImm :
    decode (0b001001#6 ++ 0b00010#5 ++ 0b00001#5 ++ 0b0000000000000101#16) = .ok (.addImm 2 1 5) := by rfl

theorem test_decode_subImm :
    decode (0b001010#6 ++ 0b00010#5 ++ 0b00001#5 ++ 0b1111111111111111#16) = .ok (.subImm 2 1 (-1)) := by rfl

theorem test_decode_multImm :
    decode (0b001011#6 ++ 0b11111#5 ++ 0b00000#5 ++ 0b1000000000000000#16) = .ok (.multImm 31 0 (-32768)) := by rfl

theorem test_decode_lw :
    decode (0b010000#6 ++ 0b00011#5 ++ 0b00010#5 ++ 0b1111111111111100#16) = .ok (.lw 3 2 (-4)) := by rfl

theorem test_decode_sw :
    decode (0b010001#6 ++ 0b00001#5 ++ 0b00010#5 ++ 0b0000000000000000#16) = .ok (.sw 1 2 0) := by rfl

theorem test_decode_j : decode (0b100000#6 ++ 0b00000000000001000000001100#26) = .ok (.j 0x100C) := by rfl

/-- R78: the edges of the unused opcode ranges, and a nonzero bit where zero is required. -/
theorem test_decode_illegal :
    ([0x00000001#32, 0x02000000#32, 0x04411801#32, 0x08A63C00#32, 0x10000000#32, 0x20000000#32, 0x30000000#32,
      0x3C000000#32, 0x48000000#32, 0x7C000000#32, 0x84000000#32, 0xFC000000#32].all fun w =>
      match decode w with | .ok _ => false | .error _ => true) = true := by decide

/-- R60: the byte at the lowest address is bits 7:0; three bytes are no instruction. -/
theorem test_decodeBytes : decodeBytes [0x00, 0x18, 0x41, 0x04, 0xFF] = .ok (.add 2 1 3, [0xFF]) ∧
    decodeBytes [0x00, 0x18, 0x41] = .error .truncated := ⟨rfl, rfl⟩

theorem test_decodeTableWord : decodeTableWord 32 0x44220000 = some (.sw 1 2 0) := by rfl

/-- R60, R75: the bytes of a cell at XLEN = 32 are the four at its address, the lowest in bits 7:0; at XLEN = 64 an
instruction is a cell whose upper half is 0. -/
theorem test_cells : readCell 32 [(0x1000, 0x00#8), (0x1001, 0x18#8), (0x1002, 0x41#8), (0x1003, 0x04#8)] 0x1000 =
      0x04411800#32 ∧
    decodeCell 0x04411800#64 = .ok (.add 2 1 3) ∧ decodeCell 0x100000000#64 = .error .wideCell := ⟨rfl, rfl, rfl⟩

/-! ### Small states -/

/-- An engine state at the default parameters with no program. -/
abbrev Small := Engine Params.default

/-- The engine state a step answers, or the state itself: see `step_after`. -/
def after {p : Params} (s : Engine p) : Engine p :=
  match fetchRequest s with
  | .ok f =>
    match cycleEffects f s with
    | .ok t => t
    | .error _ => s
  | .error _ => s

/-- Whether an outcome is a next state. -/
def isNext : Host.Outcome State Fault Refusal → Bool
  | .next _ => true
  | .fault _ => false
  | .refused _ => false

theorem step_after {p : Params} {s : Engine p} (h : isNext (step s.pack) = true) :
    step s.pack = .next (after s).pack := by
  cases hs : step s.pack with
  | fault f => rw [hs] at h; cases h
  | refused r => rw [hs] at h; cases h
  | next t =>
    obtain ⟨f, hf, hc⟩ := step_next.1 hs
    obtain ⟨-, e, he, rfl⟩ := cycle_next.1 hc
    have hf : fetchRequest s = .ok f := hf
    have he : cycleEffects f s = .ok e := he
    simp only [after, hf, he]

/-- The parameters of a loaded program of one word. -/
abbrev oneWordParams : Params := { progLen := 1 }

/-- An empty pipeline with every register at `v`. -/
def quietAt (v : Word 32) : Small := Engine.atReset Params.default (Vector.replicate 32 v) []

/-- A loaded program of the one word `w`. -/
def oneWord (w : Word 32) : Engine oneWordParams := Engine.atReset oneWordParams (zeroRegs 32) (writeCell [] 0x1000 w)

/-- An instruction about to pass Execute, its operands read. -/
def executing (i : Instr) (a : Word 32) (b : Option (Word 32)) : Small :=
  { Engine.reset with l1 := { instr := i, resolvedSrc1 := some a, resolvedSrc2 := b, result := none } }

/-- A record about to pass Memory, with `q` as the hazard queue. -/
def accessing (l : Latch 32) (q : List RegId) : Small := { Engine.reset with l2 := l, hq := q }

/-- `lw r1,0(r2)` with its effective address. -/
def loadRecord (a : Word 32) : Latch 32 :=
  { instr := .lw 1 2 0, resolvedSrc1 := some a, resolvedSrc2 := none, result := none }

/-- `sw r1,0(r2)` with the value to store and its effective address. -/
def storeRecord (v a : Word 32) : Latch 32 :=
  { instr := .sw 1 2 0, resolvedSrc1 := some v, resolvedSrc2 := some a, result := none }

/-- `add r0,r1,r2` with its result 7. -/
def addRecord : Latch 32 :=
  { instr := .add 0 1 2, resolvedSrc1 := some 3#32, resolvedSrc2 := some 4#32, result := some 7#32 }

/-- `add r0,r1,r2` about to pass Writeback. -/
def writing : Small := { Engine.reset with l3 := addRecord, hq := [0] }

/-- `lw r1,0(r2)` in the Execute latch and a reader of `r1` directly behind it: the next cycle stalls. -/
def loadUse : Small :=
  { accessing (loadRecord 0x100#32) [1] with
    l1 := { instr := .add 4 1 1, resolvedSrc1 := some 0#32, resolvedSrc2 := some 0#32, result := none } }

/-- The cycle after: the load has its result 9, the reader waits in the Execute latch. -/
def stalled : Small :=
  { Engine.reset with
    l2 := { instr := .add 4 1 1, resolvedSrc1 := some 0#32, resolvedSrc2 := some 0#32, result := none }
    l3 := { loadRecord 0x100#32 with result := some 9#32 }
    hq := [1]
    stall := true
    cycle := 1#64 }

/-- A reader of a register whose only writer is in the Execute latch, an Arithmetic with its result: forwarded. -/
def forwarding : Small :=
  { accessing addRecord [0] with
    l1 := { instr := .sw 0 5 0, resolvedSrc1 := some 0#32, resolvedSrc2 := some 8#32, result := none } }

/-- A writer of `r1`, then a load of `r1`, then a reader of `r1`, back to back (R211). -/
def twoWriters : Small :=
  { loadUse with
    l3 := { instr := .addImm 1 2 9, resolvedSrc1 := some 0#32, resolvedSrc2 := some 9#32, result := some 9#32 }
    hq := [1, 1] }

/-- A writer of `r0` with result 7, then a load of `r1`, then a reader of `r0` first and `r1` second (C5). -/
def keptForward : Small :=
  { accessing (loadRecord 0x100#32) [0, 1] with
    l1 := { instr := .sub 4 0 1, resolvedSrc1 := some 0#32, resolvedSrc2 := some 0#32, result := none }
    l3 := addRecord }

/-- An instruction in the Fetch latch. -/
def decoding (i : Instr) : Small := { Engine.reset with l0 := Latch.fresh i }

/-- A Jump in the Fetch latch. -/
def jumping : Small := decoding (.j 0x2000)

/-! ### One step each -/

/-- R101: overflow wraps. -/
theorem test_add : (after (executing (.add 2 1 3) 0x7FFFFFFF#32 (some 1#32))).l2.result = some 0x80000000#32 :=
    by decide

/-- R102: the second source is subtracted from the first. -/
theorem test_sub : (after (executing (.sub 5 6 7) 0#32 (some 1#32))).l2.result = some 0xFFFFFFFF#32 := by decide

/-- R103: the low word of the product. -/
theorem test_mult : (after (executing (.mult 8 9 10) 0xFFFFFFFF#32 (some 0xFFFFFFFF#32))).l2.result = some 1#32 := by
  decide

/-- R175, R104: the immediate is the second operand, taken by Decode from the record; the sum wraps. -/
theorem test_addImm : (after (decoding (.addImm 2 1 5))).l1.resolvedSrc2 = some 5#32 ∧
    (after (executing (.addImm 2 1 5) 0xFFFFFFFF#32 (some 5#32))).l2.result = some 4#32 := by decide

/-- R105: subtracting -1 adds 1. -/
theorem test_subImm : (after (executing (.subImm 2 1 (-1)) 4#32 (some (-1#32)))).l2.result = some 5#32 := by decide

/-- R106: a negative factor. -/
theorem test_multImm :
    (after (executing (.multImm 2 1 (-2)) 3#32 (some (-2#32)))).l2.result = some 0xFFFFFFFA#32 := by
  decide

/-- R120: base 4 with offset -4 is address 0, and the address sum wraps. -/
theorem test_lw_address : (after (executing (.lw 1 2 (-4)) 4#32 none)).l2.resolvedSrc1 = some 0#32 ∧
    (after (executing (.lw 1 2 (-4)) 0#32 none)).l2.resolvedSrc1 = some 0xFFFFFFFC#32 := by decide

/-- R120, R60: the cell is read in the Memory cycle, lowest byte in bits 7:0. -/
theorem test_lw_cell :
    (after { accessing (loadRecord 0x100#32) [1] with mem := [(0x100, 7#8), (0x103, 1#8)] }).l3.result =
      some 0x01000007#32 := by decide

/-- R121, R60: the whole word is stored, and a zero byte leaves no entry. -/
theorem test_sw_cell :
    (after (accessing (storeRecord 0x00AB0007#32 0x100#32) [])).mem = [(0x100, 7#8), (0x102, 0xAB#8)] := by
  decide

/-- R57: misaligned comes before out of range, and nothing is stored. -/
theorem test_sw_faults :
    step (accessing (storeRecord 7#32 0x4001#32) []).pack =
      .fault (.dataMisaligned (recordFault .dataMisaligned (accessing (storeRecord 7#32 0x4001#32) [])).pack) ∧
    step (accessing (storeRecord 7#32 0x4000#32) []).pack =
      .fault (.dataOutOfRange (recordFault .dataOutOfRange (accessing (storeRecord 7#32 0x4000#32) [])).pack) :=
  ⟨rfl, rfl⟩

/-- R176: the pc goes to the target and the Fetch latch is flushed. -/
theorem test_j : (after jumping).pc = 0x2000#32 ∧ (after jumping).l0 = Latch.bubble := by decide

/-- R131, R269: an Empty word is fetched and counted; the first word of a program, it ends the run. -/
theorem test_empty : (after (oneWord 0#32)).fetched = 1#64 ∧ (after (oneWord 0#32)).pc = 0x1004#32 ∧
    (after (oneWord 0#32)).done = true := by decide

/-- R184, R21: register 0 is written like any other. -/
theorem test_writeback_r0 : readReg (after writing).x 0 = 7#32 ∧ (after writing).hq = [] := by decide

/-- R204: a load-use pair raises the stall. -/
theorem test_stall_raised : (after loadUse).stall = true ∧ (after loadUse).hq = [1] := by decide

/-- R208: the stalling cycle forwards the loaded 9 to both sources and lets the reader finish. -/
theorem test_stall_resolved : (after stalled).stall = false ∧ (after stalled).l3 = Latch.bubble ∧
    (after stalled).l2.result = some 18#32 := by decide

/-- R211: the older writer's value is forwarded, without a stall. -/
theorem test_two_writers : (after twoWriters).stall = false ∧ (after twoWriters).l2.result = some 18#32 := by decide

/-- R182, C5: a first source forwarded before the second one stalls keeps the forwarded value. -/
theorem test_kept_forward : (after keptForward).stall = true ∧ (after keptForward).l2.resolvedSrc1 = some 7#32 := by
  decide

/-- U11, U12: a load refuses ill-formed parameters and records. -/
theorem test_load_refusals :
    loadWords { codeBase := 0x1002 } [] (zeroRegs 32) [] = .error .badParameters ∧
    loadWords { codeBase := 0x3FFC } [0#32, 0#32] (zeroRegs 32) [] = .error .badParameters ∧
    loadWords { hqDepth := 2 } [] (zeroRegs 32) [] = .error .badParameters ∧
    loadWords {} [] (zeroRegs 32) [(1, 0#8)] = .error .badMemInit ∧
    loadProgram {} [.j 0x4000000] (zeroRegs 32) [] = .error .illFormedRecord := by decide

/-- The placed word is the one the next step fetches. -/
theorem test_withFetchWord : (after (State.reset.withFetchWord 32 0x24410005).engine).l0.instr = .addImm 2 1 5 :=
    by decide

/-! ### The invariant on the small states -/

/-- The invariant, as a check. -/
def soundCheck {p : Params} (s : Engine p) : Bool :=
  decide p.wf && memoryWf s.mem && memoryWithin p.xlen p.memBytes s.mem &&
  (s.l0.instr.wellFormed && s.l1.instr.wellFormed && s.l2.instr.wellFormed && s.l3.instr.wellFormed &&
    s.l4.instr.wellFormed) &&
  slotsFresh s.l0 && slotsDecoded s.l1 && (if s.stall = true then slotsDecoded s.l2 else slotsExecuted s.l2) &&
  slotsComplete s.l3 && slotsComplete s.l4 && decide (s.hq = boundaryQueue s) &&
  (!s.stall || (kindOf s.l3.instr == .load && (sourcesOf s.l2.instr).any fun r => destOf s.l3.instr == some r)) &&
  (match targetOf p.xlen s.l1.instr with
    | some t => s.pc == t && decide (s.l0 = Latch.bubble)
    | none => true) &&
  (!s.done || allEmpty s) && (s.fault || s.faultCause == 0#3)

theorem sound_of_check {p : Params} {s : Engine p} (h : soundCheck s = true) : Sound s := by
  simp only [soundCheck, Bool.and_eq_true] at h
  obtain ⟨⟨⟨⟨⟨⟨⟨⟨⟨⟨⟨⟨⟨h1, h2⟩, h3⟩, h4⟩, h5⟩, h6⟩, h7⟩, h8⟩, h9⟩, h10⟩, h11⟩, h12⟩, h13⟩, h14⟩ := h
  refine ⟨of_decide_eq_true h1, h2, h3, ?_, h5, h6, h7, h8, h9, of_decide_eq_true h10, ?_, ?_, ?_, ?_⟩
  · simpa only [Bool.and_eq_true] using h4
  · intro hs
    simp [hs] at h11
    exact h11
  · intro t ht
    simp [ht] at h12
    exact h12
  · intro hd
    simpa [hd] using h13
  · intro hf
    simpa [hf] using h14

theorem sound_oneWord : Sound (oneWord 0x04411800#32) := sound_of_check (by decide)

theorem sound_loadUse : Sound loadUse := sound_of_check (by decide)

theorem sound_stalled : Sound stalled := sound_of_check (by decide)

theorem sound_twoWriters : Sound twoWriters := sound_of_check (by decide)

/-! ### Witnesses: a state and operands that meet the hypotheses of each statement, clause by clause -/

/-- EncodeIsInverseOfDecode: see also the `test_wf_…` theorems for the ends of the ranges. -/
theorem witness_encode : (Instr.sub 31 0 31).wellFormed = true ∧ decode 0x8000100C#32 = .ok (.j 0x100C) := ⟨rfl, rfl⟩

theorem witness_kinds : kindOf (.multImm 1 2 3) = .arithmetic ∧ kindOf (.lw 1 2 0) = .load ∧
    kindOf (.sw 1 2 0) = .store ∧ kindOf (.j 0) = .jump ∧ kindOf .empty = .empty := by decide

/-- AccessPrimitivesCheckThenAccess: the three clauses around the end of a 0x4000-byte memory. -/
theorem witness_access : (0x4001#32).toNat % 4 ≠ 0 ∧ (0x3FFD#32).toNat % 4 ≠ 0 ∧
    ((0x4000#32).toNat % 4 = 0 ∧ 0x4000 ≤ (0x4000#32).toNat) ∧
    ((0x3FFC#32).toNat % 4 = 0 ∧ (0x3FFC#32).toNat < 0x4000 ∧ memoryWf [(0, 1#8)] = true) := by decide

/-- The statements about an instruction alone in the pipeline. -/
theorem witness_quiet (v : Word 32) : Quiet (quietAt v) := ⟨by decide, rfl, rfl, rfl, rfl, rfl, rfl, rfl⟩

/-- LwLoadsCell, SwStoresCell: the three clauses, at the last cell, at the end of memory and one byte into a cell. -/
theorem witness_addresses :
    dataAddressFault 0x4000 (readReg (quietAt 0x3FFC#32).x 2 + (0#16).signExtend 32) = none ∧
    (readReg (quietAt 0x3FFC#32).x 2 + (4#16).signExtend 32).toNat = 0x4000 ∧
    (readReg (quietAt 0x3FFC#32).x 2 + (1#16).signExtend 32).toNat % 4 ≠ 0 ∧
      memoryWf (quietAt 0x3FFC#32).mem = true := by
  decide

theorem witness_StepRunsDecodedInstruction :
    running (oneWord 0x04411800#32) = true ∧ (oneWord 0x04411800#32).stall = false ∧
    inProgram oneWordParams (oneWord 0x04411800#32).pc = true ∧
    (oneWord 0x04411800#32).pc.toNat % 4 = 0 ∧
    (oneWord 0x04411800#32).pc.toNat < oneWordParams.memBytes ∧
    decodeCell (readCell 32 (oneWord 0x04411800#32).mem (oneWord 0x04411800#32).pc.toNat) = .ok (.add 2 1 3) :=
  ⟨rfl, rfl, by decide, by decide, by decide, rfl⟩

theorem witness_PlacedWordIsRunNext : memoryWf State.reset.engine.mem = true ∧
    decodeTableWord 32 0 = some .empty := ⟨rfl, rfl⟩

/-- OnlyWritebackWritesRegisters: a record with a destination, and one without. -/
theorem witness_OnlyWritebackWritesRegisters : isNext (step writing.pack) = true ∧ destOf writing.l3.instr = some 0 ∧
    isNext (step loadUse.pack) = true ∧ destOf loadUse.l3.instr = none := by decide

/-- DecodeReadsRegistersOfCycleStart: a register second operand, an immediate, a Load. -/
theorem witness_DecodeReadsRegistersOfCycleStart :
    ∀ i ∈ [Instr.sub 1 2 3, .addImm 1 2 3, .lw 1 2 0], isNext (step (decoding i).pack) = true ∧
      (after (decoding i)).l1.instr = i := by decide

/-- OnlyStoresWriteMemory: a store at the last cell, no store, a load. -/
theorem witness_OnlyStoresWriteMemory :
    isNext (step (accessing (storeRecord 7#32 0x3FFC#32) []).pack) = true ∧
    storeAddress (accessing (storeRecord 7#32 0x3FFC#32) []) = some 0x3FFC#32 ∧
    isNext (step (accessing (loadRecord 0x3FFC#32) [1]).pack) = true ∧
    storeAddress (accessing (loadRecord 0x3FFC#32) [1]) = none ∧
    kindOf (enteringMemory (accessing (loadRecord 0x3FFC#32) [1])).instr = .load := by decide

/-- LatchesAdvanceOrHold: an unstalled cycle with an Arithmetic and one with a Load entering Memory, and a stalling
one. -/
theorem witness_LatchesAdvanceOrHold : isNext (step forwarding.pack) = true ∧ forwarding.stall = false ∧
    kindOf forwarding.l2.instr = .arithmetic ∧ kindOf loadUse.l2.instr = .load ∧
      isNext (step loadUse.pack) = true ∧ loadUse.stall = false ∧
    isNext (step stalled.pack) = true ∧ stalled.stall = true ∧ targetOf 32 stalled.l1.instr = none := by
  decide

theorem witness_MeaningFrame : isNext (exec (.j 0) loadUse.pack) = true ∧ targetOf 32 loadUse.l0.instr = none ∧
    isNext (exec .empty stalled.pack) = true := by decide

/-- PcChangesOnlyByFetchAndJump: a Jump in Decode, a fetch, neither. -/
theorem witness_PcChangesOnlyByFetchAndJump :
    isNext (step jumping.pack) = true ∧ targetOf 32 (enteringDecode jumping).instr = some 0x2000#32 ∧
    isNext (step (oneWord 0#32).pack) = true ∧ targetOf 32 (enteringDecode (oneWord 0#32)).instr = none ∧
    fetches (oneWord 0#32) = true ∧ fetches loadUse = false := by decide

/-- ExecuteComputesFromOperandsSeen: the three clauses, the store with a forwarded value. -/
theorem witness_ExecuteComputesFromOperandsSeen :
    isNext (step forwarding.pack) = true ∧ (after forwarding).stall = false ∧
    (after forwarding).l2.resolvedSrc1 = some 7#32 ∧
    isNext (step (executing (.lw 1 2 4) 0#32 none).pack) = true ∧
    (after (executing (.lw 1 2 4) 0#32 none)).stall = false ∧
    isNext (step (executing (.sub 1 2 3) 5#32 (some 6#32)).pack) = true ∧
    opOf (enteringExecute (executing (.sub 1 2 3) 5#32 (some 6#32))).instr = some .sub := by decide

/-- StalledPassKeepsTheRecord: a first source forwarded, and one that blocks. -/
theorem witness_StalledPassKeepsTheRecord : isNext (step keptForward.pack) = true ∧ (after keptForward).stall = true ∧
    src1Of (enteringExecute keptForward).instr = some 0 ∧ 0 ∈ keptForward.hq ∧
    forward (enteringMemory keptForward) (enteringWriteback keptForward) 0 = some 7#32 ∧
    isNext (step loadUse.pack) = true ∧ (after loadUse).stall = true ∧ src1Of (enteringExecute loadUse).instr = some 1 ∧
    forward (enteringMemory loadUse) (enteringWriteback loadUse) 1 = none := by decide

/-- StallRaisedExactlyWhenBlocked, StallIsLoadUseAndLastsOneCycle. -/
theorem witness_stall : Sound loadUse ∧ isNext (step loadUse.pack) = true ∧ (after loadUse).stall = true ∧
    (1 : RegId) ∈ sourcesOf (enteringExecute loadUse).instr ∧ blocked loadUse 1 :=
  ⟨sound_loadUse, by decide, by decide, by decide, ⟨by decide, by decide⟩⟩

/-- HazardQueueHoldsTheInFlightDestinations, HazardQueueNeverOverflows, EveryStepKeepsTheInvariant: a full queue. -/
theorem witness_hazardQueue : Sound twoWriters ∧ twoWriters.hq.length = 2 ∧ isNext (step twoWriters.pack) = true ∧
    destOf (enteringWriteback twoWriters).instr = some 1 ∧ (earlyEffects none twoWriters).hq = [1, 1] :=
  ⟨sound_twoWriters, by decide, by decide, by decide, by decide⟩

theorem witness_StallingCycleHasNoUpstreamEffect :
    Sound stalled ∧ stalled.stall = true ∧ isNext (step stalled.pack) = true :=
  ⟨sound_stalled, by decide, by decide⟩

/-- TwoWritersThenLoadForwardsTheOlder, first clause; `witness_quiet` and this data address meet the second. -/
theorem witness_TwoWritersThenLoadForwardsTheOlder :
    Sound twoWriters ∧ kindOf (enteringMemory twoWriters).instr = .load ∧
    destOf (enteringMemory twoWriters).instr = some 1 ∧ destOf (enteringWriteback twoWriters).instr = some 1 ∧
    dataAddressFault 0x4000
      (readReg (writeReg (quietAt 8#32).x 1 (readReg (quietAt 8#32).x 2 + 4#32)) 3 + 0#32) = none :=
  ⟨sound_twoWriters, by decide, by decide, by decide, by decide⟩

/-- FetchIsAttemptedOnlyInTheProgram: the pc outside the program, misaligned in it, and its last word. -/
theorem witness_FetchIsAttemptedOnlyInTheProgram :
    running (oneWord 0#32) = true ∧ (oneWord 0#32).stall = false ∧
    inProgram oneWordParams 0x1004#32 = false ∧ inProgram oneWordParams 0xFFF#32 = false ∧
    inProgram oneWordParams 0x1003#32 = true ∧ (0x1003#32).toNat % 4 ≠ 0 ∧
    inProgram oneWordParams 0x1000#32 = true ∧ oneWordParams.wf ∧
    running loadUse = true ∧ loadUse.stall = false ∧ inProgram Params.default loadUse.pc = false ∧
    isNext (step loadUse.pack) = true ∧ targetOf 32 loadUse.l0.instr = none := by decide

theorem witness_IllegalWordFaultsWhenFetched :
    running (oneWord 1#32) = true ∧ (oneWord 1#32).stall = false ∧
    inProgram oneWordParams (oneWord 1#32).pc = true ∧ (oneWord 1#32).pc.toNat % 4 = 0 ∧
    oneWordParams.wf ∧ decodeCell (readCell 32 (oneWord 1#32).mem (oneWord 1#32).pc.toNat) = .error .emptyNonzero :=
  ⟨rfl, rfl, by decide, by decide, by decide, rfl⟩

/-- DataAccessFaults, StepOutcomeExactly, FaultingCycleCommitsNothing: misaligned, and out of range. -/
theorem witness_DataAccessFaults :
    Sound (accessing (loadRecord 0x3FFE#32) [1]) ∧ Sound (accessing (loadRecord 0x4000#32) [1]) ∧
    running (accessing (loadRecord 0x4000#32) [1]) = true ∧
    fetchRequest (accessing (loadRecord 0x4000#32) [1]) = .ok none ∧
    accessAddress (enteringMemory (accessing (loadRecord 0x4000#32) [1])) = some 0x4000#32 ∧
    accessFault (accessing (loadRecord 0x3FFE#32) [1]) = some .dataMisaligned ∧
    accessFault (accessing (loadRecord 0x4000#32) [1]) = some .dataOutOfRange :=
  ⟨sound_of_check (by decide), sound_of_check (by decide), by decide, rfl, by decide, by decide, by decide⟩

/-- StepOutcomeExactly: the two Fetch faults, and no fault. -/
theorem witness_StepOutcomeExactly :
    Sound (oneWord 1#32) ∧ fetchRequest (oneWord 1#32) = .error .illegalInstruction ∧
    Sound { oneWord 1#32 with pc := 0x1002#32 } ∧
    fetchRequest { oneWord 1#32 with pc := 0x1002#32 } = .error .fetchMisaligned ∧
    accessFault loadUse = none ∧ running loadUse = true :=
  ⟨sound_of_check (by decide), rfl, sound_of_check (by decide), rfl, by decide, by decide⟩

/-- StoppedEngineStandsStill, OnlyResetLeavesAStoppedState: either flag, and a step that faults. -/
theorem witness_stopped : (after Engine.reset).done = true ∧
    (stoppedState (.illegalInstruction (recordFault .illegalInstruction (oneWord 1#32)).pack)).engine.fault = true ∧
    step (oneWord 1#32).pack = takeFault .illegalInstruction (oneWord 1#32) := ⟨by decide, rfl, rfl⟩

/-- LoadedStateIsTheResetTable, InvariantHoldsAfterLoad: an accepted load of two words. -/
theorem witness_load :
    (match loadWords {} [0x24200001#32, 0#32] (Vector.replicate 32 5#32) [(0x100, 7#8)] with
      | .ok s => decide ((readCell 32 s.engine.mem 0x1000).toNat = 0x24200001 ∧
          (readCell 32 s.engine.mem 0x100).toNat = 7 ∧ s.engine.pc.toNat = 0x1000)
      | .error _ => false) = true := by decide

/-- LoadedStateIsTheResetTable, OnlyResetLeavesAStoppedState: an accepted load whose CODE_BASE is the last address. -/
theorem witness_lastCodeBase :
    (match loadWords { codeBase := 2 ^ 32 - 4, memBytes := 2 ^ 32 } [0#32] (zeroRegs 32) [] with
      | .ok s => s.engine.pc.toNat == 2 ^ 32 - 4
      | .error _ => false) = true := by decide

/-- CodeBaseAtTheEndOfTheAddresses: the accepted load whose CODE_BASE is no address; with one word more, or with
CODE_BASE one cell further, it is refused. -/
theorem witness_CodeBaseAtTheEndOfTheAddresses :
    (match loadWords { codeBase := 2 ^ 32, memBytes := 2 ^ 32 } [] (zeroRegs 32) [] with
      | .ok s => s.engine.pc.toNat == 0
      | .error _ => false) = true ∧
    loadWords { codeBase := 2 ^ 32, memBytes := 2 ^ 32 } [0#32] (zeroRegs 32) [] = .error .badParameters ∧
    loadWords { codeBase := 2 ^ 32 + 4, memBytes := 2 ^ 32 } [] (zeroRegs 32) [] = .error .badParameters := by decide

/-- RunEndsAfterTheProgram: a stalled pipeline whose pc has left the program. -/
theorem witness_RunEndsAfterTheProgram : Sound stalled ∧
    inProgram Params.default stalled.pc = false ∧ targetOf 32 stalled.l0.instr = none ∧
    targetOf 32 stalled.l1.instr = none := ⟨sound_stalled, by decide, by decide, by decide⟩

/-- EveryCycleCountsAndTestsTermination, CountersCountAndAreNotRead, NoContractViolation, MeaningCompletesExactly: a
sound state with a next state that sets `done`, and one that does not. -/
theorem witness_step : Sound (oneWord 0x04411800#32) ∧ isNext (step (oneWord 0x04411800#32).pack) = true ∧
    (after (oneWord 0x04411800#32)).done = false ∧ isNext (step State.reset) = true ∧
    (after Engine.reset).done = true := ⟨sound_oneWord, by decide, by decide, by decide, by decide⟩

/-- Whether sequential readings end without a fault. -/
def isOk {ε α : Type} : Except ε α → Bool
  | .ok _ => true
  | .error _ => false

/-- ProducerReachesConsumerByDistance: a Load of the last cell read directly behind it, and an Arithmetic producer. -/
theorem witness_ProducerReachesConsumerByDistance : Quiet (quietAt 0x3FFC#32) ∧
    isOk (seqExec 0x4000 (.lw 1 2 0) (seqOf (quietAt 0x3FFC#32))) = true ∧ writesRegister (.lw 1 2 0) = true ∧
    readsRegisters (.sw 1 3 0) = true ∧ (∃ r ∈ sourcesOf (.sw 1 3 0), destOf (.lw 1 2 0) = some r) ∧
    isOk (seqExec 0x4000 (.addImm 1 2 9) (seqOf (quietAt 0x3FFC#32))) = true :=
  ⟨witness_quiet _, by decide, by decide, by decide, by decide, by decide⟩

/-- ArithmeticForwardingByDistance, LoadUseCostsOneCycle, StoreThenLoadRoundTrip: the last cell of memory. -/
theorem witness_distance : Quiet (quietAt 0x3FF8#32) ∧ memoryWf (quietAt 0x3FF8#32).mem = true ∧ 4 ≤ 4 ∧
    dataAddressFault 0x4000 (readReg (quietAt 0x3FF8#32).x 31 + 4#32) = none :=
  ⟨witness_quiet _, rfl, Nat.le_refl 4, by decide⟩

/-- PaddedPipelineMatchesSequentialReference: a sequence that completes, and one that faults. -/
theorem witness_PaddedPipelineMatchesSequentialReference :
    (∀ i ∈ [Instr.addImm 1 0 4, .sw 1 0 0], i ≠ .empty) ∧
    (match seqFeed 0x4000 [.addImm 1 0 4, .sw 1 0 0] (seqOf (quietAt 0#32)) with
      | .ok t => decide (t.mem = [(0, 4#8)])
      | .error _ => false) = true ∧
    (match seqFeed 0x4000 [.lw 1 0 1] (seqOf (quietAt 0#32)) with
      | .ok _ => false
      | .error c => decide (c = .dataMisaligned)) = true := by decide

/-- Whether a fetch takes an Empty word. -/
def takesEmpty : Except FaultCause (Option Instr) → Bool
  | .ok (some i) => isEmpty i
  | .ok none => false
  | .error _ => false

/-- A loaded program of eight words. -/
def eightWords (ws : List (Word 32)) : Engine { progLen := 8 } :=
  Engine.atReset { progLen := 8 } (zeroRegs 32) (writeCells [] 0x1000 ws)

/-- The turns 1 to `n - 1` of the reference from `s` take Empty words, in its memory and in that of `s`. -/
def emptyTurns {p : Params} (n : Nat) (s : Engine p) : Bool :=
  (List.range n).all fun k => k == 0 || match seqRun p k (seqOf s) with
    | .unfinished u => takesEmpty (fetchWord p u.mem u.pc) && takesEmpty (fetchWord p s.mem u.pc)
    | .finished _ => false
    | .faulted _ => false

/-- Whether the reference is still running after `n` turns. -/
def stillRuns {p : Params} (n : Nat) (s : Engine p) : Bool :=
  match seqRun p n (seqOf s) with
  | .unfinished _ => true
  | .finished _ => false
  | .faulted _ => false

/-- FiveCyclesAreTheSequentialTurns: a store and its padding, and a jump over one word to Empty words. -/
theorem witness_FiveCyclesAreTheSequentialTurns :
    fetchWord { progLen := 8 } (eightWords [encode (.sw 1 0 8)]).mem 0x1000#32 = .ok (some (.sw 1 0 8)) ∧
    emptyTurns 5 (eightWords [encode (.sw 1 0 8)]) = true ∧ stillRuns 5 (eightWords [encode (.sw 1 0 8)]) = true ∧
    fetchWord { progLen := 8 } (eightWords [encode (.j 0x1008), encode (.sw 1 0 0)]).mem 0x1000#32 =
      .ok (some (.j 0x1008)) ∧
    emptyTurns 4 (eightWords [encode (.j 0x1008), encode (.sw 1 0 0)]) = true ∧
    stillRuns 4 (eightWords [encode (.j 0x1008), encode (.sw 1 0 0)]) = true :=
  ⟨rfl, by decide, by decide, rfl, by decide, by decide⟩

theorem witness_eightWords_quiet (ws : List (Word 32)) : Quiet (eightWords ws) :=
  ⟨by decide, rfl, rfl, rfl, rfl, rfl, rfl, rfl⟩

/-- The check holds at no boundary of a run that stops within `n` cycles. -/
def neverWithin (broken : {p : Params} → Engine p → Bool) : Nat → State → Bool
  | 0, _ => false
  | n + 1, s => !broken s.engine && match step s with
    | .next t => neverWithin broken n t
    | .fault _ => true
    | .refused _ => true

theorem neverAlong_of_neverWithin (broken : {p : Params} → Engine p → Bool) (n : Nat) (s : State)
    (h : neverWithin broken n s = true) : neverAlong broken s := by
  intro k
  induction k generalizing n s with
  | zero =>
    intro t ht
    cases ht
    cases n with
    | zero => cases h
    | succ n =>
      simp only [neverWithin, Bool.and_eq_true, Bool.not_eq_true'] at h
      exact h.1
  | succ k ih =>
    intro t ht
    cases n with
    | zero => cases h
    | succ n =>
      simp only [neverWithin, Bool.and_eq_true] at h
      simp only [stateAfter] at ht
      split at ht
      · rename_i u hu
        rw [hu] at h
        exact ih n u h.2 t ht
      · cases ht
      · cases ht

/-- A program loaded at the default parameters: its state, or the reset state. -/
def loaded (program : List Instr) : State :=
  match loadProgram {} program (zeroRegs 32) [] with
  | .ok s => s
  | .error _ => State.reset

/-- The register `r` when the sequential reference, and when the run, has ended. -/
def endsWith (n : Nat) (s : State) (r : RegId) : Option Nat × Option Nat :=
  (match seqRun s.params n (seqOf s.engine) with
    | .finished t => some (readReg t.x r).toNat
    | .faulted _ => none
    | .unfinished _ => none,
   match run n s with
    | .done e => some (readReg e.engine.x r).toNat
    | .faulted _ => none
    | .unfinished _ => none)

/-- HazardFreeProgramsMatchSequential: a load, its reader one word behind, and a store. -/
theorem witness_HazardFreeProgramsMatchSequential :
    neverAlong hazardOfR270 (loaded [.lw 1 0 0, .addImm 2 1 5, .sw 2 0 0]) ∧
    neverAlong lostForward (loaded [.lw 1 0 0, .addImm 2 1 5, .sw 2 0 0]) ∧
    neverAlong shadowFault (loaded [.lw 1 0 0, .addImm 2 1 5, .sw 2 0 0]) ∧
    endsWith 12 (loaded [.lw 1 0 0, .addImm 2 1 5, .sw 2 0 0]) 2 = (some 5, some 5) :=
  ⟨neverAlong_of_neverWithin _ 12 _ (by decide), neverAlong_of_neverWithin _ 12 _ (by decide),
    neverAlong_of_neverWithin _ 12 _ (by decide), by decide⟩

/-- HazardFreeProgramsMatchSequentialAsWorded: conditions (a) to (d) of R270 hold of this run, whose third record
loses a forward (R182). -/
theorem test_R270_conditions :
    neverAlong hazardOfR270 (loaded [.addImm 6 0 3, .lw 7 2 0, .add 8 7 6]) ∧
    lostForward ((stateAfter 4 (loaded [.addImm 6 0 3, .lw 7 2 0, .add 8 7 6])).getD State.reset).engine = true ∧
    endsWith 12 (loaded [.addImm 6 0 3, .lw 7 2 0, .add 8 7 6]) 8 = (some 3, some 0) :=
  ⟨neverAlong_of_neverWithin _ 12 _ (by decide), by decide, by decide⟩

/-- R268, R264, R265, R269, R74: each condition is broken somewhere. -/
theorem test_hazards :
    wrongForward twoWriters = true ∧ wrongForward loadUse = false ∧
    staleRead { stalled with stall := false, l4 := stalled.l3, l3 := Latch.bubble, l1 := stalled.l2 } = true ∧
    endsEarly (after (eightWords [])) = true ∧ endsEarly (after (oneWord 0#32)) = false ∧
    fetchesPendingStore { eightWords [] with
      l0 := Latch.fresh (.sw 1 0 0x1000), pc := 0x1000#32 } = true ∧
    shadowFault { oneWord 1#32 with l0 := Latch.fresh (.j 0) } = true := by decide

end Sys2Proof.Tests
end

section
/-! PROOF. The registers are written by Writeback alone (R22, R184), and the counters are not read (R34). -/

namespace Sys2Proof.Machine

open Sys2Proof

/-! ### The register write of a step -/

/-- All that a step does to the registers: the destination of the record entering Writeback takes its result, or,
without a destination, nothing (R22, R184). -/
theorem step_registers {p : Params} {s t : Engine p} (h : step s.pack = .next t.pack) :
    (∃ d v, destOf s.l3.instr = some d ∧ s.l3.result = some v ∧ t.x = writeReg s.x d v) ∨
      (destOf s.l3.instr = none ∧ t.x = s.x) := by
  obtain ⟨f, -, -, hl⟩ := step_late h
  obtain ⟨s3, -, -, -, -, hx⟩ := lateEffects_cases hl
  simp only [early_l4, early_x, enteringWriteback] at hx
  rcases hx with ⟨d, v, _, hd, hv, hx, -⟩ | ⟨hd, hx, -⟩
  · exact .inl ⟨d, v, hd, hv, hx⟩
  · exact .inr ⟨hd, hx⟩

/-- The records with a destination: the Arithmetic ones in both forms, and `lw` (R28). -/
theorem destOf_isSome_iff (i : Instr) : (destOf i).isSome = true ↔
    (∃ d a b, i = .add d a b ∨ i = .sub d a b ∨ i = .mult d a b) ∨
    (∃ d a v, i = .addImm d a v ∨ i = .subImm d a v ∨ i = .multImm d a v) ∨ ∃ d b v, i = .lw d b v := by
  cases i <;> simp

/-- Settles O19, from the one register write a step can do and the rules of a register read after it. -/
theorem onlyWritebackWritesRegisters : Obligations.OnlyWritebackWritesRegisters := by
  refine ⟨fun p s t h => ?_, destOf_isSome_iff⟩
  rcases step_registers h with ⟨d, v, hd, hv, hx⟩ | ⟨hd, hx⟩
  · rw [hd, hx]
    refine ⟨?_, fun hn => by cases hn⟩
    rintro _ ⟨⟩
    exact ⟨v, hv, rfl, readReg_writeReg_same s.x d v, fun r hr => readReg_writeReg_ne s.x v hr⟩
  · rw [hd]
    exact ⟨fun d hs => (by cases hs), fun _ => hx⟩

/-! ### The counters set to any values -/

/-- The engine with other values in its two counters (R34). -/
def Engine.setCounters {p : Params} (s : Engine p) (c g : Counter p.ctrW) : Engine p :=
  { s with cycle := c, fetched := g }

section setCounters

variable {p : Params} (s : Engine p) (c g : Counter p.ctrW)

@[simp] theorem setCounters_x : (s.setCounters c g).x = s.x := rfl

@[simp] theorem setCounters_mem : (s.setCounters c g).mem = s.mem := rfl

@[simp] theorem setCounters_l2 : (s.setCounters c g).l2 = s.l2 := rfl

@[simp] theorem setCounters_l3 : (s.setCounters c g).l3 = s.l3 := rfl

@[simp] theorem setCounters_l4 : (s.setCounters c g).l4 = s.l4 := rfl

@[simp] theorem setCounters_hq : (s.setCounters c g).hq = s.hq := rfl

@[simp] theorem setCounters_stall : (s.setCounters c g).stall = s.stall := rfl

/-! ### Every part of a cycle commutes with setting the counters -/

theorem running_setCounters : running (s.setCounters c g) = running s := rfl

theorem fetchRequest_setCounters : fetchRequest (s.setCounters c g) = fetchRequest s := rfl

theorem advance_setCounters : advance (s.setCounters c g) = (advance s).setCounters c g := by
  unfold advance
  rw [setCounters_stall]
  split <;> rfl

/-- Fetch is the one stage that touches a counter: it counts the instruction it takes (R173). -/
theorem fetchEffect_setCounters (stalling : Bool) (f : Option Instr) :
    fetchEffect stalling f (s.setCounters c g) = (fetchEffect stalling f s).setCounters c
      (if stalling = true ∨ f = none then g else g + 1#p.ctrW) := by
  cases stalling <;> cases f <;> rfl

theorem decodeEffect_setCounters : decodeEffect (s.setCounters c g) = (decodeEffect s).setCounters c g := by
  unfold decodeEffect
  dsimp only [Engine.setCounters]
  split <;> rfl

theorem earlyEffects_setCounters (f : Option Instr) :
    earlyEffects f (s.setCounters c g) = (earlyEffects f s).setCounters c
      (if s.stall = true ∨ f = none then g else g + 1#p.ctrW) := by
  unfold earlyEffects
  rw [advance_setCounters, fetchEffect_setCounters, decodeEffect_setCounters, setCounters_stall]

theorem executeFinish_setCounters (l : Latch p.xlen) :
    executeFinish l (s.setCounters c g) = (executeFinish l s).map (·.setCounters c g) := by
  unfold executeFinish
  rw [setCounters_hq]
  split
  · split
    · rfl
    · split <;> rfl
  · split <;> rfl

theorem executeEffect_setCounters :
    executeEffect (s.setCounters c g) = (executeEffect s).map (·.setCounters c g) := by
  unfold executeEffect
  simp only [setCounters_l2, setCounters_l3, setCounters_l4, setCounters_hq, executeFinish_setCounters]
  split
  · split
    · rfl
    · split <;> rfl
  · rfl

theorem storeEffect_setCounters :
    storeEffect (s.setCounters c g) = (storeEffect s).map (·.setCounters c g) := by
  unfold storeEffect
  simp only [setCounters_l3, setCounters_mem]
  split
  · split <;> rfl
  · rfl

theorem loadEffect_setCounters :
    loadEffect (s.setCounters c g) = (loadEffect s).map (·.setCounters c g) := by
  unfold loadEffect
  simp only [setCounters_l3, setCounters_mem]
  split
  · split <;> rfl
  · rfl

theorem memoryEffect_setCounters :
    memoryEffect (s.setCounters c g) = (memoryEffect s).map (·.setCounters c g) := by
  unfold memoryEffect
  rw [setCounters_l3, storeEffect_setCounters, loadEffect_setCounters]
  split
  · rfl
  · split <;> rfl

theorem writebackEffect_setCounters :
    writebackEffect (s.setCounters c g) = (writebackEffect s).map (·.setCounters c g) := by
  unfold writebackEffect
  simp only [setCounters_l4, setCounters_x]
  split
  · split <;> rfl
  · rfl

theorem retire_setCounters : retire (s.setCounters c g) = (retire s).map (·.setCounters c g) := by
  unfold retire
  rw [setCounters_l4, setCounters_hq]
  split
  · split <;> rfl
  · rfl

/-- The close of a cycle counts it (R149). -/
theorem closeCycle_setCounters :
    closeCycle (s.setCounters c g) = (closeCycle s).setCounters (c + 1#p.ctrW) g := rfl

end setCounters

/-- The late effects with other counters: the same state, one cycle more counted (R146 to R149). -/
theorem lateEffects_setCounters {p : Params} {s t : Engine p} (c g : Counter p.ctrW) (h : lateEffects s = .ok t) :
    lateEffects (s.setCounters c g) = .ok (t.setCounters (c + 1#p.ctrW) g) := by
  obtain ⟨s3, s4, s5, s6, h3, h4, h5, h6, rfl⟩ := lateEffects_ok.1 h
  refine lateEffects_ok.2 ⟨s3.setCounters c g, s4.setCounters c g, s5.setCounters c g, s6.setCounters c g,
    ?_, ?_, ?_, ?_, (closeCycle_setCounters s6 c g).symm⟩
  · rw [executeEffect_setCounters, h3]; rfl
  · rw [memoryEffect_setCounters, h4]; rfl
  · rw [writebackEffect_setCounters, h5]; rfl
  · rw [retire_setCounters, h6]; rfl

/-- Where Fetch does not fault it takes an instruction exactly when the pc is in the program (R171, R172). -/
theorem fetchWord_isSome {p : Params} {m : Memory} {pc : Word p.xlen} {f : Option Instr}
    (h : fetchWord p m pc = .ok f) : f.isSome = inProgram p pc := by
  unfold fetchWord at h
  split at h
  · rename_i hin
    split at h
    · cases h
    · split at h
      · cases h
      · split at h
        · cases h; exact hin.symm
        · cases h
  · rename_i hout
    cases h
    simpa using hout

/-- Where Fetch does not fault it takes an instruction exactly when the cycle fetches (R171, R172). -/
theorem fetchRequest_isSome {p : Params} {s : Engine p} {f : Option Instr} (h : fetchRequest s = .ok f) :
    f.isSome = fetches s := by
  unfold fetchRequest at h
  unfold fetches
  split at h
  · rename_i hs
    cases h
    simp [hs]
  · rename_i hs
    simpa [hs] using fetchWord_isSome h

/-- Fetch leaves the fetched count as it is exactly when the cycle does not fetch (R171 to R173). -/
theorem stalls_or_takes_none_iff {p : Params} {s : Engine p} {f : Option Instr} (h : fetchRequest s = .ok f) :
    (s.stall = true ∨ f = none) ↔ ¬ fetches s = true := by
  rw [← fetchRequest_isSome h, Option.not_isSome_iff_eq_none, or_iff_right_iff_imp]
  intro hs
  have : fetches s = false := by simp [fetches, hs]
  rwa [← fetchRequest_isSome h, Option.isSome_eq_false_iff, Option.isNone_iff_eq_none] at this

/-- Settles O26: every part of a cycle commutes with setting the counters, but for the two additions. -/
theorem countersCountAndAreNotRead : Obligations.CountersCountAndAreNotRead := by
  intro p s t c g h
  obtain ⟨f, hf, hr, hl⟩ := step_late h
  have hfetched : (if s.stall = true ∨ f = none then g else g + 1#p.ctrW) =
      if fetches s = true then g + 1#p.ctrW else g := by
    rw [if_congr (stalls_or_takes_none_iff hf) rfl rfl, ite_not]
  have hlate := lateEffects_setCounters c (if s.stall = true ∨ f = none then g else g + 1#p.ctrW) hl
  rw [← earlyEffects_setCounters, hfetched] at hlate
  have hcycle : cycle f (s.setCounters c g).pack = .next (Engine.pack (t.setCounters (c + 1#p.ctrW)
      (if fetches s = true then g + 1#p.ctrW else g))) :=
    cycle_pack.2 ⟨(running_setCounters s c g).trans hr, hlate⟩
  exact step_next.2 ⟨f, (fetchRequest_setCounters s c g).trans hf, hcycle⟩

end Sys2Proof.Machine
end

section
/-! PROOF. How a step faults: Fetch's causes in the program range (R58, R170), the data faults of Memory (R57), and the
access primitives that raise them (R59). -/

namespace Sys2Proof.Machine

open Sys2Proof

/-! ### The check of a data address (R57) -/

/-- The check of alignment comes first (R59). -/
theorem dataAddressFault_of_misaligned {n k : Nat} {addr : Word n} (h : addr.toNat % 4 ≠ 0) :
    dataAddressFault k addr = some .dataMisaligned := if_pos h

theorem dataAddressFault_of_outOfRange {n k : Nat} {addr : Word n} (h4 : addr.toNat % 4 = 0) (hk : k ≤ addr.toNat) :
    dataAddressFault k addr = some .dataOutOfRange := by
  simp [dataAddressFault, h4, hk]

/-- A data address has no faults but these two (R57). -/
theorem dataAddressFault_eq_some {n k : Nat} {addr : Word n} {c : FaultCause} :
    dataAddressFault k addr = some c ↔ (addr.toNat % 4 ≠ 0 ∧ c = .dataMisaligned) ∨
      (addr.toNat % 4 = 0 ∧ k ≤ addr.toNat ∧ c = .dataOutOfRange) := by
  unfold dataAddressFault
  split
  · rename_i h; simp [h, eq_comm]
  · rename_i h
    have h4 : addr.toNat % 4 = 0 := not_not.1 h
    split
    · rename_i hk; simp [h4, hk, eq_comm]
    · rename_i hk; simp [h4, hk]

/-! ### The access primitives (R59) -/

/-- `MemRead` faults exactly as its address check does. -/
theorem memRead_error {n k : Nat} {m : Memory} {addr : Word n} {c : FaultCause} :
    memRead k m addr = .error c ↔ dataAddressFault k addr = some c := by
  unfold memRead
  cases dataAddressFault k addr <;> simp

/-- `MemWrite` faults exactly as its address check does. -/
theorem memWrite_error {n k : Nat} {m : Memory} {addr v : Word n} {c : FaultCause} :
    memWrite k m addr v = .error c ↔ dataAddressFault k addr = some c := by
  unfold memWrite
  cases dataAddressFault k addr <;> simp

/-- At XLEN = 32 a cell's bytes stand at its own address (R51, R60). -/
theorem cellBase_of_aligned {a : Nat} (h : a % 4 = 0) : cellBase 32 a = a :=
  Nat.div_mul_cancel (Nat.dvd_of_mod_eq_zero h)

/-- Settles O5, from the address check and the laws of a cell written. -/
theorem accessPrimitivesCheckThenAccess : Obligations.AccessPrimitivesCheckThenAccess := by
  intro n memBytes m addr v
  refine ⟨fun h => ?_, fun h4 hk => ?_, fun h4 hk hm => ?_⟩
  · have hf : dataAddressFault memBytes addr = some .dataMisaligned := dataAddressFault_of_misaligned h
    exact ⟨memRead_error.2 hf, memWrite_error.2 hf⟩
  · have hf : dataAddressFault memBytes addr = some .dataOutOfRange := dataAddressFault_of_outOfRange h4 hk
    exact ⟨memRead_error.2 hf, memWrite_error.2 hf⟩
  · have hf : dataAddressFault memBytes addr = none := dataAddressFault_none.2 ⟨h4, hk⟩
    refine ⟨memRead_ok.2 ⟨hf, rfl⟩, writeCell m addr.toNat v, memWrite_ok.2 ⟨hf, rfl⟩, memoryWf_writeCell _ v hm,
      readCell_writeCell_same _ v hm, fun a ha => readByte_writeCell_outside m v ha, ?_⟩
    rintro rfl
    exact ⟨cellBase_of_aligned h4, rfl⟩

/-! ### The faults of the stage effects after Decode -/

theorem writesMemory_iff (i : Instr) : writesMemory i = true ↔ kindOf i = .store := by cases i <;> simp

theorem readsMemory_iff (i : Instr) : readsMemory i = true ↔ kindOf i = .load := by cases i <;> simp

/-- A Store accesses the address in `resolvedSrc2` (R183). -/
theorem accessAddress_store {n : Nat} {l : Latch n} (h : kindOf l.instr = .store) :
    accessAddress l = l.resolvedSrc2 := by simp [accessAddress, h]

/-- A Load accesses the address in `resolvedSrc1` (R183). -/
theorem accessAddress_load {n : Nat} {l : Latch n} (h : kindOf l.instr = .load) :
    accessAddress l = l.resolvedSrc1 := by simp [accessAddress, h]

/-- Only a Load and a Store access memory (R183). -/
theorem kindOf_of_accessAddress {n : Nat} {l : Latch n} {addr : Word n} (h : accessAddress l = some addr) :
    kindOf l.instr = .load ∨ kindOf l.instr = .store := by
  unfold accessAddress at h
  split at h
  case h_1 hk => exact .inl hk
  case h_2 hk => exact .inr hk
  all_goals cases h

/-- The Memory effect faults on its data address, or on a slot that is not written (R57, R183). -/
theorem memoryEffect_error {p : Params} {s : Engine p} {c : FaultCause} (h : memoryEffect s = .error c) :
    c = .contractViolation ∨
      ∃ addr, accessAddress s.l3 = some addr ∧ dataAddressFault p.memBytes addr = some c := by
  unfold memoryEffect at h
  split at h
  · rename_i hw
    unfold storeEffect at h
    split at h
    · rename_i addr v h2 _
      split at h
      · cases h
      · cases h
        exact .inr ⟨addr, (accessAddress_store ((writesMemory_iff _).1 hw)).trans h2, memWrite_error.1 ‹_›⟩
    · cases h; exact .inl rfl
  · split at h
    · rename_i hr
      unfold loadEffect at h
      split at h
      · rename_i addr h1
        split at h
        · cases h
        · cases h
          exact .inr ⟨addr, (accessAddress_load ((readsMemory_iff _).1 hr)).trans h1, memRead_error.1 ‹_›⟩
      · cases h; exact .inl rfl
    · cases h

theorem writebackEffect_error {p : Params} {s : Engine p} {c : FaultCause} (h : writebackEffect s = .error c) :
    c = .contractViolation := by
  unfold writebackEffect at h
  split at h
  · split at h <;> cases h
    rfl
  · cases h

theorem retire_error {p : Params} {s : Engine p} {c : FaultCause} (h : retire s = .error c) :
    c = .contractViolation := by
  unfold retire at h
  split at h
  · split at h <;> cases h
    exact hqPop_error ‹_›
  · cases h

/-- Execute hands the Memory latch on as it is (R185). -/
theorem executeEffect_l3 {p : Params} {s t : Engine p} (h : executeEffect s = .ok t) : t.l3 = s.l3 := by
  rw [(executeEffect_frame h).1]

/-- After Fetch only Memory faults but by contract violation (R232, R233). -/
theorem lateEffects_error {p : Params} {s : Engine p} {c : FaultCause} (h : lateEffects s = .error c) :
    c = .contractViolation ∨
      ∃ addr, accessAddress s.l3 = some addr ∧ dataAddressFault p.memBytes addr = some c := by
  unfold lateEffects at h
  split at h
  · cases h; exact .inl (executeEffect_error ‹_›)
  · rename_i s3 h3
    split at h
    · cases h
      rw [← executeEffect_l3 h3]
      exact memoryEffect_error ‹_›
    · split at h
      · cases h; exact .inl (writebackEffect_error ‹_›)
      · split at h
        · cases h; exact .inl (retire_error ‹_›)
        · cases h

/-! ### The faults of a step -/

section stepFaults

variable {p : Params} {s : Engine p} {f : Option Instr} {c : FaultCause}

/-- Where Fetch does not fault the step is the cycle of what it takes (R151). -/
theorem step_eq_cycle (hr : running s = true) (hf : fetchRequest s = .ok f) : step s.pack = cycle f s.pack := by
  unfold step
  simp only [hr, hf, if_true]
  cases f with
  | none => rfl
  | some i => exact exec_eq_cycle i s.pack

/-- A Fetch fault comes before any other (R233). -/
theorem step_of_fetch_error (hr : running s = true) (hf : fetchRequest s = .error c) :
    step s.pack = takeFault c s := by
  unfold step
  simp only [hr, hf, if_true]

/-- An effect's fault is the fault of the cycle (R150). -/
theorem cycle_of_effects_error (hr : running s = true) (he : cycleEffects f s = .error c) :
    cycle f s.pack = takeFault c s := by
  unfold cycle
  simp only [hr, he, if_true]

/-- Fetch's two causes are never raised by the effects of a cycle (R232). -/
theorem cycle_ne_fetch_fault (hr : running s = true) (u : State) :
    cycle f s.pack ≠ .fault (.fetchMisaligned u) ∧ cycle f s.pack ≠ .fault (.illegalInstruction u) := by
  cases he : cycleEffects f s with
  | ok t =>
    rw [cycle_pack.2 ⟨hr, he⟩]
    exact ⟨nofun, nofun⟩
  | error c =>
    rw [cycle_of_effects_error hr he]
    obtain rfl | ⟨addr, -, ha⟩ := lateEffects_error he
    · exact ⟨nofun, nofun⟩
    · obtain ⟨-, rfl⟩ | ⟨-, -, rfl⟩ := dataAddressFault_eq_some.1 ha
      · exact ⟨nofun, nofun⟩
      · exact ⟨nofun, nofun⟩

end stepFaults

/-! ### Fetch at the pc (R170, R172) -/

theorem inProgram_iff {p : Params} {pc : Word p.xlen} :
    inProgram p pc = true ↔ p.codeBase ≤ pc.toNat ∧ pc.toNat < p.codeBase + 4 * p.progLen := by
  simp [inProgram]

/-- Outside the program nothing is taken and nothing faults (R172). -/
theorem fetchRequest_outside {p : Params} {s : Engine p} (h : inProgram p s.pc = false) :
    fetchRequest s = .ok none := by
  simp [fetchRequest, fetchWord, h]

/-- A misaligned pc in the program faults before memory is read (R170). -/
theorem fetchRequest_misaligned {p : Params} {s : Engine p} (hs : s.stall = false) (h : inProgram p s.pc = true)
    (h4 : s.pc.toNat % 4 ≠ 0) : fetchRequest s = .error .fetchMisaligned := by
  simp [fetchRequest, fetchWord, hs, h, h4]

/-- With accepted parameters a pc in the program is in memory (R58). -/
theorem pc_lt_memBytes {p : Params} {pc : Word p.xlen} (hp : p.wf) (h : inProgram p pc = true) :
    pc.toNat < p.memBytes := by
  obtain ⟨-, -, -, hfits, -, -⟩ := hp
  obtain ⟨-, hlt⟩ := inProgram_iff.1 h
  omega

/-- An unstalled step in which Fetch takes nothing: the bubble enters the Fetch latch, nothing is counted, and the pc
stays unless a Jump is in Decode (R172, R176). -/
theorem step_takes_none {p : Params} {s t : Engine p} (hs : s.stall = false) (hf : fetchRequest s = .ok none)
    (h : step s.pack = .next t.pack) : t.l0 = Latch.bubble ∧ t.fetched = s.fetched ∧
      (targetOf p.xlen s.l0.instr = none → t.pc = s.pc) := by
  obtain ⟨f, hf', -, hl⟩ := step_late h
  obtain rfl : none = f := Except.ok.inj (hf.symm.trans hf')
  obtain ⟨hpc, hl0, -, -, hfetched, -⟩ := lateEffects_frame hl
  have hd : enteringDecode s = s.l0 := by simp [enteringDecode, hs]
  rw [hpc, hl0, hfetched, early_pc, early_l0, early_fetched, hd]
  refine ⟨?_, by simp, fun hj => by simp [hj]⟩
  cases targetOf p.xlen s.l0.instr <;> simp [hs]

/-- Settles O40, from what Fetch requests outside the program and at a misaligned pc inside it. -/
theorem fetchIsAttemptedOnlyInTheProgram : Obligations.FetchIsAttemptedOnlyInTheProgram := by
  intro p s hr hs
  refine ⟨fun hout => ?_, fun hin h4 => ?_, fun hin hp => pc_lt_memBytes hp hin⟩
  · have hf : fetchRequest s = .ok none := fetchRequest_outside hout
    refine ⟨hf, fun u => ?_, fun t ht => step_takes_none hs hf ht⟩
    rw [step_eq_cycle hr hf]
    exact cycle_ne_fetch_fault hr u
  · exact step_of_fetch_error hr (fetchRequest_misaligned hs hin h4)

/-! ### No Execute fault in a sound state (R181, R207) -/

theorem src1Of_isSome (i : Instr) : (src1Of i).isSome = readsRegisters i := by cases i <;> rfl

/-- Only an Arithmetic and a Store have a second source register (R28). -/
theorem kindOf_of_src2Of_isSome {i : Instr} (h : (src2Of i).isSome = true) :
    (kindOf i == .arithmetic || kindOf i == .store) = true := by
  cases i <;> simp_all

/-- A clear check leaves a slot written that was, and, without a register to check, unwritten one that was. -/
theorem isSome_of_checkSource_clear {n : Nat} {hq : List RegId} {l3 l4 : Latch n} {src : Option RegId}
    {slot v : Option (Word n)} (h : checkSource hq l3 l4 src slot = .clear v)
    (hs : src.isSome = true → slot.isSome = true) : v.isSome = slot.isSome := by
  obtain rfl | ⟨r, w, rfl, -, -, rfl⟩ := checkSource_clear h
  · rfl
  · exact (hs rfl).symm

/-- The source checks leave the operands of a record written (R179, R30). -/
theorem operandsWritten_of_checks {n : Nat} {hq : List RegId} {l l3 l4 : Latch n} {v1 v2 : Option (Word n)}
    (hl : operandsWritten l = true) (h1 : checkSource hq l3 l4 (src1Of l.instr) l.resolvedSrc1 = .clear v1)
    (h2 : checkSource hq l3 l4 (src2Of l.instr) l.resolvedSrc2 = .clear v2) :
    operandsWritten { l with resolvedSrc1 := v1, resolvedSrc2 := v2 } = true := by
  have hslots := hl
  simp only [operandsWritten, Bool.and_eq_true, beq_iff_eq] at hslots
  obtain ⟨hs1, hs2⟩ := hslots
  have e1 : v1.isSome = l.resolvedSrc1.isSome :=
    isSome_of_checkSource_clear h1 fun h => by rw [hs1, ← src1Of_isSome, h]
  have e2 : v2.isSome = l.resolvedSrc2.isSome :=
    isSome_of_checkSource_clear h2 fun h => by rw [hs2, kindOf_of_src2Of_isSome h]
  simpa only [operandsWritten, e1, e2] using hl

/-- Execute faults only on an unwritten operand or a full hazard queue (R180, R181). -/
theorem executeEffect_total {p : Params} {s : Engine p} (hl : operandsWritten s.l2 = true)
    (hq : s.hq.length < p.hqDepth) : ∃ t, executeEffect s = .ok t := by
  unfold executeEffect
  split
  · split
    · exact ⟨_, rfl⟩
    · rename_i v1 h1
      split
      · exact ⟨_, rfl⟩
      · rename_i v2 h2
        obtain ⟨l', hc⟩ := compute_total (operandsWritten_of_checks hl h1 h2)
        cases hd : destOf s.l2.instr with
        | none => exact ⟨_, executeFinish_ok.2 ⟨l', hc, .inl ⟨hd, rfl⟩⟩⟩
        | some d => exact ⟨_, executeFinish_ok.2 ⟨l', hc, .inr ⟨d, hd, hq, rfl⟩⟩⟩
  · exact ⟨_, rfl⟩

theorem destQueue_length_le {n : Nat} (l : Latch n) : (destQueue l).length ≤ 1 := by
  unfold destQueue
  cases destOf l.instr <;> simp

namespace Sound

variable {p : Params} {s : Engine p}

/-- At a cycle boundary the hazard queue has room for one more entry (R207). -/
theorem hq_length_lt (hs : Sound s) : s.hq.length < p.hqDepth := by
  obtain ⟨-, -, -, -, -, hdepth⟩ := hs.params_wf
  have h3 := destQueue_length_le s.l3
  have h2 := destQueue_length_le s.l2
  rw [hs.hq_content, boundaryQueue, List.length_append]
  split
  · rw [List.length_nil]; omega
  · omega

/-- The record entering Execute has the slots Decode leaves, stalled or not (R181, R182). -/
theorem enteringExecute_decoded (hs : Sound s) : slotsDecoded (enteringExecute s) = true := by
  have h2 := hs.l2_executed
  unfold enteringExecute
  split
  · rename_i h; rwa [if_pos h] at h2
  · exact hs.l1_decoded

/-- The record entering Memory has the slots Execute leaves (R181). -/
theorem enteringMemory_executed (hs : Sound s) : slotsExecuted (enteringMemory s) = true := by
  have h2 := hs.l2_executed
  unfold enteringMemory
  split
  · rfl
  · rename_i h; rwa [if_neg h] at h2

/-- Execute never faults in the next cycle (R233). -/
theorem executeEffect_total (hs : Sound s) (f : Option Instr) : ∃ t, executeEffect (earlyEffects f s) = .ok t := by
  have hl := hs.enteringExecute_decoded
  rw [slotsDecoded, Bool.and_eq_true] at hl
  apply Machine.executeEffect_total
  · rw [early_l2]; exact hl.1
  · rw [early_hq]; exact hs.hq_length_lt

end Sound

/-! ### The data faults of a step (R57) -/

/-- Memory faults as the address of its record does, when the record's operands are written (R57, R183). -/
theorem memoryEffect_fault {p : Params} {s : Engine p} {addr : Word p.xlen} {c : FaultCause}
    (hl : operandsWritten s.l3 = true) (ha : accessAddress s.l3 = some addr)
    (hc : dataAddressFault p.memBytes addr = some c) : memoryEffect s = .error c := by
  simp only [operandsWritten, Bool.and_eq_true, beq_iff_eq] at hl
  obtain hk | hk := kindOf_of_accessAddress ha
  · rw [accessAddress_load hk] at ha
    have hload : loadEffect s = .error c := by simp only [loadEffect, ha, memRead_error.2 hc]
    simp [memoryEffect, writesMemory_iff, readsMemory_iff, hk, hload]
  · rw [accessAddress_store hk] at ha
    obtain ⟨v, hv⟩ : ∃ v, s.l3.resolvedSrc1 = some v :=
      Option.isSome_iff_exists.1 (hl.1.trans (by simp [readsRegisters, hk, flagsOf]))
    have hstore : storeEffect s = .error c := by simp only [storeEffect, ha, hv, memWrite_error.2 hc]
    simp [memoryEffect, writesMemory_iff, hk, hstore]

/-- A faulting access of the record entering Memory is the fault of the cycle, whatever Fetch takes (R57, R233). -/
theorem cycleEffects_access_fault {p : Params} {s : Engine p} {addr : Word p.xlen} {c : FaultCause} (hs : Sound s)
    (f : Option Instr) (ha : accessAddress (enteringMemory s) = some addr)
    (hc : dataAddressFault p.memBytes addr = some c) : cycleEffects f s = .error c := by
  obtain ⟨t, ht⟩ := hs.executeEffect_total f
  have hl3 : t.l3 = enteringMemory s := (executeEffect_l3 ht).trans (early_l3 f s)
  have hl := hs.enteringMemory_executed
  rw [slotsExecuted, Bool.and_eq_true] at hl
  have hm : memoryEffect t = .error c := memoryEffect_fault (hl3 ▸ hl.1) (hl3 ▸ ha) hc
  simp only [cycleEffects, lateEffects, ht, hm]

/-- A faulting access of the record entering Memory is the fault of the step, where Fetch has none (R57, R233). -/
theorem step_access_fault {p : Params} {s : Engine p} {f : Option Instr} {addr : Word p.xlen} {c : FaultCause}
    (hs : Sound s) (hr : running s = true) (hf : fetchRequest s = .ok f)
    (ha : accessAddress (enteringMemory s) = some addr) (hc : dataAddressFault p.memBytes addr = some c) :
    step s.pack = takeFault c s := by
  rw [step_eq_cycle hr hf]
  exact cycle_of_effects_error hr (cycleEffects_access_fault hs f ha hc)

/-- Settles O42: the step takes the fault that the check of the data address answers. -/
theorem dataAccessFaults : Obligations.DataAccessFaults := by
  intro p s f addr hs hr hf ha
  exact ⟨fun h => step_access_fault hs hr hf ha (dataAddressFault_of_misaligned h),
    fun h4 hk => step_access_fault hs hr hf ha (dataAddressFault_of_outOfRange h4 hk)⟩

end Sys2Proof.Machine
end

section
/-! PROOF. The encoder's formulas, encoder and decoder inverse to each other (R80, R81), and the flags of a kind
(R71). -/

namespace Sys2Proof

/-! ### The formulas of the three formats (R75, R80) -/

/-- A format R word as the `or` of its shifted fields. -/
theorem encodeR_formula (op : BitVec 6) (ra rb rc : RegId) :
    encodeR op ra rb rc =
      op.setWidth 32 <<< 26 ||| ra.setWidth 32 <<< 21 ||| rb.setWidth 32 <<< 16 ||| rc.setWidth 32 <<< 11 := by
  have hw : encodeR op ra rb rc = (op ++ ra ++ rb ++ rc ++ 0#11).setWidth 32 := (BitVec.setWidth_eq _).symm
  simp only [hw, BitVec.setWidth_append_eq_shiftLeft_setWidth_or, BitVec.shiftLeft_or_distrib, ← BitVec.shiftLeft_add,
    BitVec.setWidth_zero, BitVec.or_zero]

/-- A format I word as the `or` of its shifted fields. -/
theorem encodeI_formula (op : BitVec 6) (ra rb : RegId) (v : Int) :
    encodeI op ra rb v =
      op.setWidth 32 <<< 26 ||| ra.setWidth 32 <<< 21 ||| rb.setWidth 32 <<< 16 |||
        (BitVec.ofInt 16 v).setWidth 32 := by
  have hw : encodeI op ra rb v = (op ++ ra ++ rb ++ BitVec.ofInt 16 v).setWidth 32 := (BitVec.setWidth_eq _).symm
  simp only [hw, BitVec.setWidth_append_eq_shiftLeft_setWidth_or, BitVec.shiftLeft_or_distrib,
    ← BitVec.shiftLeft_add]

/-- A format J word as the `or` of its shifted fields. -/
theorem encodeJ_formula (op : BitVec 6) (t : Int) :
    encodeJ op t = op.setWidth 32 <<< 26 ||| (BitVec.ofInt 26 t).setWidth 32 := by
  have hw : encodeJ op t = (op ++ BitVec.ofInt 26 t).setWidth 32 := (BitVec.setWidth_eq _).symm
  rw [hw, BitVec.setWidth_append_eq_shiftLeft_setWidth_or]

/-! ### Decoding an encoded record (R79, R80) -/

/-- A format R word is accepted, with its fields as the operands. -/
theorem decodeR_encodeR (mk : RegId → RegId → RegId → Instr) (op : BitVec 6) (ra rb rc : RegId) :
    decodeR mk (encodeR op ra rb rc) = .ok (mk ra rb rc) := by
  obtain ⟨-, ha, hb, hc, hlow⟩ := encodeR_fields op ra rb rc
  rw [decodeR, if_pos hlow, ha, hb, hc]

/-- The immediate of a format I word is the literal that was put in it, when that fits (R77). -/
theorem immField_encodeI {op : BitVec 6} {ra rb : RegId} {v : Int} (h : fitsImm16 v = true) :
    immField (encodeI op ra rb v) = v := by
  obtain ⟨-, -, -, himm⟩ := encodeI_fields op ra rb v
  rw [immField, himm, toInt_ofInt_imm h]

/-- The target of a format J word is the literal that was put in it, when that fits (R77). -/
theorem targetField_encodeJ {op : BitVec 6} {t : Int} (h : fitsTarget26 t = true) :
    targetField (encodeJ op t) = t := by
  obtain ⟨-, htarget⟩ := encodeJ_fields op t
  rw [targetField, htarget, toNat_ofInt_target h]

/-- The decoder reads a well-formed record back from its word: the opcode selects the row, and the row's fields are
the operands, a literal because it fits (R80). -/
theorem decode_encode {r : Instr} (h : r.wellFormed = true) : decode (encode r) = .ok r := by
  cases r with
  | empty => rfl
  | add d a b => simp [decode, encode, encodeR_fields, decodeR_encodeR]
  | sub d a b => simp [decode, encode, encodeR_fields, decodeR_encodeR]
  | mult d a b => simp [decode, encode, encodeR_fields, decodeR_encodeR]
  | addImm d a v => simp [decode, encode, encodeI_fields, immField_encodeI h]
  | subImm d a v => simp [decode, encode, encodeI_fields, immField_encodeI h]
  | multImm d a v => simp [decode, encode, encodeI_fields, immField_encodeI h]
  | lw d b v => simp [decode, encode, encodeI_fields, immField_encodeI h]
  | sw r b v => simp [decode, encode, encodeI_fields, immField_encodeI h]
  | j t => simp [decode, encode, encodeJ_fields, targetField_encodeJ h]

/-! ### Encoding a decoded word (R79, R80) -/

/-- A format R word the decoder accepts is the encoding of its fields. -/
theorem decodeR_ok {mk : RegId → RegId → RegId → Instr} {op : BitVec 6} {w : InstrWord} {r : Instr}
    (hop : opcodeField w = op) (h : decodeR mk w = .ok r) : ∃ a b c, r = mk a b c ∧ encodeR op a b c = w := by
  unfold decodeR at h
  split at h
  · cases h
    exact ⟨_, _, _, rfl, hop ▸ (word_eq_encodeR ‹_›).symm⟩
  · cases h

/-- The fields of a word with opcode `op` encode to it in format I. -/
theorem encodeI_of_opcodeField {op : BitVec 6} {w : InstrWord} (hop : opcodeField w = op) :
    encodeI op (raField w) (rbField w) (immField w) = w := hop ▸ (word_eq_encodeI w).symm

/-- The target of a word with opcode `op` encodes to it in format J. -/
theorem encodeJ_of_opcodeField {op : BitVec 6} {w : InstrWord} (hop : opcodeField w = op) :
    encodeJ op (targetField w) = w := hop ▸ (word_eq_encodeJ w).symm

/-- What the decoder answers is well formed and encodes to the word it was read from: one case per row of R76. -/
theorem wellFormed_and_encode_of_decode {w : InstrWord} {r : Instr} (h : decode w = .ok r) :
    r.wellFormed = true ∧ encode r = w := by
  simp only [decode] at h
  split_ifs at h with _ hzero hadd hsub hmult haddImm hsubImm hmultImm hlw hsw hj
  · cases h; exact ⟨rfl, hzero.symm⟩
  · obtain ⟨a, b, c, rfl, hw⟩ := decodeR_ok hadd h; exact ⟨rfl, hw⟩
  · obtain ⟨a, b, c, rfl, hw⟩ := decodeR_ok hsub h; exact ⟨rfl, hw⟩
  · obtain ⟨a, b, c, rfl, hw⟩ := decodeR_ok hmult h; exact ⟨rfl, hw⟩
  · cases h; exact ⟨fitsImm16_immField w, encodeI_of_opcodeField haddImm⟩
  · cases h; exact ⟨fitsImm16_immField w, encodeI_of_opcodeField hsubImm⟩
  · cases h; exact ⟨fitsImm16_immField w, encodeI_of_opcodeField hmultImm⟩
  · cases h; exact ⟨fitsImm16_immField w, encodeI_of_opcodeField hlw⟩
  · cases h; exact ⟨fitsImm16_immField w, encodeI_of_opcodeField hsw⟩
  · cases h; exact ⟨fitsTarget26_targetField w, encodeJ_of_opcodeField hj⟩

/-- Settles O1, from the two round trips and the formula of each format. -/
theorem encodeIsInverseOfDecode : Obligations.EncodeIsInverseOfDecode :=
  ⟨fun _ hr => decode_encode hr,
    fun _ _ hw => wellFormed_and_encode_of_decode hw,
    rfl,
    fun d a b => ⟨encodeR_formula _ d a b, encodeR_formula _ d a b, encodeR_formula _ d a b⟩,
    fun d a v => ⟨encodeI_formula _ d a v, encodeI_formula _ d a v, encodeI_formula _ d a v,
      encodeI_formula _ d a v, encodeI_formula _ d a v⟩,
    fun t => encodeJ_formula _ t⟩

/-- Settles O3: each word is the encoding of its well-formed record, so the round trip reads the record back. -/
theorem workedEncodings : Obligations.WorkedEncodings := by
  intro p hp
  have hall : p.2.wellFormed = true ∧ encode p.2 = p.1 := by
    revert p
    decide
  obtain ⟨hwf, henc⟩ := hall
  exact ⟨henc, henc ▸ decode_encode hwf⟩

end Sys2Proof

namespace Sys2Proof.Machine

open Sys2Proof

/-- The five flags of a record are those the table of R71 has for its kind. -/
theorem flags_of_kind {i : Instr} {k : Kind} (h : kindOf i = k) :
    readsRegisters i = (flagsOf k).readsRegisters ∧ writesRegister i = (flagsOf k).writesRegister ∧
      readsMemory i = (flagsOf k).readsMemory ∧ writesMemory i = (flagsOf k).writesMemory ∧
      usesAlu i = (flagsOf k).usesAlu := by
  subst h
  exact ⟨rfl, rfl, rfl, rfl, rfl⟩

/-- Settles O4: each clause is the row of the table for its kind. -/
theorem microOpFlagsFollowTheKind : Obligations.MicroOpFlagsFollowTheKind :=
  ⟨fun _ h => flags_of_kind h, fun _ h => flags_of_kind h, fun _ h => flags_of_kind h,
    fun _ h => h.elim flags_of_kind flags_of_kind⟩

end Sys2Proof.Machine
end

section
/-! PROOF. Each Arithmetic instruction alone in the pipeline (R101 to R106): its passage from Fetch to Writeback is
proved once, for every record of that kind, and each instruction is its decoding and its own result in it. -/

namespace Sys2Proof

/-! ### The words of the two operand forms (R75, R77) -/

/-- A format R word is read as the well-formed record that encodes to its opcode and registers. -/
theorem decode_registerWord {i : Instr} {op : BitVec 6} {ra rb rc : RegId} (hwf : i.wellFormed = true)
    (henc : encode i = encodeR op ra rb rc) : decode (op ++ ra ++ rb ++ rc ++ 0#11) = .ok i := by
  rw [← decode_encode hwf, henc, encodeR]

/-- Every 16-bit field, read as a two's-complement number, fits the field (R77). -/
theorem fitsImm16_toInt (imm16 : BitVec 16) : fitsImm16 imm16.toInt = true := by
  have hle := BitVec.le_toInt imm16
  have hlt := BitVec.toInt_lt (x := imm16)
  rw [fitsImm16, Bool.and_eq_true, decide_eq_true_eq, decide_eq_true_eq]
  omega

/-- The format I word of a 16-bit field's number has that field in its low bits (R75, R77). -/
theorem encodeI_toInt (op : BitVec 6) (ra rb : RegId) (imm16 : BitVec 16) :
    encodeI op ra rb imm16.toInt = op ++ ra ++ rb ++ imm16 := by
  rw [encodeI, BitVec.ofInt_toInt]

/-- A format I word is read as the record that encodes to its opcode, its registers and its field's number. -/
theorem decode_immediateWord {i : Instr} {op : BitVec 6} {ra rb : RegId} {imm16 : BitVec 16}
    (hwf : i.wellFormed = fitsImm16 imm16.toInt) (henc : encode i = encodeI op ra rb imm16.toInt) :
    decode (op ++ ra ++ rb ++ imm16) = .ok i := by
  rw [← encodeI_toInt, ← henc]
  exact decode_encode (hwf.trans (fitsImm16_toInt imm16))

end Sys2Proof

namespace Sys2Proof.Machine

open Sys2Proof

/-! ### Each effect of a cycle on the records it works on (R178 to R184) -/

section effects

variable {p : Params} {s : Engine p}

/-- Execute passes over a record without the ALU flag (R178). -/
theorem executeEffect_of_not_usesAlu (h : usesAlu s.l2.instr = false) : executeEffect s = .ok s := by
  simp [executeEffect, h]

/-- With no register in flight Execute queues the destination and computes from the slots Decode wrote (R179 to
R181). -/
theorem executeEffect_of_hq_nil {d : RegId} {l : Latch p.xlen} (hq : s.hq = []) (hdepth : 0 < p.hqDepth)
    (hu : usesAlu s.l2.instr = true) (hd : destOf s.l2.instr = some d) (hc : compute s.l2 = .ok l) :
    executeEffect s = .ok { s with l2 := l, hq := d :: s.hq } := by
  have hfinish : executeFinish s.l2 s = .ok { s with l2 := l, hq := d :: s.hq } :=
    executeFinish_ok.2 ⟨l, hc, .inr ⟨d, hd, by rwa [hq], by rw [hq]; rfl⟩⟩
  simpa [executeEffect, hu, hq] using hfinish

/-- Memory passes over a record without the memory flags (R183). -/
theorem memoryEffect_of_no_access (hw : writesMemory s.l3.instr = false) (hr : readsMemory s.l3.instr = false) :
    memoryEffect s = .ok s := by
  simp [memoryEffect, hw, hr]

/-- Writeback passes over a record without a destination (R184). -/
theorem writebackEffect_of_no_dest (h : destOf s.l4.instr = none) : writebackEffect s = .ok s := by
  simp [writebackEffect, h]

/-- Writeback writes the result to the destination (R184). -/
theorem writebackEffect_of_dest {d : RegId} {v : Word p.xlen} (hd : destOf s.l4.instr = some d)
    (hv : s.l4.result = some v) : writebackEffect s = .ok { s with x := writeReg s.x d v } := by
  simp [writebackEffect, hd, hv]

/-- A record without a destination retires nothing (R147). -/
theorem retire_of_no_dest (h : destOf s.l4.instr = none) : retire s = .ok s := by
  simp [retire, (destOf_none_iff _).1 h]

/-- A record with a destination retires the front of the hazard queue (R147). -/
theorem retire_of_dest {d r : RegId} {q : List RegId} (hd : destOf s.l4.instr = some d) (hq : s.hq = r :: q) :
    retire s = .ok { s with hq := q } := by
  have hw : writesRegister s.l4.instr = true := by rw [← destOf_isSome, hd]; rfl
  simp [retire, hw, hq, hqPop]

/-- A cycle in which neither Execute nor Memory nor Writeback has work. -/
theorem lateEffects_idle (hu : usesAlu s.l2.instr = false) (hw : writesMemory s.l3.instr = false)
    (hr : readsMemory s.l3.instr = false) (hd : destOf s.l4.instr = none) : lateEffects s = .ok (closeCycle s) :=
  lateEffects_ok.2 ⟨s, s, s, s, executeEffect_of_not_usesAlu hu, memoryEffect_of_no_access hw hr,
    writebackEffect_of_no_dest hd, retire_of_no_dest hd, rfl⟩

/-- A cycle in which Execute alone has work, with no register in flight. -/
theorem lateEffects_execute {d : RegId} {l : Latch p.xlen} (hq : s.hq = []) (hdepth : 0 < p.hqDepth)
    (hu : usesAlu s.l2.instr = true) (hd : destOf s.l2.instr = some d) (hc : compute s.l2 = .ok l)
    (hw : writesMemory s.l3.instr = false) (hr : readsMemory s.l3.instr = false) (h4 : destOf s.l4.instr = none) :
    lateEffects s = .ok (closeCycle { s with l2 := l, hq := d :: s.hq }) :=
  lateEffects_ok.2 ⟨_, _, _, _, executeEffect_of_hq_nil hq hdepth hu hd hc, memoryEffect_of_no_access hw hr,
    writebackEffect_of_no_dest h4, retire_of_no_dest h4, rfl⟩

/-- A cycle in which Writeback alone has work. -/
theorem lateEffects_writeback {d r : RegId} {v : Word p.xlen} {q : List RegId} (hu : usesAlu s.l2.instr = false)
    (hw : writesMemory s.l3.instr = false) (hr : readsMemory s.l3.instr = false) (hd : destOf s.l4.instr = some d)
    (hv : s.l4.result = some v) (hq : s.hq = r :: q) :
    lateEffects s = .ok (closeCycle { s with x := writeReg s.x d v, hq := q }) :=
  lateEffects_ok.2 ⟨s, s, { s with x := writeReg s.x d v }, _, executeEffect_of_not_usesAlu hu,
    memoryEffect_of_no_access hw hr, writebackEffect_of_dest hd hv, retire_of_dest hd hq, rfl⟩

end effects

/-! ### A state some fetching cycles later -/

/-- The state `s` after `n` cycles that each fetched an instruction, with these records in the latches and all else
as in `s`. -/
def Engine.carrying {p : Params} (s : Engine p) (n : Nat) (l0 l1 l2 l3 l4 : Latch p.xlen) : Engine p :=
  { s with
    pc := s.pc + BitVec.ofNat p.xlen (4 * n)
    l0 := l0
    l1 := l1
    l2 := l2
    l3 := l3
    l4 := l4
    cycle := s.cycle + BitVec.ofNat p.ctrW n
    fetched := s.fetched + BitVec.ofNat p.ctrW n }

/-- The same state before its last cycle is counted: Fetch has taken the `n`-th instruction, `closeCycle` has not
run. -/
def Engine.underway {p : Params} (s : Engine p) (n : Nat) (l0 l1 l2 l3 l4 : Latch p.xlen) : Engine p :=
  { s.carrying n l0 l1 l2 l3 l4 with cycle := s.cycle + BitVec.ofNat p.ctrW (n - 1) }

section carrying

variable {p : Params} {s : Engine p} {l0 l1 l2 l3 l4 : Latch p.xlen}

/-- `passed` is the state after five fetching cycles with only the Writeback latch occupied. -/
theorem passed_eq_carrying (s : Engine p) (l : Latch p.xlen) :
    passed s l = s.carrying 5 Latch.bubble Latch.bubble Latch.bubble Latch.bubble l := rfl

/-- A quiet state is itself after no cycle. -/
theorem Quiet.eq_carrying (hs : Quiet s) :
    s = s.carrying 0 Latch.bubble Latch.bubble Latch.bubble Latch.bubble s.l4 := by
  obtain ⟨-, -, -, h0, h1, h2, h3, -⟩ := hs
  cases s
  simp_all [Engine.carrying]

/-- Advance, Fetch and Decode on such a state: every record moves on by one latch, and the one leaving the Fetch latch
reads its operands (R144, R173, R174). -/
theorem earlyEffects_carrying (n : Nat) (j : Instr) (hs : s.stall = false) (hj : targetOf p.xlen l0.instr = none) :
    earlyEffects (some j) (s.carrying n l0 l1 l2 l3 l4) =
      s.underway (n + 1) (Latch.fresh j) (decodeSlots s.x l0) l1 l2 l3 := by
  simp [earlyEffects, advance, fetchEffect, decodeEffect, Engine.underway, Engine.carrying, hs, hj,
    BitVec.add_assoc, ofNat_add_ofNat, Nat.mul_add]

/-- The termination test on such a state looks at the five records alone (R148). -/
@[simp] theorem allEmpty_underway (n : Nat) : allEmpty (s.underway n l0 l1 l2 l3 l4) =
    (isEmpty l0.instr && isEmpty l1.instr && isEmpty l2.instr && isEmpty l3.instr && isEmpty l4.instr) := rfl

/-- The close of the cycle counts it; `done` stays as it was if that is what the termination test answers (R148,
R149). -/
theorem closeCycle_underway (n : Nat) (hd : allEmpty (s.underway (n + 1) l0 l1 l2 l3 l4) = s.done) :
    closeCycle (s.underway (n + 1) l0 l1 l2 l3 l4) = s.carrying (n + 1) l0 l1 l2 l3 l4 := by
  rw [closeCycle, hd]
  simp [Engine.underway, Engine.carrying, BitVec.add_assoc, ofNat_add_ofNat]

/-- The cycle in which such a state takes `j` ends in the next one, given what the late effects make of the rest of the
state and of the records in Execute and Memory. -/
theorem exec_carrying {s' : Engine p} {k2 k3 : Latch p.xlen} {n : Nat} {j : Instr} (hr : running s = true)
    (hs : s.stall = false) (hj : targetOf p.xlen l0.instr = none)
    (hl : lateEffects (s.underway (n + 1) (Latch.fresh j) (decodeSlots s.x l0) l1 l2 l3) =
      .ok (closeCycle (s'.underway (n + 1) (Latch.fresh j) (decodeSlots s.x l0) k2 k3 l3)))
    (hd : allEmpty (s'.underway (n + 1) (Latch.fresh j) (decodeSlots s.x l0) k2 k3 l3) = s'.done) :
    exec j (s.carrying n l0 l1 l2 l3 l4).pack =
      .next (s'.carrying (n + 1) (Latch.fresh j) (decodeSlots s.x l0) k2 k3 l3).pack := by
  rw [exec_eq_cycle]
  refine cycle_pack.2 ⟨hr, ?_⟩
  rw [earlyEffects_carrying n j hs hj, hl, closeCycle_underway n hd]

end carrying

/-! ### An Arithmetic record's passage through the five stages -/

/-- A feed goes on from the state its first cycle ends in. -/
theorem feed_cons {i : Instr} {is : List Instr} {s t : State} (h : exec i s = .next t) :
    feed (i :: is) s = feed is t := by
  simp only [feed, h]

/-- An Arithmetic record has no target and is not the bubble (R28, R29). -/
theorem arithmetic_not_jump_not_empty {i : Instr} (n : Nat) (hk : kindOf i = .arithmetic) :
    targetOf n i = none ∧ isEmpty i = false := by
  refine ⟨Option.eq_none_iff_forall_ne_some.2 fun t ht => ?_, by simp [isEmpty, hk]⟩
  obtain ⟨v, rfl, -⟩ := targetOf_eq_some.1 ht
  cases hk

/-- What Decode reads for the record (`hdecode`) and Execute computes from it (`hcompute`) decide its whole effect.
Fetched in a quiet state and followed by four Empty words, an Arithmetic record reads its operands one cycle later,
queues its destination and computes two cycles later, and writes the result and leaves the queue four cycles later;
nothing else is changed. -/
theorem arithmetic_alone {p : Params} {s : Engine p} {i : Instr} {d : RegId} {a b v : Word p.xlen} (hs : Quiet s)
    (hk : kindOf i = .arithmetic) (hd : destOf i = some d)
    (hdecode : decodeSlots s.x (Latch.fresh i) = ⟨i, some a, some b, none⟩)
    (hcompute : compute (⟨i, some a, some b, none⟩ : Latch p.xlen) = .ok ⟨i, some a, some b, some v⟩) :
    ∃ s1 : Engine p, exec i s.pack = .next s1.pack ∧
      feed fourEmpties s1.pack =
        .next (Engine.pack { passed s ⟨i, some a, some b, some v⟩ with x := writeReg s.x d v }) := by
  obtain ⟨-, -, -, -, -, hdepth⟩ := hs.params_wf
  have hr := hs.running
  have hst := hs.stall
  obtain ⟨-, -, hrm, hwm, hu⟩ := flags_of_kind hk
  obtain ⟨hj, hne⟩ := arithmetic_not_jump_not_empty p.xlen hk
  obtain ⟨hdone, -⟩ : s.done = false ∧ s.fault = false := by simpa [running] using hr
  have hfetch : exec i s.pack =
      .next (s.carrying 1 (Latch.fresh i) Latch.bubble Latch.bubble Latch.bubble Latch.bubble).pack := by
    conv_lhs => rw [hs.eq_carrying]
    exact exec_carrying hr hst rfl (lateEffects_idle rfl rfl rfl rfl) (by simp [hne, hdone])
  have hread : exec .empty (s.carrying 1 (Latch.fresh i) Latch.bubble Latch.bubble Latch.bubble Latch.bubble).pack =
      .next (s.carrying 2 Latch.bubble ⟨i, some a, some b, none⟩ Latch.bubble Latch.bubble Latch.bubble).pack := by
    rw [← hdecode]
    exact exec_carrying hr hst hj (lateEffects_idle rfl rfl rfl rfl) (by simp [hdecode, hne, hdone])
  have hcomputes : exec .empty
      (s.carrying 2 Latch.bubble ⟨i, some a, some b, none⟩ Latch.bubble Latch.bubble Latch.bubble).pack =
      .next (Engine.carrying { s with hq := d :: s.hq } 3 Latch.bubble Latch.bubble ⟨i, some a, some b, some v⟩
        Latch.bubble Latch.bubble).pack :=
    exec_carrying hr hst rfl (lateEffects_execute hs.hq (by omega) hu hd hcompute rfl rfl rfl) (by simp [hne, hdone])
  have hmoves : exec .empty (Engine.carrying { s with hq := d :: s.hq } 3 Latch.bubble Latch.bubble
      ⟨i, some a, some b, some v⟩ Latch.bubble Latch.bubble).pack =
      .next (Engine.carrying { s with hq := d :: s.hq } 4 Latch.bubble Latch.bubble Latch.bubble
        ⟨i, some a, some b, some v⟩ Latch.bubble).pack :=
    exec_carrying hr hst rfl (lateEffects_idle rfl hwm hrm rfl) (by simp [hne, hdone])
  have hwrites : exec .empty (Engine.carrying { s with hq := d :: s.hq } 4 Latch.bubble Latch.bubble Latch.bubble
      ⟨i, some a, some b, some v⟩ Latch.bubble).pack =
      .next (Engine.carrying { s with x := writeReg s.x d v } 5 Latch.bubble Latch.bubble Latch.bubble Latch.bubble
        ⟨i, some a, some b, some v⟩).pack :=
    exec_carrying hr hst rfl (lateEffects_writeback rfl rfl rfl hd rfl rfl) (by simp [hne, hdone])
  refine ⟨_, hfetch, ?_⟩
  rw [fourEmpties, feed_cons hread, feed_cons hcomputes, feed_cons hmoves, feed_cons hwrites]
  rfl

/-! ### The six instructions

Each is `arithmetic_alone` at its own record: its destination, the two slots Decode writes and its result are read off
the definitions. -/

/-- Settles O6: both slots are registers and the result is their sum. -/
theorem addWritesSum : Obligations.AddWritesSum := fun _ _ _ =>
  ⟨decode_registerWord rfl rfl, fun _ _ hs => arithmetic_alone hs rfl rfl rfl rfl⟩

/-- Settles O7: both slots are registers and the result is first minus second. -/
theorem subWritesDifference : Obligations.SubWritesDifference := fun _ _ _ =>
  ⟨decode_registerWord rfl rfl, fun _ _ hs => arithmetic_alone hs rfl rfl rfl rfl⟩

/-- The product of two words is the word of the product of their unsigned readings (R103). -/
theorem mul_eq_ofNat {n : Nat} (x y : Word n) : x * y = BitVec.ofNat n (x.toNat * y.toNat) := by
  apply BitVec.eq_of_toNat_eq
  rw [BitVec.toNat_mul, BitVec.toNat_ofNat]

/-- The product of two words is the word of the product of their signed readings (R103). -/
theorem mul_eq_ofInt {n : Nat} (x y : Word n) : x * y = BitVec.ofInt n (x.toInt * y.toInt) := by
  rw [BitVec.ofInt_mul, BitVec.ofInt_toInt, BitVec.ofInt_toInt]

/-- Settles O8: the product Execute computes is the word of the unsigned readings' product and of the signed ones'. -/
theorem multWritesLowProduct : Obligations.MultWritesLowProduct := by
  refine fun d a b => ⟨decode_registerWord rfl rfl, fun p s hs => ?_⟩
  obtain ⟨s1, hfetch, hfeed⟩ := arithmetic_alone (i := .mult d a b) hs rfl rfl rfl rfl
  refine ⟨s1, hfetch, ?_, ?_⟩
  · rw [← mul_eq_ofNat]
    exact hfeed
  · rw [← mul_eq_ofNat, mul_eq_ofInt]

/-- Settles O9: the second slot is the field, sign-extended, and the result adds it to the register. -/
theorem addImmWritesSum : Obligations.AddImmWritesSum := fun _ _ _ =>
  ⟨decode_immediateWord rfl rfl, fun _ _ hs => arithmetic_alone hs rfl rfl rfl rfl⟩

/-- Settles O10: the second slot is the field, sign-extended, and the result subtracts it from the register. -/
theorem subImmWritesDifference : Obligations.SubImmWritesDifference := fun _ _ _ =>
  ⟨decode_immediateWord rfl rfl, fun _ _ hs => arithmetic_alone hs rfl rfl rfl rfl⟩

/-- Settles O11: the second slot is the field, sign-extended, and the result is its product with the register. -/
theorem multImmWritesLowProduct : Obligations.MultImmWritesLowProduct := fun _ _ _ =>
  ⟨decode_immediateWord rfl rfl, fun _ _ hs => arithmetic_alone hs rfl rfl rfl rfl⟩

end Sys2Proof.Machine
end

section
/-! PROOF. `lw` and `sw` alone in the pipeline (R120, R121): the passage up to the Memory cycle and the two faults there
are proved once for both, the access and what follows it for each. -/

namespace Sys2Proof.Machine

open Sys2Proof

/-! ### Execute and Memory, each alone in its cycle -/

section effects

variable {p : Params} {s : Engine p} {i : Instr} {l : Latch p.xlen}

/-- With no register in flight Execute computes from the slots Decode wrote and queues the destination, if the record
has one (R179 to R181). -/
theorem executeEffect_of_none_pending (hi : s.l2.instr = i) (hq : s.hq = []) (hdepth : 0 < p.hqDepth)
    (hu : usesAlu i = true) (hc : compute s.l2 = .ok l) :
    executeEffect s = .ok { s with l2 := l, hq := (destOf i).toList ++ s.hq } := by
  subst hi
  cases hd : destOf s.l2.instr with
  | some d => exact executeEffect_of_hq_nil hq hdepth hu hd hc
  | none =>
    have hfinish : executeFinish s.l2 s = .ok { s with l2 := l } := executeFinish_ok.2 ⟨l, hc, .inl ⟨hd, rfl⟩⟩
    simpa [executeEffect, hu, hq] using hfinish

/-- A load from a cell leaves its word in the record's `result` (R120). -/
theorem memoryEffect_load {addr : Word p.xlen} (hk : kindOf s.l3.instr = .load) (h1 : s.l3.resolvedSrc1 = some addr)
    (hf : dataAddressFault p.memBytes addr = none) : memoryEffect s =
      .ok { s with l3 := { s.l3 with result := some (readCell p.xlen s.mem addr.toNat) } } := by
  simp [memoryEffect, loadEffect, writesMemory_iff, readsMemory_iff, hk, h1, memRead_ok.2 ⟨hf, rfl⟩]

/-- A store to a cell writes it (R121). -/
theorem memoryEffect_store {addr v : Word p.xlen} (hk : kindOf s.l3.instr = .store)
    (h2 : s.l3.resolvedSrc2 = some addr) (h1 : s.l3.resolvedSrc1 = some v)
    (hf : dataAddressFault p.memBytes addr = none) :
    memoryEffect s = .ok { s with mem := writeCell s.mem addr.toNat v } := by
  simp [memoryEffect, storeEffect, writesMemory_iff, hk, h1, h2, memWrite_ok.2 ⟨hf, rfl⟩]

/-- A cycle in which Execute alone has work, whether or not the record there has a destination. -/
theorem lateEffects_execute_only (hi : s.l2.instr = i) (hq : s.hq = []) (hdepth : 0 < p.hqDepth)
    (hu : usesAlu i = true) (hc : compute s.l2 = .ok l) (hw : writesMemory s.l3.instr = false)
    (hr : readsMemory s.l3.instr = false) (h4 : destOf s.l4.instr = none) :
    lateEffects s = .ok (closeCycle { s with l2 := l, hq := (destOf i).toList ++ s.hq }) :=
  lateEffects_ok.2 ⟨_, _, _, _, executeEffect_of_none_pending hi hq hdepth hu hc, memoryEffect_of_no_access hw hr,
    writebackEffect_of_no_dest h4, retire_of_no_dest h4, rfl⟩

/-- A cycle in which Memory alone has work: the record in Writeback has no destination. -/
theorem lateEffects_memory {t : Engine p} (hu : usesAlu s.l2.instr = false) (hm : memoryEffect s = .ok t)
    (h4 : destOf t.l4.instr = none) : lateEffects s = .ok (closeCycle t) :=
  lateEffects_ok.2 ⟨s, t, t, t, executeEffect_of_not_usesAlu hu, hm, writebackEffect_of_no_dest h4,
    retire_of_no_dest h4, rfl⟩

/-- A fault of Memory is the fault of the late effects where Execute has no work (R150). -/
theorem lateEffects_memory_fault {c : FaultCause} (hu : usesAlu s.l2.instr = false) (hm : memoryEffect s = .error c) :
    lateEffects s = .error c := by
  simp only [lateEffects, executeEffect_of_not_usesAlu hu, hm]

end effects

/-! ### The passage of a load or a store up to its Memory cycle -/

/-- Decode keeps the construction fields (R28). -/
theorem decodeSlots_instr {n : Nat} (x : Regs n) (l : Latch n) : (decodeSlots x l).instr = l.instr := by
  unfold decodeSlots
  split <;> rfl

/-- A record that uses the ALU has no target and is not the bubble (R28, R71). -/
theorem usesAlu_not_jump_not_empty {i : Instr} (n : Nat) (hu : usesAlu i = true) :
    targetOf n i = none ∧ isEmpty i = false := by
  cases i <;> simp_all

/-- Fetched in a quiet state and followed by two Empty words, a record that uses the ALU has read its operands and
passed Execute: it stands in the Execute latch as `compute` leaves it, its destination in the hazard queue. -/
theorem executed_alone {p : Params} {s : Engine p} {i : Instr} {l : Latch p.xlen} (hs : Quiet s)
    (hu : usesAlu i = true) (hc : compute (decodeSlots s.x (Latch.fresh i)) = .ok l) :
    ∃ s1 : Engine p, exec i s.pack = .next s1.pack ∧ feed [.empty, .empty] s1.pack =
      .next (Engine.carrying { s with hq := (destOf i).toList ++ s.hq } 3 Latch.bubble Latch.bubble l
        Latch.bubble Latch.bubble).pack := by
  obtain ⟨-, -, -, -, -, hdepth⟩ := hs.params_wf
  have hr := hs.running
  have hst := hs.stall
  obtain ⟨hdone, -⟩ : s.done = false ∧ s.fault = false := by simpa [running] using hr
  obtain ⟨hj, hne⟩ := usesAlu_not_jump_not_empty p.xlen hu
  have hi : (decodeSlots s.x (Latch.fresh i)).instr = i := decodeSlots_instr s.x _
  have hil : l.instr = i := (compute_instr hc).trans hi
  have hfetch : exec i s.pack =
      .next (s.carrying 1 (Latch.fresh i) Latch.bubble Latch.bubble Latch.bubble Latch.bubble).pack := by
    conv_lhs => rw [hs.eq_carrying]
    exact exec_carrying hr hst rfl (lateEffects_idle rfl rfl rfl rfl) (by simp [hne, hdone])
  have hread : exec .empty (s.carrying 1 (Latch.fresh i) Latch.bubble Latch.bubble Latch.bubble Latch.bubble).pack =
      .next (s.carrying 2 Latch.bubble (decodeSlots s.x (Latch.fresh i)) Latch.bubble Latch.bubble
        Latch.bubble).pack :=
    exec_carrying hr hst hj (lateEffects_idle rfl rfl rfl rfl) (by simp [hi, hne, hdone])
  have hcomputes : exec .empty (s.carrying 2 Latch.bubble (decodeSlots s.x (Latch.fresh i)) Latch.bubble Latch.bubble
      Latch.bubble).pack =
      .next (Engine.carrying { s with hq := (destOf i).toList ++ s.hq } 3 Latch.bubble Latch.bubble l Latch.bubble
        Latch.bubble).pack :=
    exec_carrying hr hst rfl (lateEffects_execute_only hi hs.hq (by omega) hu hc rfl rfl rfl)
      (by simp [hil, hne, hdone])
  refine ⟨_, hfetch, ?_⟩
  rw [feed_cons hread, feed_cons hcomputes]
  rfl

/-! ### The Memory cycle of a load or a store -/

section memoryCycle

variable {p : Params} {s : Engine p} {l : Latch p.xlen} {addr : Word p.xlen} {n : Nat}

/-- A data address that names no cell is the fault of the cycle that takes the record into Memory (R57, R150). -/
theorem exec_access_fault {c : FaultCause} (hr : running s = true) (hs : s.stall = false)
    (hl : operandsWritten l = true) (ha : accessAddress l = some addr)
    (hc : dataAddressFault p.memBytes addr = some c) :
    exec .empty (s.carrying n Latch.bubble Latch.bubble l Latch.bubble Latch.bubble).pack =
      takeFault c (s.carrying n Latch.bubble Latch.bubble l Latch.bubble Latch.bubble) := by
  rw [exec_eq_cycle]
  refine cycle_of_effects_error hr ?_
  rw [cycleEffects, earlyEffects_carrying n .empty hs rfl]
  exact lateEffects_memory_fault rfl (memoryEffect_fault hl ha hc)

/-- The three cases of a data address in the Memory cycle, in the order of R59: the two faults, and `accessed`, whatever
follows from an address that names a cell. -/
theorem memory_cycle_cases {accessed : Prop} (hr : running s = true) (hs : s.stall = false)
    (hl : operandsWritten l = true) (ha : accessAddress l = some addr) {s3 : Engine p}
    (hs3 : s3 = s.carrying n Latch.bubble Latch.bubble l Latch.bubble Latch.bubble)
    (hok : dataAddressFault p.memBytes addr = none → accessed) :
    if addr.toNat % 4 ≠ 0 then
      exec .empty s3.pack = .fault (.dataMisaligned (Engine.pack { s3 with fault := true, faultCause := 3#3 }))
    else if p.memBytes ≤ addr.toNat then
      exec .empty s3.pack = .fault (.dataOutOfRange (Engine.pack { s3 with fault := true, faultCause := 4#3 }))
    else accessed := by
  subst hs3
  split
  · exact exec_access_fault hr hs hl ha (dataAddressFault_of_misaligned ‹_›)
  · have h4 : addr.toNat % 4 = 0 := not_not.1 ‹_›
    split
    · exact exec_access_fault hr hs hl ha (dataAddressFault_of_outOfRange h4 ‹_›)
    · exact hok (dataAddressFault_none.2 ⟨h4, not_le.1 ‹_›⟩)

end memoryCycle

/-! ### The two instructions -/

/-- From its Memory cycle on, a Load of a cell takes the word into its record, and writes it to the destination and
leaves the hazard queue one cycle later. -/
theorem load_completes {p : Params} {s : Engine p} {l : Latch p.xlen} {d : RegId} {addr : Word p.xlen} (hs : Quiet s)
    (hk : kindOf l.instr = .load) (hd : destOf l.instr = some d) (h1 : l.resolvedSrc1 = some addr)
    (hf : dataAddressFault p.memBytes addr = none) :
    feed [.empty, .empty] (Engine.carrying { s with hq := d :: s.hq } 3 Latch.bubble Latch.bubble l Latch.bubble
        Latch.bubble).pack =
      .next (Engine.pack { passed s { l with result := some (readCell p.xlen s.mem addr.toNat) } with
        x := writeReg s.x d (readCell p.xlen s.mem addr.toNat) }) := by
  have hr := hs.running
  have hst := hs.stall
  obtain ⟨hdone, -⟩ : s.done = false ∧ s.fault = false := by simpa [running] using hr
  have hne : isEmpty l.instr = false := by simp [isEmpty, hk]
  have hloads : exec .empty (Engine.carrying { s with hq := d :: s.hq } 3 Latch.bubble Latch.bubble l Latch.bubble
      Latch.bubble).pack =
      .next (Engine.carrying { s with hq := d :: s.hq } 4 Latch.bubble Latch.bubble Latch.bubble
        { l with result := some (readCell p.xlen s.mem addr.toNat) } Latch.bubble).pack :=
    exec_carrying hr hst rfl (lateEffects_memory rfl (memoryEffect_load hk h1 hf) rfl) (by simp [hne, hdone])
  have hwrites : exec .empty (Engine.carrying { s with hq := d :: s.hq } 4 Latch.bubble Latch.bubble Latch.bubble
      { l with result := some (readCell p.xlen s.mem addr.toNat) } Latch.bubble).pack =
      .next (Engine.carrying { s with x := writeReg s.x d (readCell p.xlen s.mem addr.toNat) } 5 Latch.bubble
        Latch.bubble Latch.bubble Latch.bubble { l with result := some (readCell p.xlen s.mem addr.toNat) }).pack :=
    exec_carrying hr hst rfl (lateEffects_writeback rfl rfl rfl hd rfl rfl) (by simp [hne, hdone])
  rw [feed_cons hloads, feed_cons hwrites]
  rfl

/-- From its Memory cycle on, a Store to a cell writes it, and passes Writeback without effect. -/
theorem store_completes {p : Params} {s : Engine p} {l : Latch p.xlen} {addr v : Word p.xlen} (hs : Quiet s)
    (hk : kindOf l.instr = .store) (h2 : l.resolvedSrc2 = some addr) (h1 : l.resolvedSrc1 = some v)
    (hf : dataAddressFault p.memBytes addr = none) :
    feed [.empty, .empty] (s.carrying 3 Latch.bubble Latch.bubble l Latch.bubble Latch.bubble).pack =
      .next (Engine.pack { passed s l with mem := writeCell s.mem addr.toNat v }) := by
  have hr := hs.running
  have hst := hs.stall
  obtain ⟨hdone, -⟩ : s.done = false ∧ s.fault = false := by simpa [running] using hr
  have hne : isEmpty l.instr = false := by simp [isEmpty, hk]
  obtain ⟨-, hw, -, -, -⟩ := flags_of_kind hk
  have hstores : exec .empty (s.carrying 3 Latch.bubble Latch.bubble l Latch.bubble Latch.bubble).pack =
      .next (Engine.carrying { s with mem := writeCell s.mem addr.toNat v } 4 Latch.bubble Latch.bubble Latch.bubble l
        Latch.bubble).pack :=
    exec_carrying hr hst rfl (lateEffects_memory rfl (memoryEffect_store hk h2 h1 hf) rfl) (by simp [hne, hdone])
  have hleaves : exec .empty (Engine.carrying { s with mem := writeCell s.mem addr.toNat v } 4 Latch.bubble
      Latch.bubble Latch.bubble l Latch.bubble).pack =
      .next (Engine.carrying { s with mem := writeCell s.mem addr.toNat v } 5 Latch.bubble Latch.bubble Latch.bubble
        Latch.bubble l).pack :=
    exec_carrying hr hst rfl (lateEffects_idle rfl rfl rfl ((destOf_none_iff _).2 hw)) (by simp [hne, hdone])
  rw [feed_cons hstores, feed_cons hleaves]
  rfl

/-- Settles O12: the record reaches Memory with the effective address in its first slot, and faults or loads there. -/
theorem lwLoadsCell : Obligations.LwLoadsCell := by
  refine fun d b imm16 => ⟨decode_immediateWord rfl rfl, fun p s hs => ?_⟩
  obtain ⟨s1, hfetch, hexecuted⟩ := executed_alone (i := .lw d b imm16.toInt) (l := ⟨.lw d b imm16.toInt,
    some (readReg s.x b + imm16.signExtend p.xlen), none, none⟩) hs rfl rfl
  exact ⟨s1, _, hfetch, hexecuted,
    memory_cycle_cases (s := { s with hq := d :: s.hq }) hs.running hs.stall rfl rfl rfl fun hf =>
      load_completes hs rfl rfl rfl hf⟩

/-- Settles O13: the record reaches Memory with the value in its first slot and the effective address in its second,
and faults or stores there; what memory then holds are the laws of a cell written. -/
theorem swStoresCell : Obligations.SwStoresCell := by
  refine fun v b imm16 => ⟨decode_immediateWord rfl rfl, fun p s hs => ?_⟩
  obtain ⟨s1, hfetch, hexecuted⟩ := executed_alone (i := .sw v b imm16.toInt) (l := ⟨.sw v b imm16.toInt,
    some (readReg s.x v), some (readReg s.x b + imm16.signExtend p.xlen), none⟩) hs rfl rfl
  exact ⟨s1, _, hfetch, hexecuted, rfl,
    memory_cycle_cases hs.running hs.stall rfl rfl rfl fun hf => ⟨_, store_completes hs rfl rfl rfl hf,
      fun hm => readCell_writeCell_same _ _ hm, fun _ ha => readByte_writeCell_outside s.mem _ ha⟩⟩

end Sys2Proof.Machine
end

section
/-! PROOF. `j` alone in the pipeline (R130, R133): the cycle in which Decode takes the jump, whatever Fetch takes in
it, and the passage of the record through the remaining stages. -/

namespace Sys2Proof

/-! ### The word of a jump (R75, R77) -/

/-- Every 26-bit field, read as an unsigned number, fits the field (R77). -/
theorem fitsTarget26_toNat (target26 : BitVec 26) : fitsTarget26 target26.toNat = true := by
  have hlt := target26.isLt
  rw [fitsTarget26, Bool.and_eq_true, decide_eq_true_eq, decide_eq_true_eq]
  omega

/-- The format J word of a 26-bit field's number has that field in its low bits (R75, R77). -/
theorem encodeJ_toNat (op : BitVec 6) (target26 : BitVec 26) : encodeJ op target26.toNat = op ++ target26 := by
  rw [encodeJ, BitVec.ofInt_natCast, BitVec.ofNat_toNat, BitVec.setWidth_eq]

/-- A word with the opcode of `j` is read as the Jump to its field's number. -/
theorem decode_jumpWord (target26 : BitVec 26) : decode (0x20#6 ++ target26) = .ok (.j target26.toNat) := by
  rw [← encodeJ_toNat]
  exact decode_encode (r := .j target26.toNat) (fitsTarget26_toNat target26)

end Sys2Proof

namespace Sys2Proof.Machine

open Sys2Proof

/-! ### The cycle in which a Jump is in Decode -/

/-- The state `s` after the advance, Fetch and Decode of the cycle in which a Jump leaves the Fetch latch and Fetch
takes `discarded`: the pc is the target, and of the slot fetched only its count is left (R130, R176). -/
def Engine.jumping {p : Params} (s : Engine p) (target : Word p.xlen) (discarded : Option Instr) : Engine p :=
  { s with
    pc := target
    l0 := Latch.bubble
    l1 := s.l0
    l2 := s.l1
    l3 := s.l2
    l4 := s.l3
    fetched := if discarded.isSome = true then s.fetched + 1#p.ctrW else s.fetched }

section jump

variable {p : Params} {s : Engine p} {v : Int}

/-- With a Jump in the Fetch latch, advance, Fetch and Decode make that state, whatever Fetch takes (R25, R176). -/
theorem earlyEffects_jump (discarded : Option Instr) (hs : s.stall = false) (h0 : s.l0 = Latch.fresh (.j v)) :
    earlyEffects discarded s = s.jumping (literalWord p.xlen v) discarded := by
  cases discarded <;>
    simp [earlyEffects, advance, fetchEffect, decodeEffect, decodeSlots, jumpEffect, Engine.jumping, hs, h0]

/-- The whole cycle, where the latches behind the Fetch latch hold bubbles: the late effects have no work. -/
theorem cycle_jump (discarded : Option Instr) (hr : running s = true) (hs : s.stall = false)
    (h0 : s.l0 = Latch.fresh (.j v)) (h1 : s.l1 = Latch.bubble) (h2 : s.l2 = Latch.bubble)
    (h3 : s.l3 = Latch.bubble) :
    cycle discarded s.pack = .next (closeCycle (s.jumping (literalWord p.xlen v) discarded)).pack := by
  refine cycle_pack.2 ⟨hr, ?_⟩
  rw [earlyEffects_jump discarded hs h0]
  exact lateEffects_idle (by simp [Engine.jumping, h1]) (by simp [Engine.jumping, h2])
    (by simp [Engine.jumping, h2]) (by simp [Engine.jumping, h3])

/-- That cycle does not end the run: the Jump is still in the pipeline (R148). -/
theorem running_closeCycle_jumping (target : Word p.xlen) (discarded : Option Instr) (hr : running s = true)
    (h0 : s.l0 = Latch.fresh (.j v)) : running (closeCycle (s.jumping target discarded)) = true := by
  obtain ⟨-, hfault⟩ : s.done = false ∧ s.fault = false := by simpa [running] using hr
  simp [running, closeCycle, allEmpty, Engine.jumping, h0, hfault]

/-! ### The Jump before and after that cycle -/

/-- A Jump fetched in a quiet state stands in the Fetch latch one cycle later. -/
theorem jump_fetched (hs : Quiet s) : exec (.j v) s.pack =
    .next (s.carrying 1 (Latch.fresh (.j v)) Latch.bubble Latch.bubble Latch.bubble Latch.bubble).pack := by
  obtain ⟨hdone, -⟩ : s.done = false ∧ s.fault = false := by simpa [running] using hs.running
  conv_lhs => rw [hs.eq_carrying]
  exact exec_carrying hs.running hs.stall rfl (lateEffects_idle rfl rfl rfl rfl) (by simp [hdone])

/-- A state is itself after no cycle. -/
theorem carrying_zero (s : Engine p) : s.carrying 0 s.l0 s.l1 s.l2 s.l3 s.l4 = s := by
  simp [Engine.carrying]

/-- A Jump that has left Decode, with bubbles around it, passes Execute, Memory and Writeback without effect, with
three Empty words behind it. -/
theorem jump_drains (hr : running s = true) (hs : s.stall = false) (h0 : s.l0 = Latch.bubble)
    (h1 : s.l1 = Latch.fresh (.j v)) (h2 : s.l2 = Latch.bubble) (h3 : s.l3 = Latch.bubble) :
    feed [.empty, .empty, .empty] s.pack =
      .next (s.carrying 3 Latch.bubble Latch.bubble Latch.bubble Latch.bubble (Latch.fresh (.j v))).pack := by
  obtain ⟨hdone, -⟩ : s.done = false ∧ s.fault = false := by simpa [running] using hr
  have hexecute : exec .empty s.pack =
      .next (s.carrying 1 Latch.bubble Latch.bubble (Latch.fresh (.j v)) Latch.bubble Latch.bubble).pack := by
    conv_lhs => rw [← carrying_zero s, h0, h1, h2, h3]
    exact exec_carrying hr hs rfl (lateEffects_idle rfl rfl rfl rfl) (by simp [hdone])
  have hmemory : exec .empty
      (s.carrying 1 Latch.bubble Latch.bubble (Latch.fresh (.j v)) Latch.bubble Latch.bubble).pack =
      .next (s.carrying 2 Latch.bubble Latch.bubble Latch.bubble (Latch.fresh (.j v)) Latch.bubble).pack :=
    exec_carrying hr hs rfl (lateEffects_idle rfl rfl rfl rfl) (by simp [hdone])
  have hwriteback : exec .empty
      (s.carrying 2 Latch.bubble Latch.bubble Latch.bubble (Latch.fresh (.j v)) Latch.bubble).pack =
      .next (s.carrying 3 Latch.bubble Latch.bubble Latch.bubble Latch.bubble (Latch.fresh (.j v))).pack :=
    exec_carrying hr hs rfl (lateEffects_idle rfl rfl rfl rfl) (by simp [hdone])
  rw [feed_cons hexecute, feed_cons hmemory, feed_cons hwriteback]
  rfl

end jump

/-- Settles O14: the jump is fetched, takes the pc from Decode with whatever slot Fetch takes then, and drains. -/
theorem jumpDiscardsExactlyOneInstruction : Obligations.JumpDiscardsExactlyOneInstruction := by
  refine fun target26 => ⟨decode_jumpWord target26, fun p s hs => ⟨_, jump_fetched hs, rfl, rfl, fun discarded => ?_⟩⟩
  obtain ⟨hdone, -⟩ : s.done = false ∧ s.fault = false := by simpa [running] using hs.running
  have htarget := literalWord_target p.xlen target26
  have hrunning := running_closeCycle_jumping (s := s.carrying 1 (Latch.fresh (.j target26.toNat)) Latch.bubble
    Latch.bubble Latch.bubble Latch.bubble) (literalWord p.xlen target26.toNat) discarded hs.running rfl
  refine ⟨_, cycle_jump discarded hs.running hs.stall rfl rfl rfl rfl, htarget, rfl, rfl, ?_⟩
  rw [jump_drains hrunning hs.stall rfl rfl rfl rfl]
  simp [passed, closeCycle, Engine.jumping, Engine.carrying, htarget, BitVec.add_assoc, ofNat_add_ofNat,
    allEmpty, hdone]

end Sys2Proof.Machine
end

section
/-! PROOF. The end of a committed cycle (R148, R149), and the edges of a stopped engine (R153, R260). -/

namespace Sys2Proof.Machine

open Sys2Proof

/-! ### Termination and the cycle counter -/

/-- The termination test, latch by latch (R148). -/
theorem allEmpty_iff {p : Params} {s : Engine p} : allEmpty s = true ↔ s.l0.instr = .empty ∧ s.l1.instr = .empty ∧
    s.l2.instr = .empty ∧ s.l3.instr = .empty ∧ s.l4.instr = .empty := by
  simp only [allEmpty, Bool.and_eq_true, isEmpty_iff, and_assoc]

/-- Settles O24, from what the late effects make of the cycle counter and the termination flag. -/
theorem everyCycleCountsAndTestsTermination : Obligations.EveryCycleCountsAndTestsTermination := by
  intro p s t h
  obtain ⟨f, -, -, hlate⟩ := step_late h
  obtain ⟨-, -, -, -, -, -, -, hcycle, hdone, -, -⟩ := lateEffects_frame hlate
  rw [early_cycle] at hcycle
  exact ⟨hcycle, by rw [hdone, allEmpty_iff]⟩

/-! ### The edges of a stopped engine -/

/-- A stopped engine performs no cycle (R140, R153). -/
theorem step_of_not_running {p : Params} {s : Engine p} (h : running s = false) :
    step s.pack = .fault (.engineStopped s.pack) := by
  simp only [step, h, Bool.false_eq_true, if_false]

section clockEdge

variable {p : Params} (q : Params) (x : Regs q.xlen) (m : Memory) {s : Engine p}

/-- An edge with reset low leaves a stopped engine as it is (R153). -/
theorem clockEdge_of_not_running (h : running s = false) : clockEdge false q x m s.pack = s.pack := by
  simp only [clockEdge, Bool.false_eq_true, if_false, step_of_not_running h, stoppedState]

/-- An edge with reset low on which the step faults only writes the fault record (R150, R234). -/
theorem clockEdge_of_takeFault {c : FaultCause} (h : step s.pack = takeFault c s) :
    clockEdge false q x m s.pack = (recordFault c s).pack := by
  simp only [clockEdge, Bool.false_eq_true, if_false, h]
  cases c <;> rfl

/-- An edge with reset high makes the reset state of what the host has loaded, whatever the state was (R260). -/
theorem clockEdge_reset (u : State) : clockEdge true q x m u = (Engine.atReset q x m).pack := rfl

end clockEdge

/-- Either flag stops the engine (R153). -/
theorem not_running_iff {p : Params} {s : Engine p} : running s = false ↔ s.done = true ∨ s.fault = true := by
  cases hd : s.done <;> simp [running, hd]

/-- Settles O47: a stopped engine performs no cycle, a fault record stops it, and reset reads nothing of the state. -/
theorem onlyResetLeavesAStoppedState : Obligations.OnlyResetLeavesAStoppedState := by
  intro p q s x m
  refine ⟨fun h => clockEdge_of_not_running q x m (not_running_iff.2 h), fun c h => ?_,
    BitVec.ofNat q.xlen q.codeBase, fun hlt => ?_, clockEdge_reset q x m s.pack⟩
  · have hstopped : running (recordFault c s) = false := not_running_iff.2 (.inr (recordFault_fault c s))
    rw [clockEdge_of_takeFault q x m h]
    exact ⟨rfl, clockEdge_of_not_running q x m hstopped⟩
  · rw [BitVec.toNat_ofNat, Nat.mod_eq_of_lt hlt]

end Sys2Proof.Machine
end

section
/-! PROOF. What a cycle leaves in the Decode latch (R174, R175) and in the Execute latch (R181). -/

namespace Sys2Proof.Machine

open Sys2Proof

/-! ### The slots Decode writes -/

section decodeSlots

variable {n : Nat} {x : Regs n} {l : Latch n} {r : RegId} {v : Word n}

/-- Only a record that reads registers has a second source register (R28, R71). -/
theorem readsRegisters_of_src2Of {i : Instr} (h : src2Of i = some r) : readsRegisters i = true := by
  cases i <;> simp_all

/-- An Arithmetic's second operand is a register or an immediate, never both (R28). -/
theorem immOf_of_src2Of {i : Instr} (hk : kindOf i = .arithmetic) (h : src2Of i = some r) : immOf n i = none := by
  cases i <;> simp_all

/-- A Load has no second source register (R28). -/
theorem src2Of_of_load {i : Instr} (hk : kindOf i = .load) : src2Of i = none := by
  cases i <;> simp_all

/-- The first slot is read from the first source register (R174). -/
theorem decodeSlots_src1 (h : src1Of l.instr = some r) : (decodeSlots x l).resolvedSrc1 = some (readReg x r) := by
  have hread : readsRegisters l.instr = true := by rw [← src1Of_isSome, h]; rfl
  simp only [decodeSlots, hread, h, if_true]

/-- The second slot is read from the second source register, if there is one (R174). -/
theorem decodeSlots_src2 (h : src2Of l.instr = some r) : (decodeSlots x l).resolvedSrc2 = some (readReg x r) := by
  simp only [decodeSlots, readsRegisters_of_src2Of h, if_true]
  split
  · rename_i hk himm
    cases (immOf_of_src2Of hk h).symm.trans himm
  · simp only [h]

/-- The second slot of an Arithmetic in immediate form is its immediate (R175). -/
theorem decodeSlots_immediate (hk : kindOf l.instr = .arithmetic) (h : immOf n l.instr = some v) :
    (decodeSlots x l).resolvedSrc2 = some v := by
  obtain ⟨hread, -⟩ := flags_of_kind hk
  simp only [decodeSlots, hread, flagsOf, hk, h, if_true]

/-- Decode leaves a Load's second slot as it is (R175). -/
theorem decodeSlots_load (hk : kindOf l.instr = .load) : (decodeSlots x l).resolvedSrc2 = l.resolvedSrc2 := by
  obtain ⟨hread, -⟩ := flags_of_kind hk
  simp only [decodeSlots, hread, flagsOf, hk, src2Of_of_load hk, if_true]

end decodeSlots

/-- The record a step leaves in the Decode latch is the one that entered it, its slots read from the registers of the
start of the cycle (R23, R174). -/
theorem step_l1 {p : Params} {s t : Engine p} (h : step s.pack = .next t.pack) :
    t.l1 = decodeSlots s.x (enteringDecode s) := by
  obtain ⟨f, -, -, hlate⟩ := step_late h
  obtain ⟨-, -, hl1, -⟩ := lateEffects_frame hlate
  exact hl1.trans (early_l1 f s)

/-- Settles O20: the record is the one that entered Decode, and each slot is what Decode writes in it. -/
theorem decodeReadsRegistersOfCycleStart : Obligations.DecodeReadsRegistersOfCycleStart := by
  intro p s t h
  rw [step_l1 h, decodeSlots_instr]
  exact ⟨rfl, fun _ => decodeSlots_src1, fun _ => decodeSlots_src2, fun _ => decodeSlots_immediate, decodeSlots_load⟩

/-! ### What `compute` answers, by kind of record -/

/-- The operation of each operator (R101 to R103). -/
def opResult {n : Nat} : ArithOp → Word n → Word n → Word n
  | .add => addResult
  | .sub => subResult
  | .mult => multResult

/-- In both operand forms an Arithmetic computes the operation of its operator (R181). -/
theorem compute_arithmetic {n : Nat} {l : Latch n} {op : ArithOp} (h : opOf l.instr = some op) :
    compute l = setResult (opResult op) l := by
  obtain ⟨i, r1, r2, r⟩ := l
  cases i <;> cases h <;> rfl

theorem compute_lw {n : Nat} {l : Latch n} {d base : RegId} {off : Int} (h : l.instr = .lw d base off) :
    compute l = lwAddress (literalWord n off) l := by
  simp only [compute, h]

theorem compute_sw {n : Nat} {l : Latch n} {v base : RegId} {off : Int} (h : l.instr = .sw v base off) :
    compute l = swAddress (literalWord n off) l := by
  simp only [compute, h]

/-- Only an Arithmetic has an operator (R28). -/
theorem kindOf_of_opOf {i : Instr} {op : ArithOp} (h : opOf i = some op) : kindOf i = .arithmetic := by
  cases i <;> simp_all

/-! ### An Execute pass that does not stall -/

section unstalled

variable {p : Params} {s t : Engine p}

/-- An Execute pass that raises no stall found both sources clear and computed from what the checks left in the slots
(R179 to R182). -/
theorem executeEffect_unstalled (h : executeEffect s = .ok t) (hst : t.stall = false)
    (hu : usesAlu s.l2.instr = true) :
    ∃ v1 v2, checkSource s.hq s.l3 s.l4 (src1Of s.l2.instr) s.l2.resolvedSrc1 = .clear v1 ∧
      checkSource s.hq s.l3 s.l4 (src2Of s.l2.instr) s.l2.resolvedSrc2 = .clear v2 ∧
      compute { s.l2 with resolvedSrc1 := v1, resolvedSrc2 := v2 } = .ok t.l2 := by
  rcases executeEffect_cases h with ⟨hn, -⟩ | ⟨-, -, rfl⟩ | ⟨_, -, -, -, rfl⟩ | ⟨v1, v2, -, h1, h2, hf⟩
  · cases hn.symm.trans hu
  · cases hst
  · cases hst
  · obtain ⟨l', hc, ⟨-, rfl⟩ | ⟨d, -, -, rfl⟩⟩ := executeFinish_ok.1 hf
    · exact ⟨v1, v2, h1, h2, hc⟩
    · exact ⟨v1, v2, h1, h2, hc⟩

/-- A clear check of the next cycle leaves the operand Execute works with (R179). -/
theorem operandSeen_of_clear {src : Option RegId} {slot v : Option (Word p.xlen)}
    (h : checkSource s.hq (enteringMemory s) (enteringWriteback s) src slot = .clear v) :
    operandSeen s src slot = v := by
  simp only [operandSeen, sourceCheck, h]

/-- The record entering Execute in the next cycle, with the operands as forwarded in its slots (R179). -/
def withOperandsSeen (s : Engine p) : Latch p.xlen :=
  { enteringExecute s with
    resolvedSrc1 := operandSeen s (src1Of (enteringExecute s).instr) (enteringExecute s).resolvedSrc1
    resolvedSrc2 := operandSeen s (src2Of (enteringExecute s).instr) (enteringExecute s).resolvedSrc2 }

/-- The record an unstalled step leaves in the Execute latch is computed from the operands as forwarded (R181). -/
theorem step_computes (h : step s.pack = .next t.pack) (hst : t.stall = false)
    (hu : usesAlu (enteringExecute s).instr = true) : compute (withOperandsSeen s) = .ok t.l2 := by
  obtain ⟨f, -, -, hlate⟩ := step_late h
  obtain ⟨s3, h3, hstall, hl2, -⟩ := lateEffects_cases hlate
  obtain ⟨v1, v2, h1, h2, hc⟩ := executeEffect_unstalled h3 (hstall.symm.trans hst) (by rwa [early_l2])
  rw [early_hq, early_l2, early_l3, early_l4] at h1 h2
  rw [early_l2, ← hl2] at hc
  rwa [withOperandsSeen, operandSeen_of_clear h1, operandSeen_of_clear h2]

/-- The result of an Arithmetic (R181). -/
theorem step_arithmetic_result {op : ArithOp} (h : step s.pack = .next t.pack) (hst : t.stall = false)
    (hop : opOf (enteringExecute s).instr = some op) :
    ∃ a b, (withOperandsSeen s).resolvedSrc1 = some a ∧ (withOperandsSeen s).resolvedSrc2 = some b ∧
      t.l2.result = some (opResult op a b) := by
  obtain ⟨-, -, -, -, hu⟩ := flags_of_kind (kindOf_of_opOf hop)
  have hset : setResult (opResult op) (withOperandsSeen s) = .ok t.l2 :=
    (compute_arithmetic (l := withOperandsSeen s) hop).symm.trans (step_computes h hst hu)
  obtain ⟨a, b, ha, hb, hl2⟩ := setResult_ok.1 hset
  exact ⟨a, b, ha, hb, by rw [hl2]⟩

/-- The effective address of a Load (R120, R181). -/
theorem step_load_address {d base : RegId} {off : Int} (h : step s.pack = .next t.pack) (hst : t.stall = false)
    (hi : (enteringExecute s).instr = .lw d base off) :
    ∃ a, operandSeen s (some base) (enteringExecute s).resolvedSrc1 = some a ∧
      t.l2.resolvedSrc1 = some (a + literalWord p.xlen off) := by
  have haddr : lwAddress (literalWord p.xlen off) (withOperandsSeen s) = .ok t.l2 :=
    (compute_lw (l := withOperandsSeen s) hi).symm.trans (step_computes h hst (by rw [hi]; rfl))
  obtain ⟨a, ha, hl2⟩ := lwAddress_ok.1 haddr
  rw [withOperandsSeen, hi] at ha
  exact ⟨a, ha, by rw [hl2]; rfl⟩

/-- The effective address of a Store, and the value it keeps (R121, R181). -/
theorem step_store_address {v base : RegId} {off : Int} (h : step s.pack = .next t.pack) (hst : t.stall = false)
    (hi : (enteringExecute s).instr = .sw v base off) :
    ∃ b, operandSeen s (some base) (enteringExecute s).resolvedSrc2 = some b ∧
      t.l2.resolvedSrc2 = some (b + literalWord p.xlen off) ∧
      t.l2.resolvedSrc1 = operandSeen s (some v) (enteringExecute s).resolvedSrc1 := by
  have haddr : swAddress (literalWord p.xlen off) (withOperandsSeen s) = .ok t.l2 :=
    (compute_sw (l := withOperandsSeen s) hi).symm.trans (step_computes h hst (by rw [hi]; rfl))
  obtain ⟨b, hb, hl2⟩ := swAddress_ok.1 haddr
  rw [withOperandsSeen, hi] at hb
  exact ⟨b, hb, by rw [hl2]; rfl, by rw [hl2, withOperandsSeen, hi]; rfl⟩

end unstalled

/-- Settles O29, from what an unstalled step computes for each kind and the totality of Execute in a sound state. -/
theorem executeComputesFromOperandsSeen : Obligations.ExecuteComputesFromOperandsSeen := by
  refine ⟨fun p s t h hst => ⟨fun op hop => ?_, fun _ _ _ hi => step_load_address h hst hi,
    fun _ _ _ hi => step_store_address h hst hi⟩, fun p s f c hs herr => ?_⟩
  · obtain ⟨a, b, ha, hb, hv⟩ := step_arithmetic_result h hst hop
    exact ⟨a, b, ha, hb, hv.trans (by cases op <;> rfl)⟩
  · obtain ⟨t, ht⟩ := hs.executeEffect_total f
    cases ht.symm.trans herr

end Sys2Proof.Machine
end

section
/-! PROOF. The forwarding arbiter (R202), the stall (R204), and the content and bounds of the hazard queue (R206,
R207). -/

namespace Sys2Proof.Machine

open Sys2Proof

/-! ### The arbiter -/

/-- The condition of R202 on a candidate in full: where there is no result the candidate is none in any case. -/
theorem candidate_eq_ite {n : Nat} (l : Latch n) (r : RegId) : candidate l r =
    if writesRegister l.instr = true ∧ destOf l.instr = some r ∧ l.result ≠ none then l.result else none := by
  unfold candidate
  cases l.result <;> simp

/-- `forward` is the first candidate that answers (R202). -/
theorem forward_eq_or {n : Nat} (l3 l4 : Latch n) (r : RegId) :
    forward l3 l4 r = (candidate l3 r).or (candidate l4 r) := by
  unfold forward
  cases candidate l3 r <;> rfl

/-- Settles O27: the Memory latch's candidate answers under its condition, and otherwise the Writeback latch's does. -/
theorem forwardSearchesMemoryThenWriteback : Obligations.ForwardSearchesMemoryThenWriteback := by
  intro n l3 l4 r
  rw [forward_eq_or, candidate_eq_ite l3, candidate_eq_ite l4]
  by_cases h : writesRegister l3.instr = true ∧ destOf l3.instr = some r ∧ l3.result ≠ none
  · rw [if_pos h, if_pos h]
    obtain ⟨-, -, hv⟩ := h
    exact Option.or_of_isSome (Option.isSome_iff_ne_none.2 hv)
  · rw [if_neg h, if_neg h, Option.none_or]

/-- The candidate for a record's own destination is its result. -/
theorem candidate_of_dest {n : Nat} {l : Latch n} {r : RegId} (h : destOf l.instr = some r) :
    candidate l r = l.result :=
  Option.ext fun v => by rw [candidate_eq_some, and_iff_right h]

/-- A record is no candidate for a register that is not its destination. -/
theorem candidate_of_ne_dest {n : Nat} {l : Latch n} {r : RegId} (h : destOf l.instr ≠ some r) :
    candidate l r = none :=
  Option.eq_none_iff_forall_ne_some.2 fun _ hv => h (candidate_eq_some.1 hv).1

/-! ### The sources Execute checks (R205) -/

theorem mem_sourcesOf {i : Instr} {r : RegId} : r ∈ sourcesOf i ↔ src1Of i = some r ∨ src2Of i = some r := by
  simp [sourcesOf]

/-- Only a record that uses the ALU has source registers (R71, R205). -/
theorem usesAlu_of_mem_sourcesOf {i : Instr} {r : RegId} (h : r ∈ sourcesOf i) : usesAlu i = true := by
  rw [usesAlu_eq_readsRegisters]
  obtain h1 | h2 := mem_sourcesOf.1 h
  · rw [← src1Of_isSome, h1]; rfl
  · exact readsRegisters_of_src2Of h2

/-- A record that does not use the ALU has no destination (R71). -/
theorem destOf_of_not_usesAlu {i : Instr} (h : usesAlu i = false) : destOf i = none := by
  cases i <;> simp_all

/-- A source is queued without a forward exactly when one of the two checks stalls, whatever the slots hold (R204). -/
theorem exists_blocked_source_iff {n : Nat} {hq : List RegId} {l3 l4 : Latch n} {i : Instr}
    (v1 v2 : Option (Word n)) : (∃ r ∈ sourcesOf i, r ∈ hq ∧ forward l3 l4 r = none) ↔
      checkSource hq l3 l4 (src1Of i) v1 = .stalled ∨ checkSource hq l3 l4 (src2Of i) v2 = .stalled := by
  simp only [checkSource_stalled, mem_sourcesOf, or_and_right, exists_or]

/-! ### What Execute does to the stall flag and the queue -/

section execute

variable {p : Params} {s t : Engine p}

/-- Execute raises the stall exactly when a source of its record is queued without a forward (R182, R204). -/
theorem executeEffect_stall_iff (h : executeEffect s = .ok t) (hs : s.stall = false) :
    t.stall = true ↔ ∃ r ∈ sourcesOf s.l2.instr, r ∈ s.hq ∧ forward s.l3 s.l4 r = none := by
  rw [exists_blocked_source_iff s.l2.resolvedSrc1 s.l2.resolvedSrc2]
  rcases executeEffect_cases h with ⟨hu, rfl⟩ | ⟨-, h1, rfl⟩ | ⟨_, -, -, h2, rfl⟩ | ⟨v1, v2, -, h1, h2, hf⟩
  · rw [← exists_blocked_source_iff, hs]
    refine iff_of_false Bool.false_ne_true fun ⟨r, hr, _⟩ => ?_
    cases hu.symm.trans (usesAlu_of_mem_sourcesOf hr)
  · simp [h1]
  · simp [h2]
  · obtain ⟨l', -, ⟨-, rfl⟩ | ⟨d, -, -, rfl⟩⟩ := executeFinish_ok.1 hf
    · simp [h1, h2, hs]
    · simp [h1, h2, hs]

/-- A pass that completes appends its record's destination to the queue, a stalled one appends nothing (R180, R182). -/
theorem executeEffect_hq (h : executeEffect s = .ok t) (hs : s.stall = false) :
    t.hq = s.hq ++ if t.stall = true then [] else destQueue s.l2 := by
  rcases executeEffect_cases h with ⟨hu, rfl⟩ | ⟨-, -, rfl⟩ | ⟨_, -, -, -, rfl⟩ | ⟨v1, v2, -, -, -, hf⟩
  · simp [destQueue, destOf_of_not_usesAlu hu]
  · simp
  · simp
  · obtain ⟨l', -, ⟨hd, rfl⟩ | ⟨d, hd, -, rfl⟩⟩ := executeFinish_ok.1 hf
    · simp_all [destQueue]
    · simp_all [destQueue]

end execute

/-- Settles O28: the step's stall flag is the one Execute leaves, on the records and the queue the advance hands it. -/
theorem stallRaisedExactlyWhenBlocked : Obligations.StallRaisedExactlyWhenBlocked := by
  intro p s t h
  obtain ⟨f, -, -, hlate⟩ := step_late h
  obtain ⟨s3, h3, hstall, -⟩ := lateEffects_cases hlate
  rw [hstall, executeEffect_stall_iff h3 (early_stall f s), early_l2, early_l3, early_l4, early_hq]
  rfl

/-! ### The queue of a sound state and of its next one (R206) -/

theorem destQueue_of_dest {n : Nat} {l : Latch n} {r : RegId} (h : destOf l.instr = some r) : destQueue l = [r] := by
  simp [destQueue, h]

/-- The destination queue looks at the construction fields alone. -/
theorem destQueue_congr {n : Nat} {l l' : Latch n} (h : l.instr = l'.instr) : destQueue l = destQueue l' := by
  simp only [destQueue, h]

/-- When Execute runs in the next cycle the queue holds the destinations of the records then in Writeback and in
Memory (R206). -/
theorem Sound.hq_eq {p : Params} {s : Engine p} (hs : Sound s) :
    s.hq = destQueue (enteringWriteback s) ++ destQueue (enteringMemory s) := by
  rw [hs.hq_content, boundaryQueue, enteringWriteback, enteringMemory]
  cases s.stall <;> rfl

/-- Retirement takes the entry of the record in Writeback off the front; what Memory holds stays, and what passed
Execute has been appended (R147, R180, R206). -/
theorem Sound.step_hq {p : Params} {s t : Engine p} (hs : Sound s) (h : step s.pack = .next t.pack) :
    t.hq = destQueue t.l3 ++ if t.stall = true then [] else destQueue t.l2 := by
  obtain ⟨f, -, -, hlate⟩ := step_late h
  obtain ⟨-, -, -, -, -, -, -, -, -, hi2, hi3⟩ := lateEffects_frame hlate
  obtain ⟨s3, h3, hstall, -, -, hretire⟩ := lateEffects_cases hlate
  have hq3 := executeEffect_hq h3 (early_stall f s)
  rw [early_hq, hs.hq_eq, ← hstall, ← destQueue_congr hi2, ← early_l3 f, ← destQueue_congr hi3,
    List.append_assoc] at hq3
  rcases hretire with ⟨d, v, r, hd, -, -, hpop⟩ | ⟨hd, -, hkeep⟩
  · rw [early_l4] at hd
    rw [destQueue_of_dest hd, hpop, List.singleton_append, List.cons.injEq] at hq3
    exact hq3.2
  · rw [early_l4] at hd
    rw [hkeep, hq3, destQueue, hd]
    rfl

/-- Settles O31: the content before Execute is the invariant's, its front is the first of the two destinations, and
the content after the step is what retirement leaves. -/
theorem hazardQueueHoldsTheInFlightDestinations : Obligations.HazardQueueHoldsTheInFlightDestinations := by
  intro p s hs
  refine ⟨hs.hq_eq, fun d hd => ?_, fun t => hs.step_hq⟩
  rw [hs.hq_eq, destQueue_of_dest hd]
  rfl

/-- At a cycle boundary the queue holds at most the destinations of two records (R207). -/
theorem Sound.hq_length_le {p : Params} {s : Engine p} (hs : Sound s) : s.hq.length ≤ 2 := by
  have h4 := destQueue_length_le (enteringWriteback s)
  have h3 := destQueue_length_le (enteringMemory s)
  rw [hs.hq_eq, List.length_append]
  omega

/-- Execute appends at most one destination (R207). -/
theorem executeEffect_hq_length_le {p : Params} {s t : Engine p} (h : executeEffect s = .ok t)
    (hs : s.stall = false) : t.hq.length ≤ s.hq.length + 1 := by
  rw [executeEffect_hq h hs, List.length_append]
  split
  · simp
  · exact Nat.add_le_add_left (destQueue_length_le s.l2) _

/-- Settles O32: the boundary's bound of two is the bound at the test, an append adds one, and Execute is total. -/
theorem hazardQueueNeverOverflows : Obligations.HazardQueueNeverOverflows := by
  intro p s hs
  have hle := hs.hq_length_le
  refine ⟨hle, fun f => ⟨early_hq f s, fun s3 h3 => ?_⟩, fun f herr => ?_⟩
  · have happend := executeEffect_hq_length_le h3 (early_stall f s)
    rw [early_hq] at happend
    omega
  · obtain ⟨t, ht⟩ := hs.executeEffect_total f
    cases ht.symm.trans herr

end Sys2Proof.Machine
end

section
/-! PROOF. A stall stands on a load-use pair and lasts one cycle (R208). -/

namespace Sys2Proof.Machine

open Sys2Proof

/-! ### Which register is blocked in a sound state -/

/-- The records with a destination are the Arithmetic ones and the Loads (R28). -/
theorem kindOf_of_dest {i : Instr} {r : RegId} (h : destOf i = some r) : kindOf i = .arithmetic ∨ kindOf i = .load := by
  cases i <;> simp_all

/-- A record that has passed Execute has its result exactly when it is an Arithmetic (R30, R181). -/
theorem result_of_executed {n : Nat} {l : Latch n} (h : slotsExecuted l = true) :
    l.result.isSome = true ↔ kindOf l.instr = .arithmetic := by
  simp only [slotsExecuted, Bool.and_eq_true, beq_iff_eq] at h
  rw [h.2, beq_iff_eq]

/-- A record that has passed Memory has its result if it has a destination (R30, R183). -/
theorem result_of_complete {n : Nat} {l : Latch n} {r : RegId} (h : slotsComplete l = true)
    (hd : destOf l.instr = some r) : l.result.isSome = true := by
  simp only [slotsComplete, Bool.and_eq_true, beq_iff_eq] at h
  rw [h.2, ← destOf_isSome, hd]
  rfl

/-- A blocked register is the destination of a Load entering Memory, whose cell is not read yet, and of no record
entering Writeback, whose result would be forwarded (R204, R208). -/
theorem Sound.blocked_iff {p : Params} {s : Engine p} {r : RegId} (hs : Sound s) : blocked s r ↔
    kindOf (enteringMemory s).instr = .load ∧ destOf (enteringMemory s).instr = some r ∧
      destOf (enteringWriteback s).instr ≠ some r := by
  have hmem := result_of_executed hs.enteringMemory_executed
  have hqueue : r ∈ s.hq ↔ destOf (enteringWriteback s).instr = some r ∨ destOf (enteringMemory s).instr = some r := by
    simp [hs.hq_eq, destQueue]
  rw [blocked, forward_eq_none, hqueue]
  constructor
  · rintro ⟨hr, h3, h4⟩
    have hwb : destOf (enteringWriteback s).instr ≠ some r := fun hd => by
      rw [candidate_of_dest hd] at h4
      exact Option.isSome_iff_ne_none.1 (result_of_complete hs.l3_complete hd) h4
    have hd := hr.resolve_left hwb
    rw [candidate_of_dest hd] at h3
    refine ⟨(kindOf_of_dest hd).resolve_left fun hk => ?_, hd, hwb⟩
    exact Option.isSome_iff_ne_none.1 (hmem.2 hk) h3
  · rintro ⟨hk, hd, hwb⟩
    refine ⟨.inr hd, ?_, candidate_of_ne_dest hwb⟩
    rw [candidate_of_dest hd, ← Option.not_isSome_iff_eq_none, hmem, hk]
    exact Kind.noConfusion

/-! ### The cycle that stalls -/

/-- A stalled pass leaves the operands of its record written: it replaces at most the first slot, by a forwarded value
(R182). -/
theorem executeEffect_stalled_operandsWritten {p : Params} {s t : Engine p} (h : executeEffect s = .ok t)
    (hs : s.stall = false) (ht : t.stall = true) (hl : operandsWritten s.l2 = true) :
    operandsWritten t.l2 = true := by
  rcases executeEffect_cases h with ⟨-, rfl⟩ | ⟨-, -, rfl⟩ | ⟨v1, -, h1, -, rfl⟩ | ⟨v1, v2, -, h1, h2, -⟩
  · exact hl
  · exact hl
  · have hslots := hl
    simp only [operandsWritten, Bool.and_eq_true, beq_iff_eq] at hslots
    obtain ⟨hs1, -⟩ := hslots
    have e1 : v1.isSome = s.l2.resolvedSrc1.isSome :=
      isSome_of_checkSource_clear h1 fun hsrc => by rw [hs1, ← src1Of_isSome, hsrc]
    simpa only [operandsWritten, e1] using hl
  · rw [executeEffect_stall_iff h hs, exists_blocked_source_iff s.l2.resolvedSrc1 s.l2.resolvedSrc2, h1, h2] at ht
    simp at ht

/-- A step takes the record that entered Memory on, a Load with its result (R183). -/
theorem step_l3 {p : Params} {s t : Engine p} (h : step s.pack = .next t.pack) :
    t.l3.instr = (enteringMemory s).instr ∧
      (kindOf (enteringMemory s).instr = .load → t.l3.result.isSome = true) := by
  obtain ⟨f, -, -, hlate⟩ := step_late h
  obtain ⟨-, -, -, -, -, -, -, -, -, -, hi⟩ := lateEffects_frame hlate
  obtain ⟨s3, -, -, -, hmem, -⟩ := lateEffects_cases hlate
  rw [early_l3] at hi hmem
  refine ⟨hi, fun hk => ?_⟩
  rcases hmem with ⟨_, _, hw, -⟩ | ⟨_, -, -, -, -, hl3⟩ | ⟨-, hr, -⟩
  · cases hk.symm.trans ((writesMemory_iff _).1 hw)
  · rw [hl3]; rfl
  · cases hr.symm.trans ((readsMemory_iff _).2 hk)

/-- A step that stalls keeps its record in Execute, operands written, and the engine running: that record is not
Empty (R144, R148, R182). -/
theorem Sound.step_stalled {p : Params} {s t : Engine p} {r : RegId} (hs : Sound s)
    (h : step s.pack = .next t.pack) (ht : t.stall = true) (hr : r ∈ sourcesOf (enteringExecute s).instr) :
    operandsWritten t.l2 = true ∧ running t = true := by
  obtain ⟨f, -, hrun, hlate⟩ := step_late h
  obtain ⟨-, -, -, -, -, hfault, -, -, hdone, hi2, -⟩ := lateEffects_frame hlate
  obtain ⟨s3, h3, hstall, hl2, -⟩ := lateEffects_cases hlate
  rw [early_fault] at hfault
  rw [early_l2] at hi2
  constructor
  · have hl := hs.enteringExecute_decoded
    rw [slotsDecoded, Bool.and_eq_true, ← early_l2 f] at hl
    rw [hl2]
    exact executeEffect_stalled_operandsWritten h3 (early_stall f s) (hstall.symm.trans ht) hl.1
  · obtain ⟨-, hf⟩ : s.done = false ∧ s.fault = false := by simpa [running] using hrun
    have hne : allEmpty t = false := Bool.eq_false_iff.2 fun he => by
      obtain ⟨-, -, he2, -, -⟩ := allEmpty_iff.1 he
      rw [← hi2, he2] at hr
      cases hr
    simp [running, hdone, hne, hfault, hf]

/-! ### The retry -/

/-- A cycle whose record in Writeback writes a register, once Execute and Memory are done (R147, R184). -/
theorem lateEffects_writing {p : Params} {s e m : Engine p} {d r : RegId} {v : Word p.xlen} {q : List RegId}
    (he : executeEffect s = .ok e) (hm : memoryEffect e = .ok m) (hd : destOf m.l4.instr = some d)
    (hv : m.l4.result = some v) (hq : m.hq = r :: q) :
    lateEffects s = .ok (closeCycle { m with x := writeReg m.x d v, hq := q }) :=
  lateEffects_ok.2 ⟨e, m, { m with x := writeReg m.x d v }, _, he, hm, writebackEffect_of_dest hd hv,
    retire_of_dest hd hq, rfl⟩

/-- A stalling cycle moves a bubble into Memory and the record there into Writeback. Where the queue holds the one
destination of that record, and its result is there, the cycle answers a next state (R144, R208). -/
theorem step_of_stall {p : Params} {t : Engine p} {r : RegId} (hr : running t = true) (hst : t.stall = true)
    (hl2 : operandsWritten t.l2 = true) (hd : destOf t.l3.instr = some r) (hv : t.l3.result.isSome = true)
    (hq : t.hq = [r]) (hdepth : 1 < p.hqDepth) : ∃ u : Engine p, step t.pack = .next u.pack := by
  have hfetch : fetchRequest t = .ok none := by simp [fetchRequest, hst]
  have hexec : enteringExecute t = t.l2 := by simp [enteringExecute, hst]
  have hmem : enteringMemory t = Latch.bubble := by simp [enteringMemory, hst]
  obtain ⟨v, hv⟩ := Option.isSome_iff_exists.1 hv
  obtain ⟨e, he⟩ : ∃ e, executeEffect (earlyEffects none t) = .ok e :=
    executeEffect_total (by rwa [early_l2, hexec]) (by rw [early_hq, hq]; exact hdepth)
  obtain ⟨heq, -⟩ := executeEffect_frame he
  have hl3 : e.l3 = Latch.bubble := by rw [heq, ← hmem]; exact early_l3 none t
  have hl4 : e.l4 = t.l3 := by rw [heq]; exact early_l4 none t
  have hhq := executeEffect_hq he (early_stall none t)
  rw [early_hq, hq] at hhq
  have hmemory : memoryEffect e = .ok e := memoryEffect_of_no_access (by rw [hl3]; rfl) (by rw [hl3]; rfl)
  have hlate := lateEffects_writing he hmemory (hl4 ▸ hd) (hl4 ▸ hv) hhq
  exact ⟨_, (step_eq_cycle hr hfetch).trans (cycle_pack.2 ⟨hr, hlate⟩)⟩

/-- Settles O33: the blocked register is the Load's, the queue after the stall is its destination alone, and the retry
forwards its result from Writeback, so no source is blocked again. -/
theorem stallIsLoadUseAndLastsOneCycle : Obligations.StallIsLoadUseAndLastsOneCycle := by
  intro p s t r hs h hsrc hblocked
  obtain ⟨hk, hd, hwb⟩ := hs.blocked_iff.1 hblocked
  obtain ⟨hi3, hresult⟩ := step_l3 h
  have hv := hresult hk
  have ht : t.stall = true := (stallRaisedExactlyWhenBlocked p s t h).2 ⟨r, hsrc, hblocked⟩
  have hd3 : destOf t.l3.instr = some r := by rw [hi3, hd]
  have hq : t.hq = [r] := by simpa [ht, destQueue_of_dest hd3] using hs.step_hq h
  have hbubble : enteringMemory t = Latch.bubble := by simp [enteringMemory, ht]
  have hforward : ∀ r' ∈ t.hq, r' = r ∧
      forward (enteringMemory t) (enteringWriteback t) r' = (enteringWriteback t).result := by
    intro r' hr'
    obtain rfl : r' = r := by simpa [hq] using hr'
    exact ⟨rfl, by rw [hbubble, forward_bubble_left]; exact candidate_of_dest hd3⟩
  obtain ⟨hl2, hrun⟩ := hs.step_stalled h ht hsrc
  obtain ⟨-, -, -, -, -, hdepth⟩ := hs.params_wf
  obtain ⟨u, hu⟩ := step_of_stall hrun ht hl2 hd3 hv hq (by omega)
  refine ⟨hk, hd, hwb, ht, hq, hbubble, hi3, hv, fun r' _ => hforward r', u, hu, Bool.eq_false_iff.2 fun hst => ?_⟩
  obtain ⟨r', -, hr', hnone⟩ := (stallRaisedExactlyWhenBlocked p t u hu).1 hst
  rw [(hforward r' hr').2] at hnone
  exact Option.isSome_iff_ne_none.1 hv hnone

end Sys2Proof.Machine
end

section
/-! PROOF. Two writers of one register, the younger a Load: the reader gets the older one's value (R211). -/

namespace Sys2Proof.Machine

open Sys2Proof

/-! ### In every sound state -/

/-- With a Load of `r` entering Memory and a writer of `r` entering Writeback, the arbiter passes over the Load, whose
result is not there yet, to the older writer's result (R202, R211). -/
theorem Sound.forward_older {p : Params} {s : Engine p} {r : RegId} (hs : Sound s)
    (hk : kindOf (enteringMemory s).instr = .load) (hd : destOf (enteringMemory s).instr = some r)
    (hwb : destOf (enteringWriteback s).instr = some r) :
    forward (enteringMemory s) (enteringWriteback s) r = (enteringWriteback s).result := by
  have hnone : (enteringMemory s).result = none := by
    rw [← Option.not_isSome_iff_eq_none, result_of_executed hs.enteringMemory_executed, hk]
    exact Kind.noConfusion
  rw [forward_eq_or, candidate_of_dest hd, candidate_of_dest hwb, hnone, Option.none_or]

/-! ### An Execute pass with registers in flight -/

/-- With both checks clear Execute computes from what they leave in the slots and appends the destination (R179 to
R181). -/
theorem executeEffect_of_clear {p : Params} {s : Engine p} {d : RegId} {l : Latch p.xlen}
    {v1 v2 : Option (Word p.xlen)} (hu : usesAlu s.l2.instr = true)
    (h1 : checkSource s.hq s.l3 s.l4 (src1Of s.l2.instr) s.l2.resolvedSrc1 = .clear v1)
    (h2 : checkSource s.hq s.l3 s.l4 (src2Of s.l2.instr) s.l2.resolvedSrc2 = .clear v2)
    (hd : destOf s.l2.instr = some d) (hdepth : s.hq.length < p.hqDepth)
    (hc : compute { s.l2 with resolvedSrc1 := v1, resolvedSrc2 := v2 } = .ok l) :
    executeEffect s = .ok { s with l2 := l, hq := s.hq ++ [d] } := by
  have hfinish : executeFinish { s.l2 with resolvedSrc1 := v1, resolvedSrc2 := v2 } s =
      .ok { s with l2 := l, hq := s.hq ++ [d] } := executeFinish_ok.2 ⟨l, hc, .inr ⟨d, hd, hdepth, rfl⟩⟩
  simp only [executeEffect, hu, h1, h2, hfinish, if_true]

/-- A cycle in which Execute alone has work, with registers in flight. -/
theorem lateEffects_execute_clear {p : Params} {s : Engine p} {d : RegId} {l : Latch p.xlen}
    {v1 v2 : Option (Word p.xlen)} (hu : usesAlu s.l2.instr = true)
    (h1 : checkSource s.hq s.l3 s.l4 (src1Of s.l2.instr) s.l2.resolvedSrc1 = .clear v1)
    (h2 : checkSource s.hq s.l3 s.l4 (src2Of s.l2.instr) s.l2.resolvedSrc2 = .clear v2)
    (hd : destOf s.l2.instr = some d) (hdepth : s.hq.length < p.hqDepth)
    (hc : compute { s.l2 with resolvedSrc1 := v1, resolvedSrc2 := v2 } = .ok l)
    (hw : writesMemory s.l3.instr = false) (hr : readsMemory s.l3.instr = false) (h4 : destOf s.l4.instr = none) :
    lateEffects s = .ok (closeCycle { s with l2 := l, hq := s.hq ++ [d] }) :=
  lateEffects_ok.2 ⟨_, _, _, _, executeEffect_of_clear hu h1 h2 hd hdepth hc, memoryEffect_of_no_access hw hr,
    writebackEffect_of_no_dest h4, retire_of_no_dest h4, rfl⟩

/-- A source that is the one register in flight is forwarded from the Memory latch; any other keeps what Decode read:
either way the slot holds the register as that record will leave it (R179, R202). -/
theorem checkSource_directly_ahead {n : Nat} {x : Regs n} {l3 l4 : Latch n} {d r : RegId} {v : Word n}
    (hd : destOf l3.instr = some d) (hv : l3.result = some v) :
    checkSource [d] l3 l4 (some r) (some (readReg x r)) = .clear (some (readReg (writeReg x d v) r)) := by
  by_cases h : r = d
  · subst h
    simp [checkSource, forward_eq_or, candidate_of_dest hd, hv]
  · simp [checkSource, h, readReg_writeReg_ne x v h]

/-- Behind a Load of `d` whose result is not there yet, a source `d` is forwarded from the older writer in the
Writeback latch (R211). -/
theorem checkSource_older {n : Nat} {l3 l4 : Latch n} {d : RegId} {slot : Option (Word n)} {v : Word n}
    {hq : List RegId} (hmem : d ∈ hq) (hd3 : destOf l3.instr = some d) (hv3 : l3.result = none)
    (hd4 : destOf l4.instr = some d) (hv4 : l4.result = some v) :
    checkSource hq l3 l4 (some d) slot = .clear (some v) := by
  simp [checkSource, hmem, forward_eq_or, candidate_of_dest hd3, candidate_of_dest hd4, hv3, hv4]

/-- Of two writes to one register the second stays. -/
theorem writeReg_writeReg_same {n : Nat} (x : Regs n) (r : RegId) (v w : Word n) :
    writeReg (writeReg x r v) r w = writeReg x r w := by
  simp [writeReg]

/-! ### The sequence `addImm`, `lw`, `add`, back to back -/

section sequence

variable {p : Params} (d a base e : RegId) (v off : Int) (s : Engine p) (older addr : Word p.xlen)

/-- The older writer's record once it has passed Execute. -/
def olderRecord : Latch p.xlen := ⟨.addImm d a v, some (readReg s.x a), some (literalWord p.xlen v), some older⟩

/-- The Load's record once it has passed Execute: its address, and no result yet. -/
def youngerRecord : Latch p.xlen := ⟨.lw d base off, some addr, none, none⟩

/-- The Load's record once it has passed Memory. -/
def loadedRecord : Latch p.xlen :=
  { youngerRecord d base off addr with result := some (readCell p.xlen s.mem addr.toNat) }

/-- The reader's record once it has passed Execute, with the older writer's value as both operands. -/
def readerRecord : Latch p.xlen := ⟨.add e d d, some older, some older, some (older + older)⟩

@[simp] theorem olderRecord_instr : (olderRecord d a v s older).instr = .addImm d a v := rfl

@[simp] theorem youngerRecord_instr : (youngerRecord d base off addr).instr = .lw d base off := rfl

@[simp] theorem loadedRecord_instr : (loadedRecord d base off s addr).instr = .lw d base off := rfl

@[simp] theorem readerRecord_instr : (readerRecord d e older).instr = .add e d d := rfl

variable {d a base e v off s older addr}

/-- The first four cycles: the older writer has its result in the Memory latch, the Load its address, from the base as
the older writer leaves it, and the reader has read the registers. -/
theorem twoWriters_load_executed (hs : Quiet s) (holder : older = readReg s.x a + literalWord p.xlen v)
    (haddr : addr = readReg (writeReg s.x d older) base + literalWord p.xlen off) :
    feed [.addImm d a v, .lw d base off, .add e d d, .empty] s.pack =
      .next (Engine.carrying { s with hq := [d, d] } 4 Latch.bubble (decodeSlots s.x (Latch.fresh (.add e d d)))
        (youngerRecord d base off addr) (olderRecord d a v s older) Latch.bubble).pack := by
  obtain ⟨-, -, -, -, -, hdepth⟩ := hs.params_wf
  have hr := hs.running
  have hst := hs.stall
  have hq := hs.hq
  obtain ⟨hdone, -⟩ : s.done = false ∧ s.fault = false := by simpa [running] using hr
  have hwriter : exec (.addImm d a v) s.pack = .next (s.carrying 1 (Latch.fresh (.addImm d a v)) Latch.bubble
      Latch.bubble Latch.bubble Latch.bubble).pack := by
    conv_lhs => rw [hs.eq_carrying]
    exact exec_carrying hr hst rfl (lateEffects_idle rfl rfl rfl rfl) (by simp [hdone])
  have hload : exec (.lw d base off) (s.carrying 1 (Latch.fresh (.addImm d a v)) Latch.bubble Latch.bubble
      Latch.bubble Latch.bubble).pack = .next (s.carrying 2 (Latch.fresh (.lw d base off))
        (decodeSlots s.x (Latch.fresh (.addImm d a v))) Latch.bubble Latch.bubble Latch.bubble).pack :=
    exec_carrying hr hst rfl (lateEffects_idle rfl rfl rfl rfl) (by simp [hdone])
  have hreader : exec (.add e d d) (s.carrying 2 (Latch.fresh (.lw d base off))
      (decodeSlots s.x (Latch.fresh (.addImm d a v))) Latch.bubble Latch.bubble Latch.bubble).pack =
      .next (Engine.carrying { s with hq := d :: s.hq } 3 (Latch.fresh (.add e d d))
        (decodeSlots s.x (Latch.fresh (.lw d base off))) (olderRecord d a v s older) Latch.bubble
        Latch.bubble).pack := by
    have hc : compute (decodeSlots s.x (Latch.fresh (.addImm d a v))) = .ok (olderRecord d a v s older) := by
      rw [holder]; rfl
    exact exec_carrying hr hst rfl (lateEffects_execute hq (by omega) rfl rfl hc rfl rfl rfl) (by simp [hdone])
  rw [hq] at hreader
  have hempty : exec .empty (Engine.carrying { s with hq := [d] } 3 (Latch.fresh (.add e d d))
      (decodeSlots s.x (Latch.fresh (.lw d base off))) (olderRecord d a v s older) Latch.bubble Latch.bubble).pack =
      .next (Engine.carrying { s with hq := [d, d] } 4 Latch.bubble (decodeSlots s.x (Latch.fresh (.add e d d)))
        (youngerRecord d base off addr) (olderRecord d a v s older) Latch.bubble).pack := by
    have hc : compute ⟨.lw d base off, some (readReg (writeReg s.x d older) base), none, none⟩ =
        .ok (youngerRecord d base off addr) := by
      rw [haddr]; rfl
    have hroom : 1 < p.hqDepth := by omega
    exact exec_carrying (s := { s with hq := [d] }) hr hst rfl
      (lateEffects_execute_clear rfl (checkSource_directly_ahead rfl rfl) rfl rfl hroom hc rfl rfl rfl)
      (by simp [hdone])
  rw [feed_cons hwriter, feed_cons hload, feed_cons hreader, feed_cons hempty]
  rfl

/-- The fifth cycle: the Load takes its cell, the older writer writes its result and leaves the queue, and the reader
computes with that result, no stall raised (R211). -/
theorem twoWriters_reader_executed (hs : Quiet s) (hf : dataAddressFault p.memBytes addr = none) :
    exec .empty (Engine.carrying { s with hq := [d, d] } 4 Latch.bubble (decodeSlots s.x (Latch.fresh (.add e d d)))
        (youngerRecord d base off addr) (olderRecord d a v s older) Latch.bubble).pack =
      .next (Engine.carrying { s with hq := [d, e], x := writeReg s.x d older } 5 Latch.bubble Latch.bubble
        (readerRecord d e older) (loadedRecord d base off s addr) (olderRecord d a v s older)).pack := by
  obtain ⟨-, -, -, -, -, hdepth⟩ := hs.params_wf
  obtain ⟨hdone, -⟩ : s.done = false ∧ s.fault = false := by simpa [running] using hs.running
  have hcheck : checkSource [d, d] (youngerRecord d base off addr) (olderRecord d a v s older) (some d)
      (some (readReg s.x d)) = .clear (some older) := checkSource_older (by simp) rfl rfl rfl rfl
  have hc : compute ⟨.add e d d, some older, some older, none⟩ = .ok (readerRecord d e older) := rfl
  exact exec_carrying (s := { s with hq := [d, d] }) hs.running hs.stall rfl
    (lateEffects_writing (executeEffect_of_clear rfl hcheck hcheck rfl (by exact hdepth) hc)
      (memoryEffect_load rfl rfl hf) rfl rfl rfl)
    (by simp [hdone])

/-- The last two cycles: the Load and then the reader write their registers and leave the queue. -/
theorem twoWriters_retire (hs : Quiet s) :
    feed [.empty, .empty] (Engine.carrying { s with hq := [d, e], x := writeReg s.x d older } 5 Latch.bubble
        Latch.bubble (readerRecord d e older) (loadedRecord d base off s addr) (olderRecord d a v s older)).pack =
      .next (Engine.carrying { s with
          hq := []
          x := writeReg (writeReg s.x d (readCell p.xlen s.mem addr.toNat)) e (older + older) } 7
        Latch.bubble Latch.bubble Latch.bubble Latch.bubble (readerRecord d e older)).pack := by
  have hr := hs.running
  have hst := hs.stall
  obtain ⟨hdone, -⟩ : s.done = false ∧ s.fault = false := by simpa [running] using hr
  have hload : exec .empty (Engine.carrying { s with hq := [d, e], x := writeReg s.x d older } 5 Latch.bubble
      Latch.bubble (readerRecord d e older) (loadedRecord d base off s addr) (olderRecord d a v s older)).pack =
      .next (Engine.carrying { s with hq := [e], x := writeReg s.x d (readCell p.xlen s.mem addr.toNat) } 6
        Latch.bubble Latch.bubble Latch.bubble (readerRecord d e older) (loadedRecord d base off s addr)).pack := by
    rw [← writeReg_writeReg_same s.x d older (readCell p.xlen s.mem addr.toNat)]
    exact exec_carrying (s := { s with hq := [d, e], x := writeReg s.x d older }) hr hst rfl
      (lateEffects_writeback rfl rfl rfl rfl rfl rfl) (by simp [hdone])
  have hreader : exec .empty (Engine.carrying
      { s with hq := [e], x := writeReg s.x d (readCell p.xlen s.mem addr.toNat) } 6 Latch.bubble Latch.bubble
      Latch.bubble (readerRecord d e older) (loadedRecord d base off s addr)).pack =
      .next (Engine.carrying { s with
          hq := []
          x := writeReg (writeReg s.x d (readCell p.xlen s.mem addr.toNat)) e (older + older) } 7
        Latch.bubble Latch.bubble Latch.bubble Latch.bubble (readerRecord d e older)).pack :=
    exec_carrying (s := { s with hq := [e], x := writeReg s.x d (readCell p.xlen s.mem addr.toNat) }) hr hst rfl
      (lateEffects_writeback rfl rfl rfl rfl rfl rfl) (by simp [hdone])
  rw [feed_cons hload, feed_cons hreader]
  rfl

end sequence

/-- A feed of a list after another goes on from the state the first ends in. -/
theorem feed_append {is js : List Instr} {s t : State} (h : feed is s = .next t) : feed (is ++ js) s = feed js t := by
  induction is generalizing s with
  | nil => cases h; rfl
  | cons i is ih =>
    simp only [feed] at h
    simp only [List.cons_append, feed]
    split at h
    · exact ih h
    · cases h
    · cases h

/-- Settles O38: in a sound state the arbiter answers the older result and blocks nothing; the sequence is followed
through its seven cycles. -/
theorem twoWritersThenLoadForwardsTheOlder : Obligations.TwoWritersThenLoadForwardsTheOlder := by
  refine ⟨fun p s r hs hk hd hwb => ⟨result_of_complete hs.l3_complete hwb, hs.forward_older hk hd hwb,
    fun hb => ?_⟩, fun d a base e v off p s older addr hs holder haddr hf => ?_⟩
  · obtain ⟨-, -, hne⟩ := hs.blocked_iff.1 hb
    exact hne hwb
  · have hfour := feed_append (js := [.empty]) (twoWriters_load_executed (e := e) hs holder haddr)
    have hfive := hfour.trans (feed_cons (twoWriters_reader_executed hs hf))
    exact ⟨_, _, hfive, hs.stall, twoWriters_retire hs, rfl⟩

end Sys2Proof.Machine
end

section
/-! PROOF. What a running step of a sound state does: Fetch's fault, else Memory's, else a next state (R233). -/

namespace Sys2Proof.Machine

open Sys2Proof

/-! ### The causes of Fetch (R170, R171) -/

/-- With accepted parameters Fetch has no faults but these two, the check of alignment first (R58, R170, R171). -/
theorem fetchWord_error {p : Params} {m : Memory} {pc : Word p.xlen} {c : FaultCause} (hp : p.wf)
    (h : fetchWord p m pc = .error c) :
    (pc.toNat % 4 ≠ 0 ∧ c = .fetchMisaligned) ∨ (pc.toNat % 4 = 0 ∧ c = .illegalInstruction) := by
  unfold fetchWord at h
  split at h
  · rename_i hin
    split at h
    · cases h; exact .inl ⟨‹_›, rfl⟩
    · have h4 : pc.toNat % 4 = 0 := not_not.1 ‹_›
      rw [if_neg (not_le.2 (pc_lt_memBytes hp hin))] at h
      split at h
      · cases h
      · cases h; exact .inr ⟨h4, rfl⟩
  · cases h

/-- A Fetch fault is one of the word at the pc: a stalling cycle reads none (R172). -/
theorem fetchWord_of_fetchRequest_error {p : Params} {s : Engine p} {c : FaultCause}
    (h : fetchRequest s = .error c) : fetchWord p s.mem s.pc = .error c := by
  unfold fetchRequest at h
  split at h
  · cases h
  · exact h

/-! ### The fault of Memory (R57) -/

/-- The data fault of the next cycle is that of the address which the record entering Memory accesses. -/
theorem accessFault_eq_some {p : Params} {s : Engine p} {c : FaultCause} : accessFault s = some c ↔
    ∃ addr, accessAddress (enteringMemory s) = some addr ∧ dataAddressFault p.memBytes addr = some c := by
  unfold accessFault
  cases accessAddress (enteringMemory s) <;> simp

theorem accessFault_eq_none {p : Params} {s : Engine p} : accessFault s = none ↔
    ∀ addr, accessAddress (enteringMemory s) = some addr → dataAddressFault p.memBytes addr = none := by
  unfold accessFault
  cases accessAddress (enteringMemory s) <;> simp

/-! ### Memory, Writeback and retirement without a fault -/

/-- Memory answers when the operands of its record are written and no address it accesses faults (R183). -/
theorem memoryEffect_total {p : Params} {s : Engine p} (hl : operandsWritten s.l3 = true)
    (ha : ∀ addr, accessAddress s.l3 = some addr → dataAddressFault p.memBytes addr = none) :
    ∃ t, memoryEffect s = .ok t := by
  simp only [operandsWritten, Bool.and_eq_true, beq_iff_eq] at hl
  obtain ⟨hs1, hs2⟩ := hl
  cases hw : writesMemory s.l3.instr with
  | true =>
    have hk := (writesMemory_iff _).1 hw
    obtain ⟨v, h1⟩ := Option.isSome_iff_exists.1 (hs1.trans (by simp [readsRegisters, hk, flagsOf]))
    obtain ⟨addr, h2⟩ := Option.isSome_iff_exists.1 (hs2.trans (by simp [hk]))
    exact ⟨_, memoryEffect_store hk h2 h1 (ha addr ((accessAddress_store hk).trans h2))⟩
  | false =>
    cases hr : readsMemory s.l3.instr with
    | true =>
      have hk := (readsMemory_iff _).1 hr
      obtain ⟨addr, h1⟩ := Option.isSome_iff_exists.1 (hs1.trans (by simp [readsRegisters, hk, flagsOf]))
      exact ⟨_, memoryEffect_load hk h1 (ha addr ((accessAddress_load hk).trans h1))⟩
    | false => exact ⟨s, memoryEffect_of_no_access hw hr⟩

/-- Memory hands the Writeback latch and the hazard queue on as they are (R185). -/
theorem memoryEffect_l4_hq {p : Params} {s t : Engine p} (h : memoryEffect s = .ok t) :
    t.l4 = s.l4 ∧ t.hq = s.hq := by
  obtain ⟨_, _, -, -, -, -, rfl⟩ | ⟨_, -, -, -, rfl⟩ | ⟨-, -, rfl⟩ := memoryEffect_cases h
  · exact ⟨rfl, rfl⟩
  · exact ⟨rfl, rfl⟩
  · exact ⟨rfl, rfl⟩

/-- Writeback and retirement answer when the record there has passed Memory and the hazard queue starts with its
destination, if it has one (R147, R184, R206). -/
theorem writeback_retire_total {p : Params} {s : Engine p} (hl : slotsComplete s.l4 = true)
    (hq : destQueue s.l4 <+: s.hq) : ∃ t u, writebackEffect s = .ok t ∧ retire t = .ok u := by
  cases hd : destOf s.l4.instr with
  | none => exact ⟨s, s, writebackEffect_of_no_dest hd, retire_of_no_dest hd⟩
  | some d =>
    obtain ⟨v, hv⟩ := Option.isSome_iff_exists.1 (result_of_complete hl hd)
    rw [destQueue_of_dest hd] at hq
    obtain ⟨q, hq⟩ := hq
    exact ⟨_, _, writebackEffect_of_dest hd hv, retire_of_dest hd hq.symm⟩

namespace Sound

variable {p : Params} {s : Engine p} {f : Option Instr}

/-- At the end of Execute the hazard queue still starts with the destination of the record in Writeback: Execute appends
at the back (R180, R206). -/
theorem destQueue_prefix_executed {t : Engine p} (hs : Sound s) (h : executeEffect (earlyEffects f s) = .ok t) :
    destQueue (enteringWriteback s) <+: t.hq := by
  rw [executeEffect_hq h (early_stall f s), early_hq, hs.hq_eq, List.append_assoc]
  exact List.prefix_append _ _

/-- Where the record entering Memory makes no faulting access no effect of the cycle faults (R233). -/
theorem cycleEffects_total (hs : Sound s) (f : Option Instr) (ha : accessFault s = none) :
    ∃ t, cycleEffects f s = .ok t := by
  obtain ⟨s3, h3⟩ := hs.executeEffect_total f
  have hl3 : s3.l3 = enteringMemory s := (executeEffect_l3 h3).trans (early_l3 f s)
  have hl4 : s3.l4 = enteringWriteback s := by rw [(executeEffect_frame h3).1]; exact early_l4 f s
  have hl := hs.enteringMemory_executed
  rw [slotsExecuted, Bool.and_eq_true] at hl
  obtain ⟨s4, h4⟩ := memoryEffect_total (hl3 ▸ hl.1) (hl3 ▸ accessFault_eq_none.1 ha)
  obtain ⟨el4, ehq⟩ := memoryEffect_l4_hq h4
  have hcomplete : slotsComplete s4.l4 = true := by rw [el4, hl4]; exact hs.l3_complete
  have hprefix : destQueue s4.l4 <+: s4.hq := by rw [el4, hl4, ehq]; exact hs.destQueue_prefix_executed h3
  obtain ⟨s5, s6, h5, h6⟩ := writeback_retire_total hcomplete hprefix
  exact ⟨closeCycle s6, lateEffects_ok.2 ⟨s3, s4, s5, s6, h3, h4, h5, h6, rfl⟩⟩

end Sound

/-! ### The outcome of a step (R233) -/

/-- Settles O43: Fetch's causes are those of its word, Memory's are those of its address, and without either no effect
of the cycle faults. -/
theorem stepOutcomeExactly : Obligations.StepOutcomeExactly := by
  intro p s hs hr
  refine ⟨fun c hc => ?_, fun f hf => ⟨fun c hc => ?_, fun ha => ?_⟩⟩
  · refine ⟨step_of_fetch_error hr hc, ?_⟩
    obtain ⟨h4, rfl⟩ | ⟨h4, rfl⟩ := fetchWord_error hs.params_wf (fetchWord_of_fetchRequest_error hc)
    · exact ⟨fun _ => rfl, fun h => absurd h h4⟩
    · exact ⟨fun h => absurd h4 h, fun _ => rfl⟩
  · obtain ⟨addr, ha, hd⟩ := accessFault_eq_some.1 hc
    refine ⟨step_access_fault hs hr hf ha hd, ?_⟩
    simp only [ha, Option.some.injEq, forall_eq']
    obtain ⟨h4, rfl⟩ | ⟨h4, -, rfl⟩ := dataAddressFault_eq_some.1 hd
    · exact ⟨fun _ => rfl, fun h => absurd h h4⟩
    · exact ⟨fun h => absurd h4 h, fun _ => rfl⟩
  · obtain ⟨t, ht⟩ := hs.cycleEffects_total f ha
    exact ⟨t, (step_eq_cycle hr hf).trans (cycle_pack.2 ⟨hr, ht⟩)⟩

end Sys2Proof.Machine
end

section
/-! PROOF. What one cycle does to each element of the state, said once for whatever Fetch takes (R141 to R149). -/

namespace Sys2Proof.Machine

open Sys2Proof

/-! ### The latches, the pc and the counts after a cycle -/

section cycleEffects

variable {p : Params} {s t : Engine p} {f : Option Instr}

theorem cycleEffects_l4 (h : cycleEffects f s = .ok t) : t.l4 = s.l3 := by
  obtain ⟨-, -, -, hl4, -⟩ := lateEffects_frame h
  exact hl4.trans (early_l4 f s)

theorem cycleEffects_l3_instr (h : cycleEffects f s = .ok t) : t.l3.instr = (enteringMemory s).instr := by
  obtain ⟨-, -, -, -, -, -, -, -, -, -, hl3⟩ := lateEffects_frame h
  rw [hl3, early_l3]

theorem cycleEffects_l2_instr (h : cycleEffects f s = .ok t) : t.l2.instr = (enteringExecute s).instr := by
  obtain ⟨-, -, -, -, -, -, -, -, -, hl2, -⟩ := lateEffects_frame h
  rw [hl2, early_l2]

theorem cycleEffects_l1 (h : cycleEffects f s = .ok t) : t.l1 = decodeSlots s.x (enteringDecode s) := by
  obtain ⟨-, -, hl1, -⟩ := lateEffects_frame h
  exact hl1.trans (early_l1 f s)

/-- A Jump in Decode sets the pc and flushes the Fetch latch, whatever Fetch takes (R25, R176). -/
theorem cycleEffects_jump {target : Word p.xlen} (h : cycleEffects f s = .ok t)
    (hj : targetOf p.xlen (enteringDecode s).instr = some target) : t.pc = target ∧ t.l0 = Latch.bubble := by
  obtain ⟨hpc, hl0, -⟩ := lateEffects_frame h
  rw [hpc, hl0, early_pc, early_l0, hj]
  exact ⟨rfl, rfl⟩

/-- Without a Jump in Decode only Fetch changes the pc (R25, R173). -/
theorem cycleEffects_pc (h : cycleEffects f s = .ok t) (hj : targetOf p.xlen (enteringDecode s).instr = none) :
    t.pc = if s.stall = true ∨ f = none then s.pc else s.pc + 4#p.xlen := by
  obtain ⟨hpc, -⟩ := lateEffects_frame h
  rw [hpc, early_pc, hj]

/-- A stalling cycle without a Jump in Decode holds the Fetch latch (R144). -/
theorem cycleEffects_l0_of_stall (h : cycleEffects f s = .ok t) (hst : s.stall = true)
    (hj : targetOf p.xlen (enteringDecode s).instr = none) : t.l0 = s.l0 := by
  obtain ⟨-, hl0, -⟩ := lateEffects_frame h
  rw [hl0, early_l0, hj]
  exact if_pos hst

/-- Without a stall and a Jump in Decode the Fetch latch holds what Fetch took (R171). -/
theorem cycleEffects_l0_of_fetch {i : Instr} (h : cycleEffects (some i) s = .ok t) (hst : s.stall = false)
    (hj : targetOf p.xlen (enteringDecode s).instr = none) : t.l0 = Latch.fresh i := by
  obtain ⟨-, hl0, -⟩ := lateEffects_frame h
  rw [hl0, early_l0, hj]
  simp [hst]

/-- Without a stall the Fetch latch holds the bubble where Fetch took nothing (R172). -/
theorem cycleEffects_l0_of_none (h : cycleEffects none s = .ok t) (hst : s.stall = false) : t.l0 = Latch.bubble := by
  obtain ⟨-, hl0, -⟩ := lateEffects_frame h
  rw [hl0, early_l0]
  cases targetOf p.xlen (enteringDecode s).instr <;> simp [hst]

theorem cycleEffects_fetched (h : cycleEffects f s = .ok t) :
    t.fetched = if s.stall = true ∨ f = none then s.fetched else s.fetched + 1#p.ctrW := by
  obtain ⟨-, -, -, -, hfetched, -⟩ := lateEffects_frame h
  rw [hfetched, early_fetched]

/-- A committed cycle leaves the fault record alone and counts itself (R149, R150). -/
theorem cycleEffects_fault_cycle (h : cycleEffects f s = .ok t) :
    t.fault = s.fault ∧ t.faultCause = s.faultCause ∧ t.cycle = s.cycle + 1#p.ctrW := by
  obtain ⟨-, -, -, -, -, hfault, hcause, hcycle, -⟩ := lateEffects_frame h
  rw [hfault, hcause, hcycle, early_fault, early_faultCause, early_cycle]
  exact ⟨rfl, rfl, rfl⟩

/-- The termination test looks at the latches the cycle leaves (R148). -/
theorem cycleEffects_done (h : cycleEffects f s = .ok t) : t.done = allEmpty t := by
  obtain ⟨-, -, -, -, -, -, -, -, hdone, -⟩ := lateEffects_frame h
  exact hdone

/-- The one register write of a cycle: the destination of the record entering Writeback (R184). -/
theorem cycleEffects_registers (h : cycleEffects f s = .ok t) :
    (∃ d v, destOf s.l3.instr = some d ∧ s.l3.result = some v ∧ t.x = writeReg s.x d v) ∨
      (destOf s.l3.instr = none ∧ t.x = s.x) := by
  obtain ⟨s3, -, -, -, -, hx⟩ := lateEffects_cases h
  simp only [early_l4, early_x, enteringWriteback] at hx
  rcases hx with ⟨d, v, _, hd, hv, hx, -⟩ | ⟨hd, hx, -⟩
  · exact .inl ⟨d, v, hd, hv, hx⟩
  · exact .inr ⟨hd, hx⟩

/-- All that a cycle does to memory and to the record entering Memory: a store, a load, or nothing (R183). -/
theorem cycleEffects_memory (h : cycleEffects f s = .ok t) :
    (∃ addr v, kindOf (enteringMemory s).instr = .store ∧ (enteringMemory s).resolvedSrc2 = some addr ∧
      (enteringMemory s).resolvedSrc1 = some v ∧ dataAddressFault p.memBytes addr = none ∧
      t.mem = writeCell s.mem addr.toNat v ∧ t.l3 = enteringMemory s) ∨
    (∃ addr, kindOf (enteringMemory s).instr = .load ∧ (enteringMemory s).resolvedSrc1 = some addr ∧
      dataAddressFault p.memBytes addr = none ∧ t.mem = s.mem ∧
      t.l3 = { enteringMemory s with result := some (readCell p.xlen s.mem addr.toNat) }) ∨
    (kindOf (enteringMemory s).instr ≠ .store ∧ kindOf (enteringMemory s).instr ≠ .load ∧ t.mem = s.mem ∧
      t.l3 = enteringMemory s) := by
  obtain ⟨s3, -, -, -, hmem, -⟩ := lateEffects_cases h
  simp only [early_l3, early_mem] at hmem
  rcases hmem with ⟨addr, v, hw, hmem⟩ | ⟨addr, hr, hmem⟩ | ⟨hw, hr, hmem⟩
  · exact .inl ⟨addr, v, (writesMemory_iff _).1 hw, hmem⟩
  · exact .inr (.inl ⟨addr, (readsMemory_iff _).1 hr, hmem⟩)
  · exact .inr (.inr ⟨fun hk => Bool.false_ne_true (hw.symm.trans ((writesMemory_iff _).2 hk)),
      fun hk => Bool.false_ne_true (hr.symm.trans ((readsMemory_iff _).2 hk)), hmem⟩)

/-- What a pass of Execute makes of the record that entered it: it passes by a record without work, keeps a stalled
one but for a forwarded first source, or computes from what the checks left (R178 to R182). -/
theorem cycleEffects_l2 (h : cycleEffects f s = .ok t) :
    (usesAlu (enteringExecute s).instr = false ∧ t.stall = false ∧ t.l2 = enteringExecute s) ∨
    (t.stall = true ∧ sourceCheck s (src1Of (enteringExecute s).instr) (enteringExecute s).resolvedSrc1 = .stalled ∧
      t.l2 = enteringExecute s) ∨
    (∃ v1, t.stall = true ∧
      sourceCheck s (src1Of (enteringExecute s).instr) (enteringExecute s).resolvedSrc1 = .clear v1 ∧
      sourceCheck s (src2Of (enteringExecute s).instr) (enteringExecute s).resolvedSrc2 = .stalled ∧
      t.l2 = { enteringExecute s with resolvedSrc1 := v1 }) ∨
    (∃ v1 v2, t.stall = false ∧
      sourceCheck s (src1Of (enteringExecute s).instr) (enteringExecute s).resolvedSrc1 = .clear v1 ∧
      sourceCheck s (src2Of (enteringExecute s).instr) (enteringExecute s).resolvedSrc2 = .clear v2 ∧
      compute { enteringExecute s with resolvedSrc1 := v1, resolvedSrc2 := v2 } = .ok t.l2) := by
  obtain ⟨s3, h3, hstall, hl2, -⟩ := lateEffects_cases h
  have hcases := executeEffect_cases h3
  simp only [early_l2, early_l3, early_l4, early_hq] at hcases
  rw [hstall, hl2]
  rcases hcases with ⟨hu, rfl⟩ | ⟨-, h1, rfl⟩ | ⟨v1, -, h1, h2, rfl⟩ | ⟨v1, v2, -, h1, h2, hfinish⟩
  · exact .inl ⟨hu, early_stall f s, early_l2 f s⟩
  · exact .inr (.inl ⟨rfl, h1, rfl⟩)
  · exact .inr (.inr (.inl ⟨v1, rfl, h1, h2, rfl⟩))
  · obtain ⟨l', hc, ⟨-, rfl⟩ | ⟨d, -, -, rfl⟩⟩ := executeFinish_ok.1 hfinish
    · exact .inr (.inr (.inr ⟨v1, v2, early_stall f s, h1, h2, hc⟩))
    · exact .inr (.inr (.inr ⟨v1, v2, early_stall f s, h1, h2, hc⟩))

end cycleEffects

/-- A step that answers is the cycle, in a running engine, of what Fetch requested (R151). -/
theorem step_effects {p : Params} {s t : Engine p} (h : step s.pack = .next t.pack) :
    ∃ f, fetchRequest s = .ok f ∧ running s = true ∧ cycleEffects f s = .ok t := step_late h

/-- A meaning that answers is the cycle, in a running engine, that takes its instruction (R151). -/
theorem exec_effects {p : Params} {i : Instr} {s t : Engine p} (h : exec i s.pack = .next t.pack) :
    running s = true ∧ cycleEffects (some i) s = .ok t := by
  rw [exec_eq_cycle] at h
  exact cycle_pack.1 h

end Sys2Proof.Machine
end
section
/-! PROOF. The frame of a step and of a meaning: memory, latches, pc and counts (R141 to R149, R171 to R184). -/

namespace Sys2Proof.Machine

open Sys2Proof

/-! ### Memory and the latches -/

theorem storeAddress_eq_some {p : Params} {s : Engine p} {addr : Word p.xlen} : storeAddress s = some addr ↔
    kindOf (enteringMemory s).instr = .store ∧ (enteringMemory s).resolvedSrc2 = some addr := by
  rw [storeAddress, ← writesMemory_iff]
  split <;> simp_all

/-- A cycle writes no byte outside the cell of the Store entering Memory (R183). -/
theorem cycleEffects_readByte {p : Params} {s t : Engine p} {f : Option Instr} {a : Nat} (h : cycleEffects f s = .ok t)
    (ha : ∀ addr, storeAddress s = some addr →
      a < cellBase p.xlen addr.toNat ∨ cellBase p.xlen addr.toNat + cellBytes p.xlen ≤ a) :
    readByte t.mem a = readByte s.mem a := by
  obtain ⟨addr, v, hk, h2, -, -, hm, -⟩ | ⟨_, -, -, -, hm, -⟩ | ⟨-, -, hm, -⟩ := cycleEffects_memory h
  · rw [hm]
    exact readByte_writeCell_outside s.mem v (ha addr (storeAddress_eq_some.2 ⟨hk, h2⟩))
  · rw [hm]
  · rw [hm]

/-- Without a Store entering Memory a cycle leaves memory as it is (R183). -/
theorem cycleEffects_mem_of_no_store {p : Params} {s t : Engine p} {f : Option Instr} (h : cycleEffects f s = .ok t)
    (hk : kindOf (enteringMemory s).instr ≠ .store) : t.mem = s.mem := by
  obtain ⟨_, _, hstore, -⟩ | ⟨_, -, -, -, hm, -⟩ | ⟨-, -, hm, -⟩ := cycleEffects_memory h
  · exact absurd hstore hk
  · exact hm
  · exact hm

/-- Settles O21: a Store entering Memory is the store case of the cycle, a Load the load case. -/
theorem onlyStoresWriteMemory : Obligations.OnlyStoresWriteMemory := by
  intro p s t h
  obtain ⟨f, -, -, hc⟩ := step_effects h
  refine ⟨fun addr ha => ?_, fun hn => ?_, fun hl => ?_⟩
  · obtain ⟨hk, h2⟩ := storeAddress_eq_some.1 ha
    obtain ⟨addr', v, -, h2', h1, hf, hm, -⟩ | ⟨_, hk', -⟩ | ⟨hk', -⟩ := cycleEffects_memory hc
    · obtain rfl : addr = addr' := Option.some.inj (h2.symm.trans h2')
      obtain ⟨h4, hlt⟩ := dataAddressFault_none.1 hf
      rw [hm]
      exact ⟨v, h1, h4, hlt, fun a => readByte_writeCell_outside s.mem v, readCell_writeCell_same _ v⟩
    · cases hk.symm.trans hk'
    · exact absurd hk hk'
  · obtain ⟨addr, v, hk, h2, -⟩ | ⟨_, -, -, -, hm, -⟩ | ⟨-, -, hm, -⟩ := cycleEffects_memory hc
    · cases hn.symm.trans (storeAddress_eq_some.2 ⟨hk, h2⟩)
    · exact hm
    · exact hm
  · obtain ⟨_, _, hk, -⟩ | ⟨addr, -, h1, hf, -, hl3⟩ | ⟨-, hk, -⟩ := cycleEffects_memory hc
    · cases hl.symm.trans hk
    · obtain ⟨h4, hlt⟩ := dataAddressFault_none.1 hf
      exact ⟨addr, h1, h4, hlt, by rw [hl3]⟩
    · exact absurd hl hk

/-- A cycle takes the whole record into the Memory latch, a Load with its cell as result (R183). -/
theorem cycleEffects_l3 {p : Params} {s t : Engine p} {f : Option Instr} (h : cycleEffects f s = .ok t) :
    (kindOf (enteringMemory s).instr ≠ .load → t.l3 = enteringMemory s) ∧
    (kindOf (enteringMemory s).instr = .load → ∃ addr, (enteringMemory s).resolvedSrc1 = some addr ∧
      t.l3 = { enteringMemory s with result := some (readCell p.xlen s.mem addr.toNat) }) := by
  obtain ⟨_, _, hk, -, -, -, -, hl3⟩ | ⟨addr, hk, h1, -, -, hl3⟩ | ⟨-, hk, -, hl3⟩ := cycleEffects_memory h
  · exact ⟨fun _ => hl3, fun hl => Kind.noConfusion (hk.symm.trans hl)⟩
  · exact ⟨fun hn => absurd hk hn, fun _ => ⟨addr, h1, hl3⟩⟩
  · exact ⟨fun _ => hl3, fun hl => absurd hl hk⟩

/-- Settles O22: which record enters each stage is read off the stall flag, and what each stage makes of it is said
once for every cycle. -/
theorem latchesAdvanceOrHold : Obligations.LatchesAdvanceOrHold := by
  intro p s t h
  obtain ⟨f, -, -, hc⟩ := step_effects h
  have hl3 := cycleEffects_l3 hc
  refine ⟨cycleEffects_l4 hc, fun hst => ?_, fun hst => ?_⟩
  · have hm : enteringMemory s = s.l2 := by simp [enteringMemory, hst]
    rw [hm] at hl3
    rw [cycleEffects_l2_instr hc, cycleEffects_l1 hc, decodeSlots_instr]
    exact ⟨by simp [enteringExecute, hst], by simp [enteringDecode, hst], hl3⟩
  · have hm : enteringMemory s = Latch.bubble := by simp [enteringMemory, hst]
    have hd : enteringDecode s = s.l1 := by simp [enteringDecode, hst]
    rw [hm] at hl3
    rw [cycleEffects_l2_instr hc, cycleEffects_l1 hc, decodeSlots_instr]
    exact ⟨hl3.1 Kind.noConfusion, by simp [enteringExecute, hst], by rw [hd],
      fun hj => cycleEffects_l0_of_stall hc hst (by rwa [hd])⟩

/-! ### The pc and the fetched count -/

/-- Settles O23: a Jump in Decode decides the pc, and otherwise Fetch does, which also counts. -/
theorem pcChangesOnlyByFetchAndJump : Obligations.PcChangesOnlyByFetchAndJump := by
  intro p s t h
  obtain ⟨f, hf, -, hc⟩ := step_effects h
  refine ⟨fun target hj => cycleEffects_jump hc hj, fun hj => ?_, ?_⟩
  · rw [cycleEffects_pc hc hj, if_congr (stalls_or_takes_none_iff hf) rfl rfl, ite_not]
  · rw [cycleEffects_fetched hc, if_congr (stalls_or_takes_none_iff hf) rfl rfl, ite_not]

/-- A cycle leaves every register alone that is not the destination of the record entering Writeback (R184). -/
theorem cycleEffects_readReg {p : Params} {s t : Engine p} {f : Option Instr} {r : RegId} (h : cycleEffects f s = .ok t)
    (hr : destOf s.l3.instr ≠ some r) : readReg t.x r = readReg s.x r := by
  obtain ⟨d, v, hd, -, hx⟩ | ⟨-, hx⟩ := cycleEffects_registers h
  · rw [hx]
    exact readReg_writeReg_ne s.x v fun e => hr (e ▸ hd)
  · rw [hx]

/-- Settles O25: the cycle that takes the instruction, element by element. -/
theorem meaningFrame : Obligations.MeaningFrame := by
  intro p i s t h
  obtain ⟨-, hc⟩ := exec_effects h
  obtain ⟨hfault, hcause, hcycle⟩ := cycleEffects_fault_cycle hc
  have hfetched := cycleEffects_fetched hc
  refine ⟨hfault, hcause, hcycle, fun r => cycleEffects_readReg hc, fun a => cycleEffects_readByte hc,
    cycleEffects_l4 hc, fun hst => by simpa [hst] using hfetched,
    fun hst => ⟨by simpa [hst] using hfetched, fun hj => ?_⟩⟩
  have hj' : targetOf p.xlen (enteringDecode s).instr = none := by simpa [enteringDecode, hst] using hj
  exact ⟨cycleEffects_l0_of_fetch hc hst hj', by simpa [hst] using cycleEffects_pc hc hj'⟩

/-! ### The cycle that raises a stall, and the one that stalls -/

/-- Retirement takes the front of the queue in a cycle whose record in Execute stalled (R147, R182). -/
theorem cycleEffects_hq_of_stalled {p : Params} {s t : Engine p} {f : Option Instr} (h : cycleEffects f s = .ok t)
    (ht : t.stall = true) : t.hq = if writesRegister s.l3.instr = true then s.hq.tail else s.hq := by
  obtain ⟨s3, h3, hstall, -, -, hretire⟩ := lateEffects_cases h
  have hq := executeEffect_hq h3 (early_stall f s)
  rw [early_hq, if_pos (hstall.symm.trans ht), List.append_nil] at hq
  rw [early_l4, enteringWriteback, hq] at hretire
  rw [← destOf_isSome]
  obtain ⟨d, v, r, hd, -, -, hpop⟩ | ⟨hd, -, hkeep⟩ := hretire
  · simp [hd, hpop]
  · simp [hd, hkeep]

/-- A clear check of a register that is not forwarded keeps the slot (R179). -/
theorem sourceCheck_keeps {p : Params} {s : Engine p} {src : Option RegId} {slot v : Option (Word p.xlen)}
    (h : sourceCheck s src slot = .clear v)
    (hn : ∀ r w, src = some r → r ∈ s.hq → forward (enteringMemory s) (enteringWriteback s) r ≠ some w) :
    v = slot := by
  obtain hv | ⟨r, w, hsrc, hq, hf, -⟩ := checkSource_clear h
  · exact hv
  · exact absurd hf (hn r w hsrc hq)

/-- The check of a queued register that can be forwarded answers the forwarded value (R179). -/
theorem sourceCheck_forwarded {p : Params} {s : Engine p} {r : RegId} {slot : Option (Word p.xlen)} {w : Word p.xlen}
    (hq : r ∈ s.hq) (hf : forward (enteringMemory s) (enteringWriteback s) r = some w) :
    sourceCheck s (some r) slot = .clear (some w) := by
  simp [sourceCheck, checkSource, hq, hf]

/-- Settles O30: of the ways a pass of Execute can end, the two that stall keep the record but for a first source that
the check had forwarded. -/
theorem stalledPassKeepsTheRecord : Obligations.StalledPassKeepsTheRecord := by
  intro p s t h ht
  obtain ⟨f, -, -, hc⟩ := step_effects h
  rcases cycleEffects_l2 hc with ⟨-, hst, -⟩ | ⟨-, h1, hl2⟩ | ⟨v1, -, h1, -, hl2⟩ | ⟨_, _, hst, -⟩
  · cases ht.symm.trans hst
  · rw [hl2]
    refine ⟨rfl, rfl, rfl, fun r v hsrc hq hf => ?_, fun _ => rfl, cycleEffects_hq_of_stalled hc ht⟩
    rw [hsrc, sourceCheck_forwarded hq hf] at h1
    cases h1
  · rw [hl2]
    refine ⟨rfl, rfl, rfl, fun r v hsrc hq hf => ?_, fun hn => sourceCheck_keeps h1 hn,
      cycleEffects_hq_of_stalled hc ht⟩
    rw [hsrc, sourceCheck_forwarded hq hf] at h1
    cases h1
    rfl
  · cases ht.symm.trans hst

/-- Settles O34: in a stalling cycle Decode repeats what it did to its record, and a Jump there has set the pc and
flushed the Fetch latch already. -/
theorem stallingCycleHasNoUpstreamEffect : Obligations.StallingCycleHasNoUpstreamEffect := by
  intro p s t hs hst h
  obtain ⟨f, -, -, hc⟩ := step_effects h
  have hd : enteringDecode s = s.l1 := by simp [enteringDecode, hst]
  have hm : enteringMemory s = Latch.bubble := by simp [enteringMemory, hst]
  have hpc_l0 : t.pc = s.pc ∧ t.l0 = s.l0 := by
    cases hj : targetOf p.xlen (enteringDecode s).instr with
    | some target =>
      obtain ⟨hpc, hl0⟩ := cycleEffects_jump hc hj
      obtain ⟨hpc', hl0'⟩ := hs.jump_taken target (by rwa [← hd])
      exact ⟨hpc.trans hpc'.symm, hl0.trans hl0'.symm⟩
    | none => exact ⟨by simpa [hst] using cycleEffects_pc hc hj, cycleEffects_l0_of_stall hc hst hj⟩
  exact ⟨hpc_l0.1, by simpa [hst] using cycleEffects_fetched hc,
    cycleEffects_mem_of_no_store hc (by rw [hm]; exact Kind.noConfusion), hpc_l0.2, fun r => cycleEffects_readReg hc⟩

end Sys2Proof.Machine
end

section
/-! PROOF. The invariant: it holds at reset and after every load, and every step keeps it. -/

namespace Sys2Proof.Machine

open Sys2Proof

/-! ### At reset and after a load -/

/-- The reset state of accepted parameters is sound, whatever the registers hold. -/
theorem sound_atReset {p : Params} {m : Memory} (x : Regs p.xlen) (hp : p.wf) (hm : memoryWf m = true)
    (hw : memoryWithin p.xlen p.memBytes m = true) : Sound (Engine.atReset p x m) where
  params_wf := hp
  mem_wf := hm
  mem_within := hw
  records_wf := rfl
  l0_fresh := rfl
  l1_decoded := rfl
  l2_executed := rfl
  l3_complete := rfl
  l4_complete := rfl
  hq_content := rfl
  stall_loadUse := fun h => Bool.noConfusion h
  jump_taken := fun _ h => by cases h
  done_empty := fun _ => rfl
  cause_zero := fun _ => rfl

/-- Settles O51: the default parameters are accepted and the memory lists no byte. -/
theorem invariantHoldsAtReset : Obligations.InvariantHoldsAtReset :=
  sound_atReset (p := Params.default) (m := []) (zeroRegs 32) (by decide) rfl rfl

/-- All that an accepted load has checked, and the state it makes (R40, R261). -/
theorem loadWords_ok {cfg : Params} {program : List InstrWord} {regInit : Regs cfg.xlen} {memInit : Memory} {s : State}
    (h : loadWords cfg program regInit memInit = .ok s) :
    Params.wf { cfg with progLen := program.length } ∧ memoryWf memInit = true ∧
      memoryWithin cfg.xlen cfg.memBytes memInit = true ∧
      s = (Engine.atReset { cfg with progLen := program.length } regInit
        (writeCells memInit cfg.codeBase (program.map fun w => w.setWidth cfg.xlen))).pack := by
  simp only [loadWords] at h
  split at h
  · cases h
  · rename_i hp
    split at h
    · cases h
    · rename_i hm
      obtain ⟨hwf, hwithin⟩ := not_not.1 hm
      exact ⟨not_not.1 hp, hwf, hwithin, (Except.ok.inj h).symm⟩

/-- Settles O52: writing the program's cells keeps MEM_INIT's canonical form and stays inside memory. -/
theorem invariantHoldsAfterLoad : Obligations.InvariantHoldsAfterLoad := by
  intro cfg program regInit memInit s h
  obtain ⟨hp, hm, hw, rfl⟩ := loadWords_ok h
  have ⟨_, h4, _, hfits, _, _⟩ := hp
  exact sound_atReset (p := { cfg with progLen := program.length }) regInit hp (memoryWf_writeCells _ _ hm)
    (memoryWithin_writeCells _ hw h4 (by rw [List.length_map]; exact hfits))

/-! ### The slots a record has after each stage (R30) -/

/-- A record whose slots are unwritten is the fresh one of its instruction. -/
theorem eq_fresh_of_slotsFresh {n : Nat} {l : Latch n} (h : slotsFresh l = true) : l = Latch.fresh l.instr := by
  simp only [slotsFresh, Bool.and_eq_true, Option.isNone_iff_eq_none] at h
  obtain ⟨⟨h1, h2⟩, h3⟩ := h
  obtain ⟨i, r1, r2, r⟩ := l
  cases h1; cases h2; cases h3
  rfl

/-- Decode gives a fresh record the operands of its kind (R174, R175). -/
theorem decodeSlots_fresh_decoded {n : Nat} (x : Regs n) (i : Instr) :
    slotsDecoded (decodeSlots x (Latch.fresh i)) = true := by cases i <;> rfl

/-- Decoding a decoded record again replaces its slots: they are those of a fresh one (R144, R174). -/
theorem decodeSlots_of_decoded {n : Nat} (x : Regs n) {l : Latch n} (h : slotsDecoded l = true) :
    decodeSlots x l = decodeSlots x (Latch.fresh l.instr) := by
  obtain ⟨i, r1, r2, r⟩ := l
  cases i <;> cases r1 <;> cases r2 <;> cases r <;>
    simp_all [slotsDecoded, operandsWritten, decodeSlots, Latch.fresh]

/-- A Load with its cell as result is complete (R183). -/
theorem complete_of_load {n : Nat} {l : Latch n} (v : Word n) (hl : slotsExecuted l = true)
    (hk : kindOf l.instr = .load) : slotsComplete { l with result := some v } = true := by
  simp only [slotsExecuted, Bool.and_eq_true] at hl
  obtain ⟨-, hw, -⟩ := flags_of_kind hk
  simpa [slotsComplete, hw, flagsOf, operandsWritten] using hl.1

/-- A record past Execute that is no Load is complete (R30). -/
theorem complete_of_not_load {n : Nat} {l : Latch n} (hl : slotsExecuted l = true) (hk : kindOf l.instr ≠ .load) :
    slotsComplete l = true := by
  obtain ⟨i, r1, r2, r⟩ := l
  cases i with
  | lw => exact absurd rfl hk
  | _ => exact hl

/-- A stalled pass keeps the slots as Decode left them: it replaces at most the first, by a forwarded value (R182). -/
theorem slotsDecoded_of_clear {p : Params} {s : Engine p} {l : Latch p.xlen} {v1 : Option (Word p.xlen)}
    (hl : slotsDecoded l = true) (h1 : sourceCheck s (src1Of l.instr) l.resolvedSrc1 = .clear v1) :
    slotsDecoded { l with resolvedSrc1 := v1 } = true := by
  have hslots := hl
  simp only [slotsDecoded, operandsWritten, Bool.and_eq_true, beq_iff_eq] at hslots
  obtain ⟨⟨hs1, -⟩, -⟩ := hslots
  have e1 : v1.isSome = l.resolvedSrc1.isSome :=
    isSome_of_checkSource_clear h1 fun hsrc => by rw [hs1, ← src1Of_isSome, hsrc]
  simpa only [slotsDecoded, operandsWritten, e1] using hl

/-- After the checks the slots are still those Decode leaves (R179). -/
theorem slotsDecoded_of_checks {p : Params} {s : Engine p} {l : Latch p.xlen} {v1 v2 : Option (Word p.xlen)}
    (hl : slotsDecoded l = true) (h1 : sourceCheck s (src1Of l.instr) l.resolvedSrc1 = .clear v1)
    (h2 : sourceCheck s (src2Of l.instr) l.resolvedSrc2 = .clear v2) :
    slotsDecoded { l with resolvedSrc1 := v1, resolvedSrc2 := v2 } = true := by
  rw [slotsDecoded, Bool.and_eq_true] at hl ⊢
  exact ⟨operandsWritten_of_checks hl.1 h1 h2, hl.2⟩

/-- A record without work in Execute has passed it as Decode left it (R178). -/
theorem executed_of_not_usesAlu {n : Nat} {l : Latch n} (hl : slotsDecoded l = true) (hu : usesAlu l.instr = false) :
    slotsExecuted l = true := by
  have hk : kindOf l.instr ≠ .arithmetic := fun hk => by
    obtain ⟨-, -, -, -, hu'⟩ := flags_of_kind hk
    cases hu.symm.trans hu'
  simp only [slotsDecoded, Bool.and_eq_true, Option.isNone_iff_eq_none] at hl
  obtain ⟨hoperands, hresult⟩ := hl
  simp [slotsExecuted, hoperands, hresult, hk]

/-! ### Each part of the invariant after a cycle -/

/-- An instruction Fetch takes is well formed: the decoder answers no other (R80, R171). -/
theorem wellFormed_of_fetchWord {p : Params} {m : Memory} {pc : Word p.xlen} {i : Instr}
    (h : fetchWord p m pc = .ok (some i)) : i.wellFormed = true := by
  unfold fetchWord at h
  split at h
  · split at h
    · cases h
    · split at h
      · cases h
      · split at h
        · rename_i hd
          cases h
          unfold decodeCell at hd
          split at hd
          · exact (wellFormed_and_encode_of_decode hd).1
          · cases hd
        · cases h
  · cases h

/-- An instruction the next cycle's Fetch takes is well formed. -/
theorem wellFormed_of_fetchRequest {p : Params} {s : Engine p} {i : Instr} (h : fetchRequest s = .ok (some i)) :
    i.wellFormed = true := by
  unfold fetchRequest at h
  split at h
  · cases h
  · exact wellFormed_of_fetchWord h

/-- The Fetch latch after a cycle: the bubble, its own record in a stalling cycle, or what Fetch took (R171 to R176). -/
theorem cycleEffects_l0_cases {p : Params} {s t : Engine p} {f : Option Instr} (h : cycleEffects f s = .ok t) :
    t.l0 = Latch.bubble ∨ (s.stall = true ∧ t.l0 = s.l0) ∨ ∃ i, f = some i ∧ t.l0 = Latch.fresh i := by
  cases hj : targetOf p.xlen (enteringDecode s).instr with
  | some target => exact .inl (cycleEffects_jump h hj).2
  | none =>
    cases hst : s.stall with
    | true => exact .inr (.inl ⟨rfl, cycleEffects_l0_of_stall h hst hj⟩)
    | false =>
      cases f with
      | some i => exact .inr (.inr ⟨i, rfl, cycleEffects_l0_of_fetch h hst hj⟩)
      | none => exact .inl (cycleEffects_l0_of_none h hst)

namespace Sound

variable {p : Params} {s t : Engine p} {f : Option Instr}

/-- The record entering Decode is decoded as a fresh one, whether or not it was decoded before (R144, R174). -/
theorem decodeSlots_enteringDecode (hs : Sound s) (x : Regs p.xlen) :
    decodeSlots x (enteringDecode s) = decodeSlots x (Latch.fresh (enteringDecode s).instr) := by
  unfold enteringDecode
  split
  · exact decodeSlots_of_decoded x hs.l1_decoded
  · rw [← eq_fresh_of_slotsFresh hs.l0_fresh]

/-- A store inside memory keeps memory canonical and inside MEM_BYTES (R51). -/
theorem cycle_mem (hs : Sound s) (h : cycleEffects f s = .ok t) :
    memoryWf t.mem = true ∧ memoryWithin p.xlen p.memBytes t.mem = true := by
  obtain ⟨-, h4, -⟩ := hs.params_wf
  obtain ⟨addr, v, -, -, -, hf, hm, -⟩ | ⟨_, -, -, -, hm, -⟩ | ⟨-, -, hm, -⟩ := cycleEffects_memory h
  · obtain ⟨-, hlt⟩ := dataAddressFault_none.1 hf
    rw [hm]
    exact ⟨memoryWf_writeCell _ v hs.mem_wf, memoryWithin_writeCell v hs.mem_within h4 hlt⟩
  · rw [hm]; exact ⟨hs.mem_wf, hs.mem_within⟩
  · rw [hm]; exact ⟨hs.mem_wf, hs.mem_within⟩

/-- Every record a cycle leaves was in the pipeline or has just been decoded (R73). -/
theorem cycle_records_wf (hs : Sound s) (hwf : ∀ i, f = some i → i.wellFormed = true)
    (h : cycleEffects f s = .ok t) : (t.l0.instr.wellFormed && t.l1.instr.wellFormed && t.l2.instr.wellFormed &&
      t.l3.instr.wellFormed && t.l4.instr.wellFormed) = true := by
  have hrecords := hs.records_wf
  simp only [Bool.and_eq_true] at hrecords ⊢
  obtain ⟨⟨⟨⟨w0, w1⟩, w2⟩, w3⟩, -⟩ := hrecords
  rw [cycleEffects_l1 h, decodeSlots_instr, cycleEffects_l2_instr h, cycleEffects_l3_instr h, cycleEffects_l4 h]
  refine ⟨⟨⟨⟨?_, ?_⟩, ?_⟩, ?_⟩, w3⟩
  · obtain hl0 | ⟨-, hl0⟩ | ⟨i, hi, hl0⟩ := cycleEffects_l0_cases h
    · rw [hl0]; rfl
    · rw [hl0]; exact w0
    · rw [hl0]; exact hwf i hi
  · unfold enteringDecode; split <;> assumption
  · unfold enteringExecute; split <;> assumption
  · unfold enteringMemory; split
    · rfl
    · exact w2

theorem cycle_l0_fresh (hs : Sound s) (h : cycleEffects f s = .ok t) : slotsFresh t.l0 = true := by
  obtain hl0 | ⟨-, hl0⟩ | ⟨i, -, hl0⟩ := cycleEffects_l0_cases h
  · rw [hl0]; rfl
  · rw [hl0]; exact hs.l0_fresh
  · rw [hl0]; rfl

theorem cycle_l1_decoded (hs : Sound s) (h : cycleEffects f s = .ok t) : slotsDecoded t.l1 = true := by
  rw [cycleEffects_l1 h, hs.decodeSlots_enteringDecode]
  exact decodeSlots_fresh_decoded s.x _

/-- A completed pass of Execute leaves the record executed, a stalled one as decoded (R181, R182). -/
theorem cycle_l2_executed (hs : Sound s) (h : cycleEffects f s = .ok t) :
    (if t.stall = true then slotsDecoded t.l2 else slotsExecuted t.l2) = true := by
  have hl := hs.enteringExecute_decoded
  rcases cycleEffects_l2 h with ⟨hu, ht, hl2⟩ | ⟨ht, -, hl2⟩ | ⟨v1, ht, h1, -, hl2⟩ | ⟨v1, v2, ht, h1, h2, hc⟩
  · rw [ht, hl2]; exact executed_of_not_usesAlu hl hu
  · rw [ht, hl2]; exact hl
  · rw [ht, hl2]; exact slotsDecoded_of_clear hl h1
  · rw [ht]; exact compute_executed (slotsDecoded_of_checks hl h1 h2) hc

theorem cycle_l3_complete (hs : Sound s) (h : cycleEffects f s = .ok t) : slotsComplete t.l3 = true := by
  have hl := hs.enteringMemory_executed
  obtain ⟨hother, hload⟩ := cycleEffects_l3 h
  by_cases hk : kindOf (enteringMemory s).instr = .load
  · obtain ⟨addr, -, hl3⟩ := hload hk
    rw [hl3]
    exact complete_of_load _ hl hk
  · rw [hother hk]
    exact complete_of_not_load hl hk

/-- A stall stands on a Load now in the Memory latch, of which the record in Execute is a reader (R204, R208). -/
theorem step_stall_loadUse (hs : Sound s) (h : step s.pack = .next t.pack) (ht : t.stall = true) :
    kindOf t.l3.instr = .load ∧ ∃ r ∈ sourcesOf t.l2.instr, destOf t.l3.instr = some r := by
  obtain ⟨f, -, -, hc⟩ := step_effects h
  obtain ⟨r, hr, hb⟩ := (stallRaisedExactlyWhenBlocked p s t h).1 ht
  obtain ⟨hk, hd, -⟩ := hs.blocked_iff.1 hb
  rw [cycleEffects_l3_instr hc, cycleEffects_l2_instr hc]
  exact ⟨hk, r, hr, hd⟩

/-- A step keeps the invariant, part by part. -/
theorem of_step (hs : Sound s) (h : step s.pack = .next t.pack) : Sound t := by
  obtain ⟨f, hf, hrun, hc⟩ := step_effects h
  have hwf : ∀ i, f = some i → i.wellFormed = true := fun i hi => wellFormed_of_fetchRequest (hi ▸ hf)
  obtain ⟨hmem, hwithin⟩ := hs.cycle_mem hc
  obtain ⟨hfault, hcause, -⟩ := cycleEffects_fault_cycle hc
  exact {
    params_wf := hs.params_wf
    mem_wf := hmem
    mem_within := hwithin
    records_wf := hs.cycle_records_wf hwf hc
    l0_fresh := hs.cycle_l0_fresh hc
    l1_decoded := hs.cycle_l1_decoded hc
    l2_executed := hs.cycle_l2_executed hc
    l3_complete := hs.cycle_l3_complete hc
    l4_complete := by rw [cycleEffects_l4 hc]; exact hs.l3_complete
    hq_content := hs.step_hq h
    stall_loadUse := hs.step_stall_loadUse h
    jump_taken := fun target hj => by
      rw [cycleEffects_l1 hc, decodeSlots_instr] at hj
      exact cycleEffects_jump hc hj
    done_empty := fun hd => by rw [← cycleEffects_done hc, hd]
    cause_zero := fun hn => by rw [hcause]; exact hs.cause_zero (hfault ▸ hn) }

end Sound

/-- Settles O53: `Sound.of_step`, in which each part of the invariant is a lemma about the cycle. -/
theorem everyStepKeepsTheInvariant : Obligations.EveryStepKeepsTheInvariant := fun _ _ _ hs h => hs.of_step h

end Sys2Proof.Machine
end

section
/-! PROOF. The outcomes of a step: what it runs, how it faults, where it stands still (R140, R150 to R153, R171,
R232 to R234). -/

namespace Sys2Proof.Machine

open Sys2Proof

/-! ### What a step runs -/

section fetching

variable {p : Params} {s : Engine p}

/-- In the program, in memory and aligned, Fetch takes what the cell at the pc decodes to (R171). -/
theorem fetchRequest_decoded {i : Instr} (hs : s.stall = false) (hin : inProgram p s.pc = true)
    (h4 : s.pc.toNat % 4 = 0) (hlt : s.pc.toNat < p.memBytes)
    (hd : decodeCell (readCell p.xlen s.mem s.pc.toNat) = .ok i) : fetchRequest s = .ok (some i) := by
  simp [fetchRequest, fetchWord, hs, hin, h4, not_le.2 hlt, hd]

/-- In the program, in memory and aligned, Fetch faults on a cell that is no instruction (R78, R171). -/
theorem fetchRequest_illegal {e : DecodeError} (hs : s.stall = false) (hin : inProgram p s.pc = true)
    (h4 : s.pc.toNat % 4 = 0) (hlt : s.pc.toNat < p.memBytes)
    (hd : decodeCell (readCell p.xlen s.mem s.pc.toNat) = .error e) :
    fetchRequest s = .error .illegalInstruction := by
  simp [fetchRequest, fetchWord, hs, hin, h4, not_le.2 hlt, hd]

/-- A running step is the meaning of the instruction Fetch takes (R151). -/
theorem step_eq_exec {i : Instr} (hr : running s = true) (hf : fetchRequest s = .ok (some i)) :
    step s.pack = exec i s.pack := by
  rw [step_eq_cycle hr hf, exec_eq_cycle]

end fetching

/-- Settles O16: Fetch takes what the cell at the pc decodes to, and the step is its meaning. -/
theorem stepRunsDecodedInstruction : Obligations.StepRunsDecodedInstruction :=
  fun _ _ _ hr hs hin h4 hlt hd => step_eq_exec hr (fetchRequest_decoded hs hin h4 hlt hd)

/-- Settles O41: accepted parameters keep the pc in memory, and Fetch's fault is the step's. -/
theorem illegalWordFaultsWhenFetched : Obligations.IllegalWordFaultsWhenFetched :=
  fun _ _ _ hr hs hin h4 hp hd =>
    step_of_fetch_error hr (fetchRequest_illegal hs hin h4 (pc_lt_memBytes hp hin) hd)

/-! ### How a step or a meaning ends -/

/-- The state a fault outcome of an effect carries is the one before, with the fault record (R234). -/
theorem takeFault_stopped {p : Params} (c : FaultCause) (s : Engine p) :
    ∃ f, takeFault c s = .fault f ∧ stoppedState f = (recordFault c s).pack := by
  cases c <;> exact ⟨_, rfl, rfl⟩

/-- A cycle is stopped, faults or answers a state for the same parameters. -/
theorem cycle_outcomes {p : Params} (f : Option Instr) (s : Engine p) :
    (running s = false ∧ cycle f s.pack = .fault (.engineStopped s.pack)) ∨
    (running s = true ∧ ∃ c, cycleEffects f s = .error c ∧ cycle f s.pack = takeFault c s) ∨
    (running s = true ∧ ∃ t : Engine p, cycleEffects f s = .ok t ∧ cycle f s.pack = .next t.pack) := by
  cases hr : running s with
  | false => exact .inl ⟨rfl, by simp [cycle, hr]⟩
  | true =>
    cases he : cycleEffects f s with
    | error c => exact .inr (.inl ⟨rfl, c, rfl, cycle_of_effects_error hr he⟩)
    | ok t => exact .inr (.inr ⟨rfl, t, rfl, cycle_pack.2 ⟨hr, he⟩⟩)

/-- A step is stopped, faults or answers a state for the same parameters: nothing is refused. -/
theorem step_outcomes {p : Params} (s : Engine p) :
    (running s = false ∧ step s.pack = .fault (.engineStopped s.pack)) ∨
    (running s = true ∧ ∃ c, step s.pack = takeFault c s) ∨
    (running s = true ∧ ∃ t : Engine p, step s.pack = .next t.pack) := by
  cases hr : running s with
  | false => exact .inl ⟨rfl, step_of_not_running hr⟩
  | true =>
    cases hf : fetchRequest s with
    | error c => exact .inr (.inl ⟨rfl, c, step_of_fetch_error hr hf⟩)
    | ok f =>
      rw [step_eq_cycle hr hf]
      obtain ⟨hn, -⟩ | ⟨-, c, -, hc⟩ | ⟨-, t, -, ht⟩ := cycle_outcomes f s
      · cases hr.symm.trans hn
      · exact .inr (.inl ⟨rfl, c, hc⟩)
      · exact .inr (.inr ⟨rfl, t, ht⟩)

/-- Settles O46: a stopped engine performs no cycle, and every meaning is a cycle. -/
theorem stoppedEngineStandsStill : Obligations.StoppedEngineStandsStill := by
  rintro ⟨p, s⟩ hstop
  have hr : running s = false := not_running_iff.2 hstop
  refine ⟨step_of_not_running hr, fun i => ?_⟩
  rw [exec_eq_cycle]
  simp [cycle, hr]

theorem causeCode_ne_zero (c : FaultCause) : causeCode c ≠ 0#3 := by cases c <;> decide

/-- Settles O45: a step that faults found the engine stopped, or wrote the fault record, which stops it. -/
theorem faultingCycleCommitsNothing : Obligations.FaultingCycleCommitsNothing := by
  intro p s f h
  obtain ⟨hr, hstep⟩ | ⟨hr, c, hstep⟩ | ⟨-, t, hstep⟩ := step_outcomes s
  · obtain rfl : Fault.engineStopped s.pack = f := by simpa [hstep] using h
    exact ⟨hstep, .inl ⟨hr, rfl⟩⟩
  · obtain ⟨g, hg, hstopped⟩ := takeFault_stopped c s
    obtain rfl : g = f := by simpa [hstep, hg] using h
    rw [hstopped]
    exact ⟨step_of_not_running (not_running_iff.2 (.inr (recordFault_fault c s))),
      .inr ⟨hr, c, rfl, causeCode_ne_zero c⟩⟩
  · cases hstep.symm.trans h

/-- A next state of a cycle is an engine state for the same parameters (R39). -/
theorem cycle_packed {f : Option Instr} {s t : State} (h : cycle f s = .next t) :
    ∃ e : Engine s.params, t = e.pack := by
  obtain ⟨-, e, -, he⟩ := cycle_next.1 h
  exact ⟨e, he⟩

/-- The state a fault outcome of a step carries is for the same parameters (R39). -/
theorem step_fault_packed {s : State} {f : Fault} (h : step s = .fault f) :
    ∃ e : Engine s.params, stoppedState f = e.pack := by
  obtain ⟨-, ⟨-, hs⟩ | ⟨-, c, hs, -⟩⟩ := faultingCycleCommitsNothing s.params s.engine f h
  · exact ⟨_, hs⟩
  · exact ⟨_, hs⟩

/-- Settles O18: whatever a step or a meaning ends in carries a state for the parameters it began with. -/
theorem parametersAreNeverChanged : Obligations.ParametersAreNeverChanged := by
  refine ⟨fun s t h => step_packed h, fun i s t h => cycle_packed (exec_eq_cycle i s ▸ h),
    fun s f h => step_fault_packed h, fun q x m s => ?_⟩
  simp only [clockEdge, Bool.false_eq_true, if_false]
  cases hs : step s with
  | next t => exact step_packed hs
  | fault f => exact step_fault_packed hs
  | refused _ => exact ⟨s.engine, rfl⟩

/-! ### The outcomes in a sound state -/

/-- Settles O44: the effects of the cycle fault exactly where the record entering Memory does (R57, R233). -/
theorem meaningCompletesExactly : Obligations.MeaningCompletesExactly := by
  intro p i s hs
  rw [exec_eq_cycle]
  constructor
  · rintro ⟨t, h⟩
    obtain ⟨hr, hc⟩ := cycle_pack.1 h
    refine ⟨hr, Option.eq_none_iff_forall_ne_some.2 fun c ha => ?_⟩
    obtain ⟨addr, haddr, hfault⟩ := accessFault_eq_some.1 ha
    cases hc.symm.trans (cycleEffects_access_fault hs (some i) haddr hfault)
  · rintro ⟨hr, ha⟩
    obtain ⟨t, ht⟩ := hs.cycleEffects_total (some i) ha
    exact ⟨t, cycle_pack.2 ⟨hr, ht⟩⟩

/-- The fault outcomes of the causes other than 5 are safe (R232). -/
theorem safeOutcome_takeFault {p : Params} {c : FaultCause} {s : Engine p} (h : c ≠ .contractViolation) :
    safeOutcome (takeFault c s) := by
  cases c with
  | contractViolation => exact absurd rfl h
  | _ => exact trivial

/-- Settles O54: in a sound state only Fetch and the data address can fault, and neither has cause 5 (R232, R233). -/
theorem noContractViolation : Obligations.NoContractViolation := by
  intro p s hs
  cases hr : running s with
  | false => rw [step_of_not_running hr]; exact trivial
  | true =>
    obtain ⟨hfetch, hcycle⟩ := stepOutcomeExactly p s hs hr
    cases hf : fetchRequest s with
    | error c =>
      rw [(hfetch c hf).1]
      obtain ⟨-, rfl⟩ | ⟨-, rfl⟩ := fetchWord_error hs.params_wf (fetchWord_of_fetchRequest_error hf)
      · exact safeOutcome_takeFault FaultCause.noConfusion
      · exact safeOutcome_takeFault FaultCause.noConfusion
    | ok f =>
      obtain ⟨hfault, hnext⟩ := hcycle f hf
      cases ha : accessFault s with
      | none =>
        obtain ⟨t, ht⟩ := hnext ha
        rw [ht]; exact trivial
      | some c =>
        rw [(hfault c ha).1]
        obtain ⟨addr, -, hd⟩ := accessFault_eq_some.1 ha
        obtain ⟨-, rfl⟩ | ⟨-, -, rfl⟩ := dataAddressFault_eq_some.1 hd
        · exact safeOutcome_takeFault FaultCause.noConfusion
        · exact safeOutcome_takeFault FaultCause.noConfusion

/-! ### Empty in a quiet pipeline -/

/-- Settles O15: every latch but Writeback's holds the bubble, so no effect has work, and the termination test finds
the pipeline empty (R131, R148). -/
theorem emptyChangesNothingAndMayEndTheRun : Obligations.EmptyChangesNothingAndMayEndTheRun := by
  refine ⟨rfl, fun p s hs => ?_⟩
  rw [exec_eq_cycle]
  refine cycle_pack.2 ⟨hs.running, ?_⟩
  conv_lhs => rw [hs.eq_carrying, earlyEffects_carrying 0 .empty hs.stall rfl]
  rw [lateEffects_idle rfl rfl rfl rfl]
  obtain ⟨-, -, -, h0, h1, h2, h3, -⟩ := hs
  simp [closeCycle, Engine.underway, Engine.carrying, h0, h1, h2, h3, allEmpty, decodeSlots]

end Sys2Proof.Machine
end

section
/-! PROOF. The words the decoder refuses (R78). -/

namespace Sys2Proof

/-- The bits shifted down to the opcode are the number of the opcode field (R75). -/
theorem toNat_opcodeField (w : InstrWord) : (opcodeField w).toNat = (w >>> 26).toNat := by
  have := w.isLt
  rw [opcodeField, BitVec.extractLsb'_toNat, BitVec.toNat_ushiftRight, Nat.shiftRight_eq_div_pow]
  all_goals omega

/-- The opcode field is a given constant exactly when the shifted word is its number. -/
theorem opcodeField_eq_iff (w : InstrWord) (op : BitVec 6) : opcodeField w = op ↔ (w >>> 26).toNat = op.toNat := by
  rw [← toNat_opcodeField, BitVec.toNat_inj]

/-- Bits 10:0 are zero exactly when the word's number is a multiple of 2^11. -/
theorem lowField_eq_zero_iff (w : InstrWord) : lowField w = 0#11 ↔ w.toNat % 2 ^ 11 = 0 := by
  rw [← BitVec.toNat_inj, lowField, BitVec.extractLsb'_toNat]
  simp

/-- Format R refuses exactly the words with a bit among 10:0 (R78). -/
theorem decodeR_refuses_iff (mk : RegId → RegId → RegId → Instr) (w : InstrWord) :
    (∃ e, decodeR mk w = .error e) ↔ w.toNat % 2 ^ 11 ≠ 0 := by
  rw [Ne, ← lowField_eq_zero_iff, decodeR]
  split <;> simp_all

/-- A choice between two rows refuses where the row chosen does. -/
theorem ite_refuses_iff (c : Prop) [Decidable c] (a b : Except DecodeError Instr) :
    (∃ e, (if c then a else b) = .error e) ↔ if c then ∃ e, a = .error e else ∃ e, b = .error e := by
  split <;> rfl

/-- Settles O2: the decoder's rows in turn, each with the words it refuses, as ranges of the opcode's number. -/
theorem illegalWordsAreExactlyThese : Obligations.IllegalWordsAreExactlyThese := by
  intro w
  have hdiv : (w >>> 26).toNat = w.toNat / 2 ^ 26 := by
    rw [BitVec.toNat_ushiftRight, Nat.shiftRight_eq_div_pow]
  have hzero : w = 0#32 ↔ w.toNat = 0 := by rw [← BitVec.toNat_inj]; rfl
  simp only [decode, opcodeField_eq_iff, BitVec.reduceToNat, hzero, ite_refuses_iff, decodeR_refuses_iff,
    reduceCtorEq, exists_false, Except.error.injEq, exists_eq', if_false_left, and_true]
  generalize (w >>> 26).toNat = op at *
  split_ifs
  all_goals omega

end Sys2Proof
end

section
/-! PROOF. Reset and load (R40, R261), and the model's placing of one instruction at the pc (log entry 4). -/

namespace Sys2Proof.Machine

open Sys2Proof

/-! ### Reset -/

/-- Every register of REG_INIT's default is 0 (R8). -/
theorem readReg_zeroRegs (n : Nat) (r : RegId) : readReg (zeroRegs n) r = 0#n := by
  simp [readReg, zeroRegs]

/-- Settles O48: the reset table at the default parameters, REG_INIT and MEM_INIT. -/
theorem resetValues : Obligations.ResetValues :=
  ⟨rfl, readReg_zeroRegs 32, rfl, fun _ => rfl, rfl, rfl, rfl, rfl, rfl, rfl, rfl, rfl, rfl, rfl, rfl, rfl⟩

/-- A reset state whose pc is outside the program ends its run in one cycle: nothing is fetched and every latch holds
the bubble (R148, R172). -/
theorem step_atReset_outside {p : Params} (x : Regs p.xlen) (m : Memory)
    (h : inProgram p (Engine.atReset p x m).pc = false) :
    step (Engine.atReset p x m).pack =
      .next (Engine.pack { Engine.atReset p x m with cycle := 1#p.ctrW, done := true }) := by
  rw [step_eq_cycle rfl (fetchRequest_outside h)]
  refine cycle_pack.2 ⟨rfl, (lateEffects_idle rfl rfl rfl rfl).trans (congrArg Except.ok ?_)⟩
  simp [closeCycle, Engine.atReset, earlyEffects, advance, fetchEffect, decodeEffect, decodeSlots, allEmpty]

/-- Settles O50: the default parameters have an empty program, so the pc is outside it. -/
theorem emptyProgramEndsAfterOneCycle : Obligations.EmptyProgramEndsAfterOneCycle :=
  step_atReset_outside (p := Params.default) (zeroRegs 32) [] (by decide)

/-! ### The cells of a loaded program (R40, R52) -/

/-- Writing consecutive cells leaves every byte outside them alone. -/
theorem readByte_writeCells_outside {n : Nat} (m : Memory) {a b : Nat} (ws : List (Word n))
    (h : b < cellBase n a ∨ cellBase n (a + 4 * ws.length) ≤ b) : readByte (writeCells m a ws) b = readByte m b := by
  induction ws generalizing m a with
  | nil => rfl
  | cons w ws ih =>
    have hnext : cellBase n (a + 4) = cellBase n a + cellBytes n := by
      rw [cellBase, cellBase, Nat.add_div_right a (by omega), Nat.succ_mul]
    have hlast : cellBase n (a + 4) ≤ cellBase n (a + 4 + 4 * ws.length) :=
      Nat.mul_le_mul_right _ (Nat.div_le_div_right (Nat.le_add_right _ _))
    have hlength : a + 4 * (w :: ws).length = a + 4 + 4 * ws.length := by rw [List.length_cons]; omega
    rw [hlength] at h
    rw [writeCells, ih _ (by omega), readByte_writeCell_outside _ _ (by omega)]

/-- Writing cells behind an address leaves its cell alone. -/
theorem readCell_writeCells_behind {n : Nat} (m : Memory) {a b : Nat} (ws : List (Word n)) (h : b / 4 < a / 4) :
    readCell n (writeCells m a ws) b = readCell n m b := by
  induction ws generalizing m a with
  | nil => rfl
  | cons w ws ih => rw [writeCells, ih _ (by omega), readCell_writeCell_ne _ _ (by omega)]

/-- The cells of consecutive words hold them in order. -/
theorem readCell_writeCells {n : Nat} {m : Memory} (a : Nat) {ws : List (Word n)} {k : Nat} {w : Word n}
    (hm : memoryWf m = true) (h : ws[k]? = some w) : readCell n (writeCells m a ws) (a + 4 * k) = w := by
  induction ws generalizing m a k with
  | nil => cases h
  | cons v ws ih =>
    cases k with
    | zero =>
      cases h
      rw [writeCells, readCell_writeCells_behind _ _ (by omega), Nat.mul_zero, Nat.add_zero,
        readCell_writeCell_same _ _ hm]
    | succ k =>
      rw [writeCells, show a + 4 * (k + 1) = a + 4 + 4 * k by omega]
      exact ih (a + 4) (memoryWf_writeCell _ _ hm) h

/-- Settles O49: the load makes the reset state over the program's cells written into MEM_INIT. -/
theorem loadedStateIsTheResetTable : Obligations.LoadedStateIsTheResetTable := by
  intro cfg program regInit memInit s h
  obtain ⟨-, hm, -, rfl⟩ := loadWords_ok h
  refine ⟨_, rfl, rfl, fun hlt => ?_, fun k w hw => ?_, fun a ha => ?_,
    rfl, rfl, rfl, rfl, rfl, rfl, rfl, rfl, rfl, rfl, rfl, rfl⟩
  · rw [atReset_pc, BitVec.toNat_ofNat, Nat.mod_eq_of_lt hlt]
  · exact readCell_writeCells cfg.codeBase hm (by rw [List.getElem?_map, hw]; rfl)
  · exact readByte_writeCells_outside memInit _ (by rwa [List.length_map])

/-- Settles O60: the bounds a load checks leave one such CODE_BASE, with an empty program, and there the pc, CODE_BASE
modulo 2^XLEN, is outside it. -/
theorem codeBaseAtTheEndOfTheAddresses : Obligations.CodeBaseAtTheEndOfTheAddresses := by
  refine ⟨fun cfg program regInit memInit s h hbase => ?_, fun q x m s => ⟨_, clockEdge_reset q x m s, ?_⟩⟩
  · obtain ⟨⟨-, -, hmem, hfits, -, -⟩, -, -, rfl⟩ := loadWords_ok h
    dsimp only at hmem hfits
    have hlength : program.length = 0 := by omega
    have hcode : cfg.codeBase = 2 ^ cfg.xlen := by omega
    obtain rfl : program = [] := List.length_eq_zero_iff.1 hlength
    have hpc : (BitVec.ofNat cfg.xlen cfg.codeBase).toNat = 0 := by
      rw [BitVec.toNat_ofNat, hcode, Nat.mod_self]
    refine ⟨hcode, by omega, rfl, _, rfl, hpc, rfl, step_atReset_outside (p := { cfg with progLen := 0 }) _ _ ?_⟩
    have hpos := Nat.two_pow_pos cfg.xlen
    rw [Bool.eq_false_iff, Ne, inProgram_iff]
    dsimp only [atReset_pc]
    omega
  · rw [atReset_pc, BitVec.toNat_ofNat]

/-! ### The placing of one word (log entry 4) -/

/-- The four bytes of a word, put together again, are the word (R60). -/
theorem wordOfBytes_byteOfWord (w : InstrWord) :
    wordOfBytes (byteOfWord w 0) (byteOfWord w 1) (byteOfWord w 2) (byteOfWord w 3) = w := by
  apply BitVec.eq_of_getLsbD_eq
  intro i hi
  simp only [wordOfBytes, byteOfWord, BitVec.getLsbD_append, BitVec.getLsbD_extractLsb']
  split_ifs with h0 h1 h2
  · simp [h0]
  · simp [h1, show 8 + (i - 8) = i by omega]
  · simp [h2, show 16 + (i - 8 - 8) = i by omega]
  · simp [show i - 8 - 8 - 8 < 8 by omega, show 24 + (i - 8 - 8 - 8) = i by omega]

/-- The instruction of a table word is the decoding of its low `nbits` bits. -/
theorem decode_of_decodeTableWord {nbits w : Nat} {i : Instr} (h : decodeTableWord nbits w = some i) :
    decode (BitVec.ofNat 32 (w % 2 ^ nbits)) = .ok i := by
  simp only [decodeTableWord, bytesOfWord, decodeBytes, wordOfBytes_byteOfWord] at h
  cases hd : decode (BitVec.ofNat 32 (w % 2 ^ nbits)) with
  | error e => simp [hd] at h
  | ok j => simpa [hd] using h

/-- A cell holds an instruction word in its low bits where it is wide enough (R75, log entry 13). -/
theorem decodeCell_setWidth {n : Nat} (w : InstrWord) (hn : 32 ≤ n) : decodeCell (w.setWidth n) = decode w := by
  have hlt : (w.setWidth n).toNat < 2 ^ 32 := by
    rw [BitVec.toNat_setWidth]
    exact lt_of_le_of_lt (Nat.mod_le _ _) w.isLt
  rw [decodeCell, if_pos hlt, BitVec.setWidth_setWidth_of_le w hn, BitVec.setWidth_eq]

/-- `withFetchablePc` keeps memory and puts the pc where one instruction fits, under accepted parameters. -/
theorem withFetchablePc_spec (s : State) :
    (withFetchablePc s).engine.mem = s.engine.mem ∧ fetchesAtPc (withFetchablePc s).engine = true := by
  unfold withFetchablePc
  by_cases hown : fetchesAtPc s.engine = true
  · rw [if_pos hown]
    exact ⟨rfl, hown⟩
  · rw [if_neg hown]
    by_cases hfits : s.params.wf ∧ s.params.codeBase + 4 ≤ s.params.memBytes
    · rw [if_pos hfits]
      obtain ⟨hp, hend⟩ := hfits
      have ⟨hcode, _, hmem, _, _, _⟩ := hp
      have hpc : (BitVec.ofNat s.params.xlen s.params.codeBase).toNat = s.params.codeBase := by
        rw [BitVec.toNat_ofNat, Nat.mod_eq_of_lt (by omega)]
      refine ⟨rfl, decide_eq_true ⟨hp, ?_⟩⟩
      rw [hpc]
      exact ⟨le_refl _, hcode, hend⟩
    · rw [if_neg hfits]
      exact ⟨rfl, by simp [fetchesAtPc]⟩

/-- A word placed where one instruction fits is what the next step takes. -/
theorem fetchRequest_placed {p : Params} {t : Engine p} {w : InstrWord} {i : Instr} (n : Nat)
    (ht : fetchesAtPc t = true) (hm : memoryWf t.mem = true) (hd : decode w = .ok i) :
    fetchRequest ((withWordAtPc w t).withProgLen (max n ((t.pc.toNat - p.codeBase) / 4 + 1))) = .ok (some i) := by
  obtain ⟨⟨hcode, -, -, -, hwide, -⟩, hge, h4, hend⟩ := of_decide_eq_true ht
  have hlt : t.pc.toNat < p.memBytes := by omega
  refine fetchRequest_decoded rfl (inProgram_iff.2 ⟨hge, ?_⟩) h4 hlt ?_
  · have hmax := Nat.le_max_right n ((t.pc.toNat - p.codeBase) / 4 + 1)
    dsimp only [Engine.withProgLen, withWordAtPc]
    omega
  · exact ((congrArg decodeCell (readCell_writeCell_same _ _ hm)).trans (decodeCell_setWidth w hwide)).trans hd

/-- Settles O17: the placed state runs, does not stall, and holds the word at its pc, in the program. -/
theorem placedWordIsRunNext : Obligations.PlacedWordIsRunNext := by
  intro s nbits w i hm hd
  obtain ⟨hmem, hfits⟩ := withFetchablePc_spec s
  exact step_eq_exec rfl (fetchRequest_placed _ hfits (hmem ▸ hm) (decode_of_decodeTableWord hd))

end Sys2Proof.Machine
end

section
/-! PROOF. The end of a run whose pc has left the program (R148, R155). -/

namespace Sys2Proof.Machine

open Sys2Proof

/-- A bound on the cycles to the end of a run that fetches nothing more: the youngest record has that many latches to
pass, and each of the records above Memory may stall once, the one in Execute only if it does already. -/
def cyclesLeft {p : Params} (s : Engine p) : Nat :=
  if s.l0.instr ≠ .empty then 7 + s.stall.toNat
  else if s.l1.instr ≠ .empty then 5 + s.stall.toNat
  else if s.l2.instr ≠ .empty then 3 + s.stall.toNat
  else if s.l3.instr ≠ .empty then 2
  else 1

theorem cyclesLeft_le {p : Params} (s : Engine p) : cyclesLeft s ≤ 8 := by
  have := Bool.toNat_le s.stall
  unfold cyclesLeft
  split_ifs <;> omega

namespace Sound

variable {p : Params} {s t : Engine p}

/-- A record that has its source blocked is not Empty, and neither is the Load ahead of it (R208). -/
theorem not_empty_of_stall (hs : Sound s) (h : s.stall = true) : s.l2.instr ≠ .empty ∧ s.l3.instr ≠ .empty := by
  obtain ⟨hk, r, hr, -⟩ := hs.stall_loadUse h
  refine ⟨fun he => ?_, fun he => ?_⟩
  · rw [he] at hr; cases hr
  · rw [he] at hk; cases hk

/-- The retry of a stalled record does not stall again (R208). -/
theorem stall_cleared (hs : Sound s) (hst : s.stall = true) (h : step s.pack = .next t.pack) : t.stall = false := by
  refine Bool.eq_false_iff.2 fun ht => ?_
  obtain ⟨r, -, hb⟩ := (stallRaisedExactlyWhenBlocked p s t h).1 ht
  obtain ⟨hk, -⟩ := hs.blocked_iff.1 hb
  rw [enteringMemory, if_pos hst] at hk
  cases hk

/-- With the pc outside the program and no Jump to be decoded, a step leaves the pc and fetches nothing, so that this
stays so (R25, R172, R176). -/
theorem outside_step (hs : Sound s) (hout : inProgram p s.pc = false) (hj : targetOf p.xlen s.l0.instr = none)
    (h : step s.pack = .next t.pack) : t.pc = s.pc ∧ t.l0 = if s.stall = true then s.l0 else Latch.bubble := by
  cases hst : s.stall with
  | true =>
    obtain ⟨hpc, -, -, hl0, -⟩ := stallingCycleHasNoUpstreamEffect p s t hs hst h
    exact ⟨hpc, hl0⟩
  | false =>
    obtain ⟨hl0, -, hpc⟩ := step_takes_none hst (fetchRequest_outside hout) h
    exact ⟨hpc hj, hl0⟩

/-- Then a step either ends the run or brings its end nearer: unstalled every record moves on, and a stall, which can
only stand on two records in Execute and Memory, is cleared by the next step. -/
theorem cyclesLeft_lt (hs : Sound s) (hl0 : t.l0 = if s.stall = true then s.l0 else Latch.bubble)
    (h : step s.pack = .next t.pack) : t.done = true ∨ cyclesLeft t < cyclesLeft s := by
  obtain ⟨f, -, -, hc⟩ := step_effects h
  have hi1 := congrArg Latch.instr (cycleEffects_l1 hc)
  rw [decodeSlots_instr] at hi1
  have hi2 := cycleEffects_l2_instr hc
  have hi3 := cycleEffects_l3_instr hc
  have hi4 := congrArg Latch.instr (cycleEffects_l4 hc)
  have ht := (hs.of_step h).not_empty_of_stall
  have hdone := cycleEffects_done hc
  cases hst : s.stall with
  | true =>
    obtain ⟨h2, -⟩ := hs.not_empty_of_stall hst
    right
    simp only [enteringDecode, enteringExecute, hst, if_true] at hi1 hi2 hl0
    simp only [cyclesLeft, hl0, hi1, hi2, hs.stall_cleared hst h, hst, h2, ne_eq, not_false_iff, if_true,
      Bool.toNat_true, Bool.toNat_false]
    split_ifs <;> omega
  | false =>
    simp only [enteringDecode, enteringExecute, enteringMemory, hst, Bool.false_eq_true, if_false] at hi1 hi2 hi3 hl0
    have hbound := Bool.toNat_le t.stall
    by_cases hempty : s.l0.instr = .empty ∧ s.l1.instr = .empty ∧ s.l2.instr = .empty ∧ s.l3.instr = .empty
    · obtain ⟨h0, h1, h2, h3⟩ := hempty
      left
      rw [hdone, allEmpty_iff, hl0, hi1, hi2, hi3, hi4]
      exact ⟨rfl, h0, h1, h2, h3⟩
    · right
      simp only [cyclesLeft, hl0, hi1, hi2, hi3, hst, bubble_instr, ne_eq, not_true_eq_false, if_false,
        Bool.toNat_false]
      split_ifs with h0 h1 h2 h3
      · exact absurd ⟨h0, h1, h2, h3⟩ hempty
      all_goals omega

/-- Such a run ends, by `done` or a fault, within the cycles left. -/
theorem run_ends_outside {n : Nat} {s : Engine p} (hs : Sound s) (hout : inProgram p s.pc = false)
    (hj : targetOf p.xlen s.l0.instr = none) (hn : cyclesLeft s ≤ n) (u : State) : run n s.pack ≠ .unfinished u := by
  induction n generalizing s with
  | zero =>
    have hpos : 0 < cyclesLeft s := by unfold cyclesLeft; split_ifs <;> omega
    omega
  | succ n ih =>
    unfold run
    split
    · nofun
    · obtain ⟨-, hstep⟩ | ⟨-, c, hstep⟩ | ⟨-, t, hstep⟩ := step_outcomes s
      · simp [hstep]
      · cases c <;> simp [hstep, takeFault]
      · obtain ⟨hpc, hl0⟩ := hs.outside_step hout hj hstep
        have hj' : targetOf p.xlen t.l0.instr = none := by
          rw [hl0]
          split
          · exact hj
          · rfl
        simp only [hstep]
        obtain hd | hlt := hs.cyclesLeft_lt hl0 hstep
        · cases n <;> simp [run, hd]
        · exact ih (hs.of_step hstep) (hpc ▸ hout) hj' (by omega)

end Sound

/-- Settles O55: five latches to pass and at most three stalls. -/
theorem runEndsAfterTheProgram : Obligations.RunEndsAfterTheProgram :=
  fun _ s hs hout hj _ t => hs.run_ends_outside hout hj (cyclesLeft_le s) t

end Sys2Proof.Machine
end

section
/-! PROOF. Two programs that R270's equivalence fails on (log entry 14): a lost forward under the conditions (a) to (d),
and a stale read of which the run ends before its boundary, under all six. -/

namespace Sys2Proof.Machine

open Sys2Proof

/-! ### Runs and the states along them -/

/-- A run that ends in `done` ends in a state along it, with the flag set (R152). -/
theorem stateAfter_of_run_done {m : Nat} {s u : State} (h : run m s = .done u) :
    u.engine.done = true ∧ ∃ k, stateAfter k s = some u := by
  induction m generalizing s with
  | zero =>
    simp only [run] at h
    split at h
    · cases h; exact ⟨‹_›, 0, rfl⟩
    · cases h
  | succ m ih =>
    simp only [run] at h
    split at h
    · cases h; exact ⟨‹_›, 0, rfl⟩
    · split at h
      · rename_i t ht
        obtain ⟨hd, k, hk⟩ := ih h
        exact ⟨hd, k + 1, by simp only [stateAfter, ht, hk]⟩
      · cases h
      · cases h

/-- After a run has stopped there are no further states (R153). -/
theorem stateAfter_none_of_le {n k : Nat} {s : State} (h : stateAfter n s = none) (hk : n ≤ k) :
    stateAfter k s = none := by
  induction n generalizing k s with
  | zero => cases h
  | succ n ih =>
    obtain ⟨k, rfl⟩ : ∃ j, k = j + 1 := ⟨k - 1, by omega⟩
    cases hs : step s with
    | next t =>
      simp only [stateAfter, hs] at h ⊢
      exact ih h (by omega)
    | fault f => simp only [stateAfter, hs]
    | refused r => simp only [stateAfter, hs]

/-- A check that answers no at each of the boundaries before the run stops answers no along the run. -/
theorem neverAlong_of_stops {broken : {p : Params} → Engine p → Bool} {s : State} (n : Nat)
    (hstop : stateAfter n s = none) (h : ∀ k < n, (stateAfter k s).all (fun t => !broken t.engine) = true) :
    neverAlong broken s := by
  intro k t ht
  obtain hk | hk := Nat.lt_or_ge k n
  · simpa [ht] using h k hk
  · cases ht.symm.trans (stateAfter_none_of_le hstop hk)

/-- The final state of a reference run that has finished. -/
def finalState {n : Nat} : SeqOutcome n → Option (SeqState n)
  | .finished t => some t
  | .faulted _ => none
  | .unfinished _ => none

theorem finalState_eq_some {n : Nat} {o : SeqOutcome n} {t : SeqState n} : finalState o = some t ↔ o = .finished t := by
  cases o <;> simp [finalState]

/-! ### A lost forward -/

/-- `add r6,r0,3`, `lw r7,0(r2)`, `add r8,r7,r6`, loaded at the default parameters. -/
def lostForwardProgram : List InstrWord := [encode (.addImm 6 0 3), encode (.lw 7 2 0), encode (.add 8 7 6)]

/-- The state the load of `lostForwardProgram` makes. -/
def lostForwardLoaded : State :=
  Engine.pack (p := { progLen := 3 }) (Engine.atReset _ (zeroRegs 32)
    (writeCells [] 0x1000 (lostForwardProgram.map fun w => w.setWidth 32)))

/-- Refutes O58: the reference ends with 3 in `r8`. Along the run of `lostForwardLoaded`, which stops after ten states,
no condition of (a) to (d) is broken and `done` is never set with 3 in `r8`: the pass of the last record stops at `r7`,
and `r6`, read before its write, is not forwarded (R182). -/
theorem not_hazardFreeProgramsMatchSequentialAsWorded : ¬ Obligations.HazardFreeProgramsMatchSequentialAsWorded := by
  intro h
  have hload : loadWords {} lostForwardProgram (zeroRegs 32) [] = .ok lostForwardLoaded := rfl
  have hstop : stateAfter 10 lostForwardLoaded = none := by decide
  have hclear : neverAlong hazardOfR270 lostForwardLoaded := neverAlong_of_stops 10 hstop (by decide)
  have hwrong : neverAlong (fun e => e.done && (readReg e.x 8).toNat == 3) lostForwardLoaded :=
    neverAlong_of_stops 10 hstop (by decide)
  have hseq : (finalState (seqRun lostForwardLoaded.params 4 (seqOf lostForwardLoaded.engine))).any
      (fun t => (readReg t.x 8).toNat == 3) = true := by decide
  obtain ⟨t', ht', hr8⟩ := (Option.any_eq_true _ _).1 hseq
  obtain ⟨m, e, hrun, hx, -⟩ := h {} _ _ _ _ 4 t' hload (finalState_eq_some.1 ht') hclear
  obtain ⟨hdone, k, hk⟩ := stateAfter_of_run_done hrun
  have hbroken : (e.done && (readReg e.x 8).toNat == 3) = false := hwrong k e.pack hk
  have hdone : e.done = true := hdone
  rw [hdone, hx, hr8] at hbroken
  cases hbroken

/-! ### A stale read that no boundary shows -/

/-- `add r1,r0,0x1010`, two Empty words, `sw r0,0(r1)` and, at 0x1010, a word that is no instruction. -/
def staleStoreProgram : List InstrWord :=
  [encode (.addImm 1 0 0x1010), encode .empty, encode .empty, encode (.sw 0 1 0), 1#32]

/-- The state the load of `staleStoreProgram` makes. -/
def staleStoreLoaded : State :=
  Engine.pack (p := { progLen := 5 }) (Engine.atReset _ (zeroRegs 32)
    (writeCells [] 0x1000 (staleStoreProgram.map fun w => w.setWidth 32)))

/-- Refutes O59: the reference stores an Empty word over the illegal one before it comes to it, and finishes. In the
pipeline the store reads the stale `r1` in the very cycle whose fetch of the illegal word faults, so the run ends with no
boundary at which condition (a) shows the stale read; with the stale address the store is no pending one to the word
fetched, and none of the six conditions is broken at a boundary before. -/
theorem not_hazardFreeProgramsMatchSequential : ¬ Obligations.HazardFreeProgramsMatchSequential := by
  intro h
  have hload : loadWords {} staleStoreProgram (zeroRegs 32) [] = .ok staleStoreLoaded := rfl
  have hstop : stateAfter 5 staleStoreLoaded = none := by decide
  have hclear : neverAlong hazardOfR270 staleStoreLoaded := neverAlong_of_stops 5 hstop (by decide)
  have hkept : neverAlong lostForward staleStoreLoaded := neverAlong_of_stops 5 hstop (by decide)
  have hshadow : neverAlong shadowFault staleStoreLoaded := neverAlong_of_stops 5 hstop (by decide)
  have hrunning : neverAlong (fun e => e.done) staleStoreLoaded := neverAlong_of_stops 5 hstop (by decide)
  have hseq : (finalState (seqRun staleStoreLoaded.params 6 (seqOf staleStoreLoaded.engine))).isSome = true := by decide
  obtain ⟨t', ht'⟩ := Option.isSome_iff_exists.1 hseq
  obtain ⟨m, e, hrun, -⟩ := h {} _ _ _ _ 6 t' hload (finalState_eq_some.1 ht') hclear hkept hshadow
  obtain ⟨hdone, k, hk⟩ := stateAfter_of_run_done hrun
  cases hdone.symm.trans (hrunning k e.pack hk)

end Sys2Proof.Machine
end

section
/-! PROOF. One cycle of a pipeline that holds any records, from what Execute, Memory and Writeback each make of theirs;
and the sequential reading of an instruction as those stages in turn (R100, R178 to R184). -/

namespace Sys2Proof.Machine

open Sys2Proof

/-! ### What each stage makes of its record -/

/-- Execute makes `l'` of the record `l`, without a stall: it passes over a record without work, or computes from what
the checks leave (R178 to R181). -/
inductive Executes {n : Nat} (hq : List RegId) (l3 l4 l : Latch n) : Latch n → Prop
  | idle (hu : usesAlu l.instr = false) : Executes hq l3 l4 l l
  | computed {v1 v2 : Option (Word n)} {l' : Latch n} (hu : usesAlu l.instr = true)
      (h1 : checkSource hq l3 l4 (src1Of l.instr) l.resolvedSrc1 = .clear v1)
      (h2 : checkSource hq l3 l4 (src2Of l.instr) l.resolvedSrc2 = .clear v2)
      (hc : compute { l with resolvedSrc1 := v1, resolvedSrc2 := v2 } = .ok l') : Executes hq l3 l4 l l'

/-- Memory makes memory `m'` and the record `l'` of memory `m` and the record `l`, without a fault (R183). -/
inductive Accesses {n : Nat} (memBytes : Nat) (m : Memory) (l : Latch n) : Memory → Latch n → Prop
  | store {addr v : Word n} (hk : kindOf l.instr = .store) (h2 : l.resolvedSrc2 = some addr)
      (h1 : l.resolvedSrc1 = some v) (hf : dataAddressFault memBytes addr = none) :
      Accesses memBytes m l (writeCell m addr.toNat v) l
  | load {addr : Word n} (hk : kindOf l.instr = .load) (h1 : l.resolvedSrc1 = some addr)
      (hf : dataAddressFault memBytes addr = none) :
      Accesses memBytes m l m { l with result := some (readCell n m addr.toNat) }
  | pass (hs : writesMemory l.instr = false) (hl : readsMemory l.instr = false) : Accesses memBytes m l m l

/-- The registers after Writeback of a record (R184). -/
def written {n : Nat} (x : Regs n) (l : Latch n) : Regs n :=
  match destOf l.instr, l.result with
  | some d, some v => writeReg x d v
  | _, _ => x

section stages

variable {n : Nat} {x : Regs n} {hq : List RegId} {l l' l3 l4 : Latch n} {m m' : Memory} {k : Nat}

theorem Executes.instr_eq (h : Executes hq l3 l4 l l') : l'.instr = l.instr := by
  cases h with
  | idle => rfl
  | computed hu h1 h2 hc => simpa using compute_instr hc

theorem Accesses.instr_eq (h : Accesses k m l m' l') : l'.instr = l.instr := by cases h <;> rfl

/-- A record past Execute has, once past Memory, its result if it has a destination (R30, R183). -/
theorem Accesses.complete (h : Accesses k m l m' l') (hl : slotsExecuted l = true) : slotsComplete l' = true := by
  cases h with
  | store hk => exact complete_of_not_load hl (by rw [hk]; exact Kind.noConfusion)
  | load hk => exact complete_of_load _ hl hk
  | pass hs hr => exact complete_of_not_load hl fun hk => by simp [(readsMemory_iff _).2 hk] at hr

theorem written_of_dest {d : RegId} {v : Word n} (hd : destOf l.instr = some d) (hv : l.result = some v) :
    written x l = writeReg x d v := by
  simp only [written, hd, hv]

theorem written_of_no_dest (hd : destOf l.instr = none) : written x l = x := by
  simp only [written, hd]

@[simp] theorem written_bubble : written x Latch.bubble = x := rfl

/-- Memory passes over the bubble. -/
theorem accesses_bubble (k : Nat) (m : Memory) : Accesses k m (Latch.bubble (n := n)) m Latch.bubble :=
  .pass rfl rfl

/-- Execute passes over the bubble. -/
theorem executes_bubble (hq : List RegId) (l3 l4 : Latch n) : Executes hq l3 l4 Latch.bubble Latch.bubble :=
  .idle rfl

end stages

/-! ### The stage effects of the engine are these -/

section engine

variable {p : Params} {s : Engine p}

theorem executeEffect_of_executes {l' : Latch p.xlen} (h : Executes s.hq s.l3 s.l4 s.l2 l')
    (hdepth : s.hq.length < p.hqDepth) : executeEffect s = .ok { s with l2 := l', hq := s.hq ++ destQueue s.l2 } := by
  cases h with
  | idle hu =>
    rw [executeEffect_of_not_usesAlu hu, destQueue, destOf_of_not_usesAlu hu]
    simp
  | computed hu h1 h2 hc =>
    cases hd : destOf s.l2.instr with
    | some d => rw [executeEffect_of_clear hu h1 h2 hd hdepth hc, destQueue_of_dest hd]
    | none =>
      simp only [executeEffect, hu, h1, h2, if_true, executeFinish, hd, hc, destQueue, Option.toList_none,
        List.append_nil]

theorem memoryEffect_of_accesses {m' : Memory} {l' : Latch p.xlen} (h : Accesses p.memBytes s.mem s.l3 m' l') :
    memoryEffect s = .ok { s with mem := m', l3 := l' } := by
  generalize hl : s.l3 = l at h
  subst hl
  cases h with
  | store hk h2 h1 hf => exact memoryEffect_store hk h2 h1 hf
  | load hk h1 hf => exact memoryEffect_load hk h1 hf
  | pass hs hr => exact memoryEffect_of_no_access hs hr

/-- Writeback and retirement of a complete record whose destination the queue starts with (R147, R184). -/
theorem writeback_retire_of_complete {q : List RegId} (hl : slotsComplete s.l4 = true)
    (hq : s.hq = destQueue s.l4 ++ q) :
    ∃ s5, writebackEffect s = .ok s5 ∧ retire s5 = .ok { s with x := written s.x s.l4, hq := q } := by
  cases hd : destOf s.l4.instr with
  | none =>
    rw [destQueue, hd] at hq
    obtain rfl : s.hq = q := hq
    exact ⟨s, writebackEffect_of_no_dest hd, by rw [retire_of_no_dest hd, written_of_no_dest hd]⟩
  | some d =>
    obtain ⟨v, hv⟩ := Option.isSome_iff_exists.1 (result_of_complete hl hd)
    rw [destQueue_of_dest hd] at hq
    refine ⟨_, writebackEffect_of_dest hd hv, ?_⟩
    rw [written_of_dest hd hv]
    exact retire_of_dest (s := { s with x := writeReg s.x d v }) hd hq

/-- The late effects of a cycle, from what each stage makes of its record. -/
theorem lateEffects_of_stages {l2' l3' : Latch p.xlen} {m' : Memory} {q : List RegId}
    (hx : Executes s.hq s.l3 s.l4 s.l2 l2') (hdepth : s.hq.length < p.hqDepth)
    (hm : Accesses p.memBytes s.mem s.l3 m' l3') (hl4 : slotsComplete s.l4 = true)
    (hq : s.hq ++ destQueue s.l2 = destQueue s.l4 ++ q) :
    lateEffects s =
      .ok (closeCycle { s with l2 := l2', mem := m', l3 := l3', x := written s.x s.l4, hq := q }) := by
  have hmem : memoryEffect { s with l2 := l2', hq := s.hq ++ destQueue s.l2 } =
      .ok { s with l2 := l2', hq := s.hq ++ destQueue s.l2, mem := m', l3 := l3' } := memoryEffect_of_accesses hm
  obtain ⟨s5, h5, h6⟩ := writeback_retire_of_complete
    (s := { s with l2 := l2', hq := s.hq ++ destQueue s.l2, mem := m', l3 := l3' }) hl4 hq
  exact lateEffects_ok.2 ⟨_, _, s5, _, executeEffect_of_executes hx hdepth, hmem, h5, h6, rfl⟩

/-- The engine with these registers, this memory and this hazard queue, and all else as in `s`. -/
def Engine.withData {p : Params} (s : Engine p) (x : Regs p.xlen) (m : Memory) (q : List RegId) : Engine p :=
  { s with x := x, mem := m, hq := q }

/-- The cycle in which a running, unstalled pipeline with any records takes `j`: each record moves on by one latch, as
the stage it enters makes it. -/
theorem exec_next {n : Nat} {x : Regs p.xlen} {m m' : Memory} {q q' : List RegId}
    {l0 l1 l2 l3 l4 k2 k3 : Latch p.xlen} (j : Instr) (hr : running s = true) (hst : s.stall = false)
    (hj : targetOf p.xlen l0.instr = none) (hx : Executes q l2 l3 l1 k2) (hdepth : q.length < p.hqDepth)
    (hm : Accesses p.memBytes m l2 m' k3) (hl3 : slotsComplete l3 = true)
    (hq : q ++ destQueue l1 = destQueue l3 ++ q')
    (hne : (isEmpty j && isEmpty l0.instr && isEmpty l1.instr && isEmpty l2.instr && isEmpty l3.instr) = false) :
    exec j ((s.withData x m q).carrying n l0 l1 l2 l3 l4).pack =
      .next ((s.withData (written x l3) m' q').carrying (n + 1) (Latch.fresh j) (decodeSlots x l0) k2 k3 l3).pack := by
  obtain ⟨hdone, -⟩ : s.done = false ∧ s.fault = false := by simpa [running] using hr
  refine exec_carrying (s := s.withData x m q) (s' := s.withData (written x l3) m' q') hr hst hj ?_ ?_
  · exact lateEffects_of_stages (s := (s.withData x m q).underway (n + 1) (Latch.fresh j) (decodeSlots x l0) l1 l2 l3)
      hx hdepth hm hl3 hq
  · rw [allEmpty_underway, fresh_instr, decodeSlots_instr, hx.instr_eq, hm.instr_eq, hne]
    exact hdone.symm

end engine

/-! ### The sequential reading of an instruction -/

section sequential

variable {n k : Nat} {i : Instr} {u u' : SeqState n}

/-- Decode's slots for a fresh record are written operands, so Execute can compute from them (R30, R181). -/
theorem compute_decoded_total (x : Regs n) (i : Instr) : ∃ l, compute (decodeSlots x (Latch.fresh i)) = .ok l := by
  have hl := decodeSlots_fresh_decoded x i
  rw [slotsDecoded, Bool.and_eq_true] at hl
  exact compute_total hl.1

/-- What Execute computes from Decode's slots has the slots of a record past Execute, and the same instruction. -/
theorem computed_spec {x : Regs n} {l : Latch n} (h : compute (decodeSlots x (Latch.fresh i)) = .ok l) :
    slotsExecuted l = true ∧ l.instr = i :=
  ⟨compute_executed (decodeSlots_fresh_decoded x i) h, (compute_instr h).trans (decodeSlots_instr x _)⟩

/-- The sequential reading of an instruction with work in Execute that ends without a fault is Decode, Execute, Memory
and Writeback in turn. -/
theorem stages_of_seqExec_ok (hu : usesAlu i = true) (h : seqExec k i u = .ok u') :
    ∃ l m' l', compute (decodeSlots u.x (Latch.fresh i)) = .ok l ∧ Accesses k u.mem l m' l' ∧
      u' = { u with x := written u.x l', mem := m' } := by
  cases i with
  | empty | j => cases hu
  | lw d b off =>
    simp only [seqExec, seqLw] at h
    split at h
    · rename_i v hv
      obtain ⟨hf, rfl⟩ := memRead_ok.1 hv
      cases h
      exact ⟨_, _, _, rfl, .load rfl rfl hf, rfl⟩
    · cases h
  | sw v b off =>
    simp only [seqExec, seqSw] at h
    split at h
    · rename_i m hm
      obtain ⟨hf, rfl⟩ := memWrite_ok.1 hm
      cases h
      exact ⟨_, _, _, rfl, .store rfl rfl rfl hf, rfl⟩
    · cases h
  | _ => cases h; exact ⟨_, _, _, rfl, .pass rfl rfl, rfl⟩

/-- A sequential reading faults on the data address that Execute computes, and on nothing else (R57, R263). -/
theorem access_of_seqExec_error {c : FaultCause} (h : seqExec k i u = .error c) :
    usesAlu i = true ∧ ∃ l addr, compute (decodeSlots u.x (Latch.fresh i)) = .ok l ∧
      accessAddress l = some addr ∧ dataAddressFault k addr = some c := by
  cases i with
  | lw d b off =>
    simp only [seqExec, seqLw] at h
    split at h
    · cases h
    · cases h
      exact ⟨rfl, _, _, rfl, rfl, memRead_error.1 ‹_›⟩
  | sw v b off =>
    simp only [seqExec, seqSw] at h
    split at h
    · cases h
    · cases h
      exact ⟨rfl, _, _, rfl, rfl, memWrite_error.1 ‹_›⟩
  | _ => cases h

end sequential

end Sys2Proof.Machine
end

section
/-! PROOF. One instruction and its padding are the instruction's sequential reading (R263, R269, R270). -/

namespace Sys2Proof.Machine

open Sys2Proof

/-! ### A record alone in the pipeline, whatever is fetched behind it -/

section alone

variable {p : Params} {s : Engine p} {i : Instr} {l l' : Latch p.xlen} {m' : Memory}

namespace Quiet

/-- A quiet state has no register in flight and nothing in any latch but Writeback's. -/
theorem eq_withData (hs : Quiet s) : s = (s.withData s.x s.mem []).carrying 0 Latch.bubble Latch.bubble Latch.bubble
    Latch.bubble s.l4 := by
  conv_lhs => rw [hs.eq_carrying]
  rw [Engine.withData, ← hs.hq]

/-- With nothing in flight and every latch but Writeback's holding the bubble, a later state is quiet again. -/
theorem carrying (hs : Quiet s) (x : Regs p.xlen) (m : Memory) (n : Nat) (l4 : Latch p.xlen) :
    Quiet ((s.withData x m []).carrying n Latch.bubble Latch.bubble Latch.bubble Latch.bubble l4) :=
  ⟨hs.params_wf, hs.running, hs.stall, rfl, rfl, rfl, rfl, rfl⟩

/-- The hazard queue has room for the destinations of three records (R207). -/
theorem room (hs : Quiet s) {q : List RegId} (hq : q.length ≤ 2) : q.length < p.hqDepth := by
  obtain ⟨-, -, -, -, -, hdepth⟩ := hs.params_wf
  omega

/-- One record in flight leaves room in the queue. -/
theorem room_one (hs : Quiet s) (l : Latch p.xlen) : (destQueue l).length < p.hqDepth :=
  hs.room (Nat.le_succ_of_le (destQueue_length_le l))

end Quiet

/-- Fetched in a quiet state an instruction stands in the Fetch latch (R173). -/
theorem alone_fetched (hs : Quiet s) (hi : isEmpty i = false) : exec i s.pack =
    .next ((s.withData s.x s.mem []).carrying 1 (Latch.fresh i) Latch.bubble Latch.bubble Latch.bubble
      Latch.bubble).pack := by
  conv_lhs => rw [hs.eq_withData]
  exact exec_next i hs.running hs.stall rfl (executes_bubble _ _ _) (hs.room (Nat.zero_le 2)) (accesses_bubble _ _) rfl
    rfl (by simp [hi])

variable (j : Instr)

/-- Decode reads its operands (R174). -/
theorem alone_decoded (hs : Quiet s) (hu : usesAlu i = true) :
    exec j ((s.withData s.x s.mem []).carrying 1 (Latch.fresh i) Latch.bubble Latch.bubble Latch.bubble
        Latch.bubble).pack =
      .next ((s.withData s.x s.mem []).carrying 2 (Latch.fresh j) (decodeSlots s.x (Latch.fresh i)) Latch.bubble
        Latch.bubble Latch.bubble).pack := by
  obtain ⟨hj, hne⟩ := usesAlu_not_jump_not_empty p.xlen hu
  exact exec_next j hs.running hs.stall hj (executes_bubble _ _ _) (hs.room (Nat.zero_le 2)) (accesses_bubble _ _) rfl
    rfl (by simp [hne])

/-- With no register in flight Execute computes from the slots Decode wrote (R179). -/
theorem executes_none_pending {l3 l4 d : Latch p.xlen} (hu : usesAlu d.instr = true) (hc : compute d = .ok l) :
    Executes [] l3 l4 d l :=
  .computed hu (checkSource_nil l3 l4 _ _) (checkSource_nil l3 l4 _ _) hc

/-- Execute computes and queues the destination (R180, R181). -/
theorem alone_executed (hs : Quiet s) (hu : usesAlu i = true)
    (hc : compute (decodeSlots s.x (Latch.fresh i)) = .ok l) :
    exec j ((s.withData s.x s.mem []).carrying 2 Latch.bubble (decodeSlots s.x (Latch.fresh i)) Latch.bubble
        Latch.bubble Latch.bubble).pack =
      .next ((s.withData s.x s.mem (destQueue l)).carrying 3 (Latch.fresh j) Latch.bubble l Latch.bubble
        Latch.bubble).pack := by
  obtain ⟨-, hne⟩ := usesAlu_not_jump_not_empty p.xlen hu
  exact exec_next j hs.running hs.stall rfl (executes_none_pending (by rwa [decodeSlots_instr]) hc)
    (hs.room (Nat.zero_le 2)) (accesses_bubble _ _) rfl (destQueue_congr (compute_instr hc)).symm
    (by simp [decodeSlots_instr, hne])

/-- Memory makes its access (R183). -/
theorem alone_accessed (hs : Quiet s) (hi : isEmpty l.instr = false) (hm : Accesses p.memBytes s.mem l m' l') :
    exec j ((s.withData s.x s.mem (destQueue l)).carrying 3 Latch.bubble Latch.bubble l Latch.bubble
        Latch.bubble).pack =
      .next ((s.withData s.x m' (destQueue l)).carrying 4 (Latch.fresh j) Latch.bubble Latch.bubble l'
        Latch.bubble).pack :=
  exec_next j hs.running hs.stall rfl (executes_bubble _ _ _) (hs.room_one l) hm rfl (List.append_nil _)
    (by simp [hi])

/-- Writeback writes the destination, which leaves the queue (R147, R184). -/
theorem alone_written (hs : Quiet s) (hi : isEmpty l.instr = false) (hl : slotsExecuted l = true)
    (hm : Accesses p.memBytes s.mem l m' l') :
    exec j ((s.withData s.x m' (destQueue l)).carrying 4 Latch.bubble Latch.bubble Latch.bubble l'
        Latch.bubble).pack =
      .next ((s.withData (written s.x l') m' []).carrying 5 (Latch.fresh j) Latch.bubble Latch.bubble Latch.bubble
        l').pack :=
  exec_next j hs.running hs.stall rfl (executes_bubble _ _ _) (hs.room_one l) (accesses_bubble _ _) (hm.complete hl)
    (congrArg (· ++ []) (destQueue_congr hm.instr_eq).symm) (by simp [hm.instr_eq, hi])

end alone

/-! ### One instruction and four Empty words, fed -/

/-- Whatever the pc, an instruction that completes in its sequential reading does the same to registers and memory in
the pipeline, and leaves it quiet. -/
theorem feed_padded_ok {p : Params} {s : Engine p} {i : Instr} {u u' : SeqState p.xlen} (hs : Quiet s)
    (hi : i ≠ .empty) (hx : u.x = s.x) (hmem : u.mem = s.mem) (h : seqExec p.memBytes i u = .ok u') :
    ∃ t : Engine p, feed (i :: fourEmpties) s.pack = .next t.pack ∧ Quiet t ∧ t.x = u'.x ∧ t.mem = u'.mem := by
  have hne : isEmpty i = false := Bool.eq_false_iff.2 fun he => hi ((isEmpty_iff i).1 he)
  cases hu : usesAlu i with
  | true =>
    obtain ⟨l, m', l', hc, hm, rfl⟩ := stages_of_seqExec_ok hu h
    rw [hx] at hc
    rw [hmem] at hm
    obtain ⟨hl, hil⟩ := computed_spec hc
    have hnel : isEmpty l.instr = false := by rw [hil, hne]
    refine ⟨_, ?_, hs.carrying (written s.x l') m' 5 l', by rw [hx]; rfl, rfl⟩
    rw [feed_cons (alone_fetched hs hne), fourEmpties, feed_cons (alone_decoded .empty hs hu), fresh_empty,
      feed_cons (alone_executed .empty hs hu hc), fresh_empty, feed_cons (alone_accessed .empty hs hnel hm),
      fresh_empty, feed_cons (alone_written .empty hs hnel hl hm)]
    rfl
  | false =>
    obtain ⟨v, rfl⟩ : ∃ v, i = .j v := by
      cases i with
      | empty => exact absurd rfl hi
      | j v => exact ⟨v, rfl⟩
      | _ => cases hu
    cases h
    have hjump := cycle_jump (s := s.carrying 1 (Latch.fresh (.j v)) Latch.bubble Latch.bubble Latch.bubble
      Latch.bubble) (some .empty) hs.running hs.stall rfl rfl rfl rfl
    have hrunning := running_closeCycle_jumping (s := s.carrying 1 (Latch.fresh (.j v)) Latch.bubble Latch.bubble
      Latch.bubble Latch.bubble) (literalWord p.xlen v) (some .empty) hs.running rfl
    rw [← exec_eq_cycle] at hjump
    refine ⟨_, (feed_cons (jump_fetched hs)).trans ((feed_cons hjump).trans
      (jump_drains hrunning hs.stall rfl rfl rfl rfl)), ?_, hx.symm, hmem.symm⟩
    exact ⟨hs.params_wf, hrunning, hs.stall, rfl, rfl, rfl, rfl, hs.hq⟩

/-- A feed stops at the first fault. -/
theorem feed_append_fault {is js : List Instr} {s : State} {f : Fault} (h : feed is s = .fault f) :
    feed (is ++ js) s = .fault f := by
  induction is generalizing s with
  | nil => cases h
  | cons i is ih =>
    simp only [feed] at h
    simp only [List.cons_append, feed]
    split at h
    · exact ih h
    · exact h
    · exact h

/-- An instruction that faults in its sequential reading faults with the same cause in the pipeline, in its Memory
cycle. -/
theorem feed_padded_error {p : Params} {s : Engine p} {i : Instr} {u : SeqState p.xlen} {c : FaultCause} (hs : Quiet s)
    (hx : u.x = s.x) (h : seqExec p.memBytes i u = .error c) :
    ∃ v : Engine p, feed (i :: fourEmpties) s.pack = takeFault c v := by
  obtain ⟨hu, l, addr, hc, ha, hf⟩ := access_of_seqExec_error h
  rw [hx] at hc
  obtain ⟨hl, hil⟩ := computed_spec hc
  rw [slotsExecuted, Bool.and_eq_true] at hl
  obtain ⟨hj, hne⟩ := usesAlu_not_jump_not_empty p.xlen hu
  have hfault : exec .empty ((s.withData s.x s.mem (destQueue l)).carrying 3 Latch.bubble Latch.bubble l Latch.bubble
      Latch.bubble).pack = takeFault c _ :=
    exec_access_fault (s := s.withData s.x s.mem (destQueue l)) hs.running hs.stall hl.1 ha hf
  obtain ⟨f, hf, -⟩ := takeFault_stopped c ((s.withData s.x s.mem (destQueue l)).carrying 3 Latch.bubble Latch.bubble l
    Latch.bubble Latch.bubble)
  refine ⟨(s.withData s.x s.mem (destQueue l)).carrying 3 Latch.bubble Latch.bubble l Latch.bubble Latch.bubble, ?_⟩
  rw [feed_cons (alone_fetched hs hne), fourEmpties, feed_cons (alone_decoded .empty hs hu), fresh_empty,
    feed_cons (alone_executed .empty hs hu hc), fresh_empty]
  simp only [feed, hfault, hf]

/-! ### A padded sequence -/

theorem padded_cons (i : Instr) (is : List Instr) : padded (i :: is) = (i :: fourEmpties) ++ padded is := rfl

/-- Settles O56, by induction on the instructions: each with its padding takes a quiet state to a quiet one with the
registers and memory of its sequential reading, or faults as that does. The pc the reading works on is free. -/
theorem paddedPipelineMatchesSequentialReference : Obligations.PaddedPipelineMatchesSequentialReference := by
  intro p is s hs hne
  suffices hall : ∀ (u : SeqState p.xlen) (s : Engine p), Quiet s → u.x = s.x → u.mem = s.mem →
      (∀ t', seqFeed p.memBytes is u = .ok t' →
        ∃ t : Engine p, feed (padded is) s.pack = .next t.pack ∧ Quiet t ∧ t.x = t'.x ∧ t.mem = t'.mem) ∧
      (∀ c, seqFeed p.memBytes is u = .error c → ∃ v : Engine p, feed (padded is) s.pack = takeFault c v) from
    hall (seqOf s) s hs rfl rfl
  clear hs s
  induction is with
  | nil =>
    intro u s hs hx hmem
    refine ⟨fun t' h => ?_, fun c h => by cases h⟩
    cases h
    exact ⟨s, rfl, hs, hx.symm, hmem.symm⟩
  | cons i is ih =>
    intro u s hs hx hmem
    rw [padded_cons]
    cases hi : seqExec p.memBytes i u with
    | ok u' =>
      obtain ⟨t, hfeed, ht, htx, htm⟩ := feed_padded_ok hs (hne i (by simp)) hx hmem hi
      rw [feed_append hfeed]
      simp only [seqFeed, hi]
      exact ih (fun k hk => hne k (by simp [hk])) u' t ht htx.symm htm.symm
    | error c =>
      have hstop : seqFeed p.memBytes (i :: is) u = .error c := by simp only [seqFeed, hi]
      refine ⟨fun t' h => (by cases hstop.symm.trans h), fun c' h => ?_⟩
      obtain rfl : c = c' := Except.error.inj (hstop.symm.trans h)
      obtain ⟨v, hv⟩ := feed_padded_error hs hx hi
      obtain ⟨f, hf, -⟩ := takeFault_stopped c v
      exact ⟨v, (feed_append_fault (hv.trans hf)).trans hf.symm⟩

end Sys2Proof.Machine
end

section
/-! PROOF. Five cycles of an instruction and its padding in memory are its turns of the sequential reference (R263,
R269, R270). -/

namespace Sys2Proof.Machine

open Sys2Proof

/-! ### Turns of the reference that take Empty words -/

section turns

variable {p : Params} {t u v : SeqState p.xlen} {n : Nat}

/-- A turn more from the front. -/
theorem seqRun_succ (h : seqStep p t = .ok (some u)) : seqRun p (n + 1) t = seqRun p n u := by
  simp only [seqRun, h]

/-- A turn that takes an Empty word only moves the pc (R131). -/
theorem seqStep_empty (h : fetchWord p t.mem t.pc = .ok (some .empty)) :
    seqStep p t = .ok (some { t with pc := t.pc + 4#p.xlen }) := by
  simp only [seqStep, h, seqExec]

/-- As long as the turns take Empty words, only the pc moves. -/
theorem seqRun_empties (h : ∀ k < n, fetchWord p t.mem (t.pc + BitVec.ofNat p.xlen (4 * k)) = .ok (some .empty)) :
    seqRun p n t = .unfinished { t with pc := t.pc + BitVec.ofNat p.xlen (4 * n) } := by
  induction n generalizing t with
  | zero => simp [seqRun]
  | succ n ih =>
    have hfirst : fetchWord p t.mem t.pc = .ok (some .empty) := by simpa using h 0 (Nat.succ_pos n)
    have hpc : ∀ k, t.pc + 4#p.xlen + BitVec.ofNat p.xlen (4 * k) = t.pc + BitVec.ofNat p.xlen (4 * (k + 1)) :=
      fun k => by rw [BitVec.add_assoc, ofNat_add_ofNat, Nat.mul_succ, Nat.add_comm]
    rw [seqRun_succ (seqStep_empty hfirst), ih fun k hk => by rw [hpc]; exact h (k + 1) (Nat.succ_lt_succ hk)]
    simp only [hpc]

/-- If a run's every unfinished turn takes an Empty word, so do all of them, one after the other. -/
theorem empties_of_turns (h : ∀ k u, k < n → seqRun p k t = .unfinished u →
      fetchWord p u.mem u.pc = .ok (some .empty)) :
    ∀ k < n, fetchWord p t.mem (t.pc + BitVec.ofNat p.xlen (4 * k)) = .ok (some .empty) := by
  intro k
  induction k using Nat.strong_induction_on with
  | _ k ih => exact fun hk => h k _ hk (seqRun_empties fun j hj => ih j hj (hj.trans hk))

end turns

/-- The reference's turns of an instruction and its padding: the sequential reading, then Empty words in both
memories. -/
theorem turns_of_padding {p : Params} {s : Engine p} {i : Instr} {n : Nat} {t' : SeqState p.xlen}
    (hfetch : fetchWord p s.mem s.pc = .ok (some i))
    (hpad : ∀ k u, 1 ≤ k → k < n + 1 → seqRun p k (seqOf s) = .unfinished u →
      fetchWord p u.mem u.pc = .ok (some .empty) ∧ fetchWord p s.mem u.pc = .ok (some .empty))
    (hrun : seqRun p (n + 1) (seqOf s) = .unfinished t') :
    ∃ u, seqExec p.memBytes i { seqOf s with pc := s.pc + 4#p.xlen } = .ok u ∧
      t' = { u with pc := u.pc + BitVec.ofNat p.xlen (4 * n) } ∧
      ∀ k < n, fetchWord p u.mem (u.pc + BitVec.ofNat p.xlen (4 * k)) = .ok (some .empty) ∧
        fetchWord p s.mem (u.pc + BitVec.ofNat p.xlen (4 * k)) = .ok (some .empty) := by
  have hfetch' : fetchWord p (seqOf s).mem (seqOf s).pc = .ok (some i) := hfetch
  cases hexec : seqExec p.memBytes i { seqOf s with pc := (seqOf s).pc + 4#p.xlen } with
  | error c => simp [seqRun, seqStep, hfetch', hexec] at hrun
  | ok u =>
    have hfirst : seqStep p (seqOf s) = .ok (some u) := by simp only [seqStep, hfetch', hexec]
    have hturns : ∀ k v, k < n → seqRun p k u = .unfinished v →
        fetchWord p v.mem v.pc = .ok (some .empty) ∧ fetchWord p s.mem v.pc = .ok (some .empty) :=
      fun k v hk hv => hpad (k + 1) v (by omega) (by omega) ((seqRun_succ hfirst).trans hv)
    have hempties := empties_of_turns fun k v hk hv => (hturns k v hk hv).1
    refine ⟨u, hexec, ?_, fun k hk => ⟨hempties k hk, ?_⟩⟩
    · rw [seqRun_succ hfirst, seqRun_empties hempties] at hrun
      exact (SeqOutcome.unfinished.inj hrun).symm
    · exact (hturns k _ hk (seqRun_empties fun j hj => hempties j (hj.trans hk))).2

/-! ### The pipeline's cycles -/

section cycles

variable {p : Params} {s : Engine p} {l0 l1 l2 l3 l4 : Latch p.xlen} {n : Nat}

/-- Such a state's step is the meaning of what Fetch takes at its pc. -/
theorem step_carrying {j : Instr} (hr : running s = true) (hst : s.stall = false)
    (hf : fetchWord p s.mem (s.pc + BitVec.ofNat p.xlen (4 * n)) = .ok (some j)) :
    step (s.carrying n l0 l1 l2 l3 l4).pack = exec j (s.carrying n l0 l1 l2 l3 l4).pack := by
  have hfetch : fetchRequest (s.carrying n l0 l1 l2 l3 l4) = .ok (some j) := by
    rw [fetchRequest, if_neg (by simp [Engine.carrying, hst])]
    exact hf
  exact step_eq_exec hr hfetch

theorem stateAfter_succ {s t : State} (h : step s = .next t) : stateAfter (n + 1) s = stateAfter n t := by
  simp only [stateAfter, h]

/-- The step of a quiet state is the meaning of what Fetch takes. -/
theorem Quiet.step_eq_exec {i : Instr} (hs : Quiet s) (hf : fetchWord p s.mem s.pc = .ok (some i)) :
    step s.pack = exec i s.pack :=
  Machine.step_eq_exec hs.running (by rw [fetchRequest, hs.stall]; exact hf)

end cycles

/-- The five cycles of an instruction with work in Execute, and Empty words where they fetch: the fifth fetches from the
memory that the instruction leaves. -/
theorem stateAfter_alone {p : Params} {s : Engine p} {i : Instr} {l l' : Latch p.xlen} {m' : Memory} (hs : Quiet s)
    (hu : usesAlu i = true) (hc : compute (decodeSlots s.x (Latch.fresh i)) = .ok l)
    (hm : Accesses p.memBytes s.mem l m' l') (hfetch : fetchWord p s.mem s.pc = .ok (some i))
    (hpad : ∀ k < 4, fetchWord p m' (s.pc + 4#p.xlen + BitVec.ofNat p.xlen (4 * k)) = .ok (some .empty) ∧
      fetchWord p s.mem (s.pc + 4#p.xlen + BitVec.ofNat p.xlen (4 * k)) = .ok (some .empty)) :
    stateAfter 5 s.pack = some ((s.withData (written s.x l') m' []).carrying 5 Latch.bubble Latch.bubble Latch.bubble
      Latch.bubble l').pack := by
  obtain ⟨-, hne⟩ := usesAlu_not_jump_not_empty p.xlen hu
  obtain ⟨hl, hil⟩ := computed_spec hc
  have hnel : isEmpty l.instr = false := by rw [hil, hne]
  have hpc : ∀ k, s.pc + 4#p.xlen + BitVec.ofNat p.xlen (4 * k) = s.pc + BitVec.ofNat p.xlen (4 * (k + 1)) :=
    fun k => by rw [BitVec.add_assoc, ofNat_add_ofNat, Nat.mul_succ, Nat.add_comm]
  have hold : ∀ k < 4, fetchWord p s.mem (s.pc + BitVec.ofNat p.xlen (4 * (k + 1))) = .ok (some .empty) :=
    fun k hk => hpc k ▸ (hpad k hk).2
  have hnew : fetchWord p m' (s.pc + BitVec.ofNat p.xlen (4 * (3 + 1))) = .ok (some .empty) :=
    hpc 3 ▸ (hpad 3 (by omega)).1
  have h1 := (hs.step_eq_exec hfetch).trans (alone_fetched hs hne)
  have h2 := (step_carrying (s := s.withData s.x s.mem []) hs.running hs.stall (hold 0 (by omega))).trans
    (alone_decoded .empty hs hu)
  have h3 := (step_carrying (s := s.withData s.x s.mem []) hs.running hs.stall (hold 1 (by omega))).trans
    (alone_executed .empty hs hu hc)
  have h4 := (step_carrying (s := s.withData s.x s.mem (destQueue l)) hs.running hs.stall (hold 2 (by omega))).trans
    (alone_accessed .empty hs hnel hm)
  have h5 := (step_carrying (s := s.withData s.x m' (destQueue l)) hs.running hs.stall hnew).trans
    (alone_written .empty hs hnel hl hm)
  exact (stateAfter_succ h1).trans ((stateAfter_succ h2).trans ((stateAfter_succ h3).trans
    ((stateAfter_succ h4).trans (stateAfter_succ h5))))

/-- The state after the cycle in which a Jump fetched from a quiet state is in Decode, whatever Fetch takes then. -/
def afterJump {p : Params} (s : Engine p) (v : Int) (discarded : Option Instr) : Engine p :=
  closeCycle (((s.withData s.x s.mem []).carrying 1 (Latch.fresh (.j v)) Latch.bubble Latch.bubble Latch.bubble
    Latch.bubble).jumping (literalWord p.xlen v) discarded)

/-- The five cycles of a Jump and what they fetch: the word behind it, and Empty words at its target. -/
theorem stateAfter_jump {p : Params} {s : Engine p} {v : Int} {f : Option Instr} (hs : Quiet s)
    (hfetch : fetchWord p s.mem s.pc = .ok (some (.j v))) (hshadow : fetchWord p s.mem (s.pc + 4#p.xlen) = .ok f)
    (hpad : ∀ k < 3, fetchWord p s.mem (literalWord p.xlen v + BitVec.ofNat p.xlen (4 * k)) = .ok (some .empty)) :
    stateAfter 5 s.pack = some (((afterJump s v f).withData s.x s.mem []).carrying 3 Latch.bubble Latch.bubble
      Latch.bubble Latch.bubble (Latch.fresh (.j v))).pack ∧ running (afterJump s v f) = true := by
  have hr : running (afterJump s v f) = true := running_closeCycle_jumping _ f hs.running rfl
  have hst : (afterJump s v f).stall = false := hs.stall
  have hroom : [].length < p.hqDepth := hs.room (Nat.zero_le 2)
  have h1 := (hs.step_eq_exec hfetch).trans (alone_fetched hs rfl)
  have hfetched : fetchRequest ((s.withData s.x s.mem []).carrying 1 (Latch.fresh (.j v)) Latch.bubble Latch.bubble
      Latch.bubble Latch.bubble) = .ok f := by
    rw [fetchRequest, if_neg (by simp [Engine.carrying, Engine.withData, hs.stall])]
    exact hshadow
  have h2 := (step_eq_cycle (by exact hs.running) hfetched).trans
    (cycle_jump f (by exact hs.running) (by exact hs.stall) rfl rfl rfl rfl)
  rw [← carrying_zero (closeCycle _)] at h2
  have h3 := (step_carrying (s := (afterJump s v f).withData s.x s.mem []) (l0 := Latch.bubble)
    (l1 := Latch.fresh (.j v)) (l2 := Latch.bubble) (l3 := Latch.bubble) (l4 := Latch.bubble) hr hst
    (hpad 0 (by omega))).trans
    (exec_next .empty hr hst rfl (.idle rfl) hroom (accesses_bubble _ _) rfl rfl rfl)
  have h4 := (step_carrying (s := (afterJump s v f).withData s.x s.mem []) (l0 := Latch.bubble) (l1 := Latch.bubble)
    (l2 := Latch.fresh (.j v)) (l3 := Latch.bubble) (l4 := Latch.bubble) hr hst (hpad 1 (by omega))).trans
    (exec_next .empty hr hst rfl (executes_bubble _ _ _) hroom (.pass rfl rfl) rfl rfl rfl)
  have h5 := (step_carrying (s := (afterJump s v f).withData s.x s.mem []) (l0 := Latch.bubble) (l1 := Latch.bubble)
    (l2 := Latch.bubble) (l3 := Latch.fresh (.j v)) (l4 := Latch.bubble) hr hst (hpad 2 (by omega))).trans
    (exec_next .empty hr hst rfl (executes_bubble _ _ _) hroom (accesses_bubble _ _) rfl rfl rfl)
  exact ⟨(stateAfter_succ h1).trans ((stateAfter_succ h2).trans ((stateAfter_succ h3).trans
    ((stateAfter_succ h4).trans (stateAfter_succ h5)))), hr⟩

/-- Settles O57: the turns give the words the cycles fetch; a Jump goes through `stateAfter_jump`, any other
instruction through `stateAfter_alone`. -/
theorem fiveCyclesAreTheSequentialTurns : Obligations.FiveCyclesAreTheSequentialTurns := by
  intro p s i turns t' hs hi hfetch hturns hshadow hpad hrun
  cases hu : usesAlu i with
  | true =>
    have hk : kindOf i ≠ .jump := fun hk => by
      obtain ⟨-, -, -, -, hu'⟩ := flags_of_kind hk
      cases hu.symm.trans hu'
    rw [if_neg hk] at hturns
    subst hturns
    obtain ⟨u, hexec, rfl, hwords⟩ := turns_of_padding hfetch hpad hrun
    obtain ⟨l, m', l', hc, hm, rfl⟩ := stages_of_seqExec_ok hu hexec
    refine ⟨_, stateAfter_alone hs hu hc hm hfetch hwords, hs.carrying _ _ _ _, ?_⟩
    simp [seqOf, Engine.carrying, Engine.withData, BitVec.add_assoc, ofNat_add_ofNat]
  | false =>
    obtain ⟨v, rfl⟩ : ∃ v, i = .j v := by
      cases i with
      | empty => exact absurd rfl hi
      | j v => exact ⟨v, rfl⟩
      | _ => cases hu
    subst hturns
    obtain ⟨u, hexec, rfl, hwords⟩ := turns_of_padding (n := 3) hfetch hpad hrun
    cases hexec
    obtain ⟨f, hf⟩ := hshadow rfl
    obtain ⟨hafter, hr⟩ := stateAfter_jump hs hfetch hf fun k hk => (hwords k hk).2
    exact ⟨_, hafter, ⟨hs.params_wf, hr, hs.stall, rfl, rfl, rfl, rfl, rfl⟩, rfl⟩

end Sys2Proof.Machine
end

section
/-! PROOF. A producer and, up to four Empty words behind it, a consumer (R210, R266): what the consumer's Execute works
with at each distance, and the two of them to the end. -/

namespace Sys2Proof.Machine

open Sys2Proof

/-! ### The operands of a consumer -/

section operands

variable {n k : Nat} {x x' : Regs n} {hq : List RegId} {c : Instr} {l l' l3 l4 lc : Latch n} {m m' : Memory} {r : RegId}

/-- Where every source check answers what the register holds in `x'`, Execute computes as from the slots Decode reads
there, whatever registers Decode read before (R179, R181). -/
theorem executes_of_checks (hu : usesAlu c = true)
    (hsrc : ∀ r ∈ sourcesOf c, checkSource hq l3 l4 (some r) (some (readReg x r)) = .clear (some (readReg x' r)))
    (hc : compute (decodeSlots x' (Latch.fresh c)) = .ok lc) : Executes hq l3 l4 (decodeSlots x (Latch.fresh c)) lc := by
  cases c with
  | empty | j => cases hu
  | add d a b | sub d a b | mult d a b =>
    exact .computed hu (hsrc a (by simp [sourcesOf])) (hsrc b (by simp [sourcesOf])) hc
  | sw v b off => exact .computed hu (hsrc v (by simp [sourcesOf])) (hsrc b (by simp [sourcesOf])) hc
  | addImm d a v | subImm d a v | multImm d a v | lw d a v =>
    exact .computed hu (hsrc a (by simp [sourcesOf])) (checkSource_none hq l3 l4 _) hc

/-- Writeback changes no register but the destination (R184). -/
theorem readReg_written_ne (h : destOf l.instr ≠ some r) : readReg (written x l) r = readReg x r := by
  unfold written
  split
  · rename_i d v hd hv
    exact readReg_writeReg_ne x v fun e => h (e ▸ hd)
  · rfl

/-- With one complete record in flight, and the arbiter answering for it alone, every source has the value that the
record's Writeback leaves in its register (R202, R210). -/
theorem checkSource_in_flight (hl : slotsComplete l = true) (hf : forward l3 l4 r = candidate l r) :
    checkSource (destQueue l) l3 l4 (some r) (some (readReg x r)) = .clear (some (readReg (written x l) r)) := by
  by_cases hd : destOf l.instr = some r
  · obtain ⟨v, hv⟩ := Option.isSome_iff_exists.1 (result_of_complete hl hd)
    simp [checkSource, destQueue_of_dest hd, hf, candidate_of_dest hd, hv, written_of_dest hd hv]
  · simp [checkSource, destQueue, hd, readReg_written_ne hd]

/-- Memory keeps the record of any kind but a Load as it is (R183). -/
theorem Accesses.eq_of_not_load (h : Accesses k m l m' l') (hk : kindOf l.instr ≠ .load) : l' = l := by
  cases h with
  | store => rfl
  | load hl => exact absurd hl hk
  | pass => rfl

/-- A source of the record directly behind the one entering Memory: forwarded from there, unless that is a Load of it
(R202, R210). -/
theorem checkSource_directly_behind (hm : Accesses k m l m' l') (hl : slotsExecuted l = true)
    (hr : kindOf l.instr = .load → destOf l.instr ≠ some r) :
    checkSource (destQueue l) l Latch.bubble (some r) (some (readReg x r)) =
      .clear (some (readReg (written x l') r)) := by
  by_cases hk : kindOf l.instr = .load
  · have hd' : destOf l'.instr ≠ some r := by rw [hm.instr_eq]; exact hr hk
    rw [readReg_written_ne hd']
    simp [checkSource, destQueue, hr hk]
  · obtain rfl := hm.eq_of_not_load hk
    exact checkSource_in_flight (hm.complete hl) (by rw [forward_eq_or, candidate_bubble, Option.or_none])

end operands

/-! ### The consumer up to its Execute cycle -/

section pair

variable {p : Params} {s : Engine p} {i c : Instr} {l l' lc : Latch p.xlen} {m' : Memory}

/-- Fed the instructions `is`, the pipeline holds the record `lc`, past Execute, in the Execute latch, and ahead of it at
most a complete record whose Writeback makes the registers `x'`. -/
def ReachesExecute (s : Engine p) (is : List Instr) (n : Nat) (x' : Regs p.xlen) (m' : Memory) (lc : Latch p.xlen) :
    Prop :=
  ∃ x l3 l4, feed is s.pack = .next ((s.withData x m' (destQueue l3 ++ destQueue lc)).carrying n Latch.bubble
    Latch.bubble lc l3 l4).pack ∧ slotsComplete l3 = true ∧ written x l3 = x'

/-- A record with work in Execute moves from the Fetch latch to the Decode latch, nothing but complete records ahead of
it (R174, R184). -/
theorem consumer_decoded {n : Nat} {x : Regs p.xlen} {m : Memory} {l3 l4 : Latch p.xlen} (hs : Quiet s)
    (hu : usesAlu c = true) (hl3 : slotsComplete l3 = true) :
    exec .empty ((s.withData x m (destQueue l3)).carrying n (Latch.fresh c) Latch.bubble Latch.bubble l3 l4).pack =
      .next ((s.withData (written x l3) m []).carrying (n + 1) Latch.bubble (decodeSlots x (Latch.fresh c)) Latch.bubble
        Latch.bubble l3).pack := by
  obtain ⟨hj, hne⟩ := usesAlu_not_jump_not_empty p.xlen hu
  exact exec_next .empty hs.running hs.stall hj (executes_bubble _ _ _) (hs.room_one l3) (accesses_bubble _ _) hl3 rfl
    (by simp [hne])

/-- Decoded from the registers `x`, it passes Execute with the source checks' answers, a complete record at most ahead
of it in Memory's place (R181). -/
theorem consumer_executed {n : Nat} {x x0 x1 : Regs p.xlen} {m : Memory} {l3 l4 : Latch p.xlen} (hs : Quiet s)
    (hu : usesAlu c = true) (hl3 : slotsComplete l3 = true)
    (hsrc : ∀ r ∈ sourcesOf c, checkSource (destQueue l3) Latch.bubble l3 (some r) (some (readReg x0 r)) =
      .clear (some (readReg x1 r)))
    (hc : compute (decodeSlots x1 (Latch.fresh c)) = .ok lc) :
    exec .empty ((s.withData x m (destQueue l3)).carrying n Latch.bubble (decodeSlots x0 (Latch.fresh c)) Latch.bubble
        l3 l4).pack =
      .next ((s.withData (written x l3) m (destQueue lc)).carrying (n + 1) Latch.bubble Latch.bubble lc Latch.bubble
        l3).pack := by
  obtain ⟨-, hne⟩ := usesAlu_not_jump_not_empty p.xlen hu
  have hq : destQueue (decodeSlots x0 (Latch.fresh c)) = destQueue lc :=
    destQueue_congr ((decodeSlots_instr x0 _).trans (computed_spec hc).2.symm)
  exact exec_next .empty hs.running hs.stall rfl (executes_of_checks hu hsrc hc) (hs.room_one l3) (accesses_bubble _ _)
    hl3 (congrArg (destQueue l3 ++ ·) hq) (by simp [decodeSlots_instr, hne])

/-- With the queue empty the checks keep what Decode read. -/
theorem consumer_executed_alone {n : Nat} {x x0 : Regs p.xlen} {m : Memory} {l4 : Latch p.xlen} (hs : Quiet s)
    (hu : usesAlu c = true) (hc : compute (decodeSlots x0 (Latch.fresh c)) = .ok lc) :
    exec .empty ((s.withData x m []).carrying n Latch.bubble (decodeSlots x0 (Latch.fresh c)) Latch.bubble Latch.bubble
        l4).pack =
      .next ((s.withData x m (destQueue lc)).carrying (n + 1) Latch.bubble Latch.bubble lc Latch.bubble
        Latch.bubble).pack :=
  consumer_executed (l3 := Latch.bubble) hs hu rfl (fun _ _ => checkSource_nil _ _ _ _) hc

/-- The first three cycles with the consumer directly behind: the producer has passed Execute, the consumer Decode. -/
theorem pair_decoded (hs : Quiet s) (hui : usesAlu i = true) (huc : usesAlu c = true)
    (hc : compute (decodeSlots s.x (Latch.fresh i)) = .ok l) :
    feed [i, c, .empty] s.pack = .next ((s.withData s.x s.mem (destQueue l)).carrying 3 Latch.bubble
      (decodeSlots s.x (Latch.fresh c)) l Latch.bubble Latch.bubble).pack := by
  obtain ⟨-, hnei⟩ := usesAlu_not_jump_not_empty p.xlen hui
  obtain ⟨hjc, hnec⟩ := usesAlu_not_jump_not_empty p.xlen huc
  rw [feed_cons (alone_fetched hs hnei), feed_cons (alone_decoded c hs hui)]
  exact feed_cons (exec_next .empty hs.running hs.stall hjc (executes_none_pending (by rwa [decodeSlots_instr]) hc)
    (hs.room (Nat.zero_le 2)) (accesses_bubble _ _) rfl (destQueue_congr (compute_instr hc)).symm (by simp [hnec]))

variable (hs : Quiet s) (hui : usesAlu i = true) (huc : usesAlu c = true)
  (hi : compute (decodeSlots s.x (Latch.fresh i)) = .ok l) (hm : Accesses p.memBytes s.mem l m' l')

include hs hui huc hi hm

/-- Distance 1: the sources are forwarded from the record entering Memory. -/
theorem reaches_directly_behind (hc : compute (decodeSlots (written s.x l') (Latch.fresh c)) = .ok lc)
    (hload : kindOf i = .load → ∀ r ∈ sourcesOf c, destOf i ≠ some r) :
    ReachesExecute s [i, c, .empty, .empty] 4 (written s.x l') m' lc := by
  obtain ⟨hl, hil⟩ := computed_spec hi
  obtain ⟨-, hnec⟩ := usesAlu_not_jump_not_empty p.xlen huc
  have hq : destQueue (decodeSlots s.x (Latch.fresh c)) = destQueue lc :=
    destQueue_congr ((decodeSlots_instr s.x _).trans (computed_spec hc).2.symm)
  have hx : Executes (destQueue l) l Latch.bubble (decodeSlots s.x (Latch.fresh c)) lc :=
    executes_of_checks huc (fun r hr => checkSource_directly_behind hm hl (by rw [hil]; exact fun hk => hload hk r hr))
      hc
  refine ⟨s.x, l', Latch.bubble, ?_, hm.complete hl, rfl⟩
  rw [destQueue_congr hm.instr_eq, ← hq]
  exact (feed_append (js := [.empty]) (pair_decoded hs hui huc hi)).trans (feed_cons (exec_next .empty hs.running hs.stall
    rfl hx (hs.room_one l) hm rfl rfl (by simp [decodeSlots_instr, hnec])))

/-- Distance 2: the sources are forwarded from the record entering Writeback. -/
theorem reaches_one_between (hc : compute (decodeSlots (written s.x l') (Latch.fresh c)) = .ok lc) :
    ReachesExecute s [i, .empty, c, .empty, .empty] 5 (written s.x l') m' lc := by
  obtain ⟨hl, hil⟩ := computed_spec hi
  obtain ⟨-, hnei⟩ := usesAlu_not_jump_not_empty p.xlen hui
  obtain ⟨hjc, hnec⟩ := usesAlu_not_jump_not_empty p.xlen huc
  have hdecoded : exec .empty ((s.withData s.x s.mem (destQueue l)).carrying 3 (Latch.fresh c) Latch.bubble l
      Latch.bubble Latch.bubble).pack = .next ((s.withData s.x m' (destQueue l')).carrying 4 Latch.bubble
        (decodeSlots s.x (Latch.fresh c)) Latch.bubble l' Latch.bubble).pack := by
    rw [destQueue_congr hm.instr_eq]
    exact exec_next .empty hs.running hs.stall hjc (executes_bubble _ _ _) (hs.room_one l) hm rfl (List.append_nil _)
      (by simp [hnec])
  refine ⟨written s.x l', Latch.bubble, l', ?_, rfl, rfl⟩
  rw [feed_cons (alone_fetched hs hnei), feed_cons (alone_decoded .empty hs hui), fresh_empty,
    feed_cons (alone_executed c hs hui hi), feed_cons hdecoded]
  exact feed_cons (consumer_executed hs huc (hm.complete hl)
    (fun r _ => checkSource_in_flight (hm.complete hl) (forward_bubble_left l' r)) hc)

/-- Distance 3: Decode reads the registers in the cycle that writes them, and nothing is left to forward (R264). -/
theorem reaches_two_between (hc : compute (decodeSlots s.x (Latch.fresh c)) = .ok lc) :
    ReachesExecute s [i, .empty, .empty, c, .empty, .empty] 6 (written s.x l') m' lc := by
  obtain ⟨hl, hil⟩ := computed_spec hi
  obtain ⟨-, hnei⟩ := usesAlu_not_jump_not_empty p.xlen hui
  have hnel : isEmpty l.instr = false := by rw [hil, hnei]
  have hdecoded := consumer_decoded (n := 4) (x := s.x) (m := m') (l4 := Latch.bubble) hs huc (hm.complete hl)
  rw [destQueue_congr hm.instr_eq] at hdecoded
  refine ⟨written s.x l', Latch.bubble, Latch.bubble, ?_, rfl, rfl⟩
  rw [feed_cons (alone_fetched hs hnei), feed_cons (alone_decoded .empty hs hui), fresh_empty,
    feed_cons (alone_executed .empty hs hui hi), fresh_empty, feed_cons (alone_accessed c hs hnel hm),
    feed_cons hdecoded]
  exact feed_cons (consumer_executed_alone hs huc hc)

/-- Distance 4: Decode reads the registers the cycle after they are written. -/
theorem reaches_three_between (hc : compute (decodeSlots (written s.x l') (Latch.fresh c)) = .ok lc) :
    ReachesExecute s [i, .empty, .empty, .empty, c, .empty, .empty] 7 (written s.x l') m' lc := by
  obtain ⟨hl, hil⟩ := computed_spec hi
  obtain ⟨-, hnei⟩ := usesAlu_not_jump_not_empty p.xlen hui
  have hnel : isEmpty l.instr = false := by rw [hil, hnei]
  refine ⟨written s.x l', Latch.bubble, Latch.bubble, ?_, rfl, rfl⟩
  rw [feed_cons (alone_fetched hs hnei), feed_cons (alone_decoded .empty hs hui), fresh_empty,
    feed_cons (alone_executed .empty hs hui hi), fresh_empty, feed_cons (alone_accessed .empty hs hnel hm), fresh_empty,
    feed_cons (alone_written c hs hnel hl hm)]
  exact (feed_cons (consumer_decoded (l3 := Latch.bubble) hs huc rfl)).trans
    (feed_cons (consumer_executed_alone hs huc hc))

/-- Distance 5: the pipeline is quiet again when the consumer is fetched. -/
theorem reaches_four_between (hc : compute (decodeSlots (written s.x l') (Latch.fresh c)) = .ok lc) :
    ReachesExecute s [i, .empty, .empty, .empty, .empty, c, .empty, .empty] 8 (written s.x l') m' lc := by
  obtain ⟨hl, hil⟩ := computed_spec hi
  obtain ⟨-, hnei⟩ := usesAlu_not_jump_not_empty p.xlen hui
  obtain ⟨-, hnec⟩ := usesAlu_not_jump_not_empty p.xlen huc
  have hnel : isEmpty l.instr = false := by rw [hil, hnei]
  have hfetched : exec c ((s.withData (written s.x l') m' []).carrying 5 Latch.bubble Latch.bubble Latch.bubble
      Latch.bubble l').pack = .next ((s.withData (written s.x l') m' []).carrying 6 (Latch.fresh c) Latch.bubble
        Latch.bubble Latch.bubble Latch.bubble).pack :=
    exec_next c hs.running hs.stall rfl (executes_bubble _ _ _) (hs.room (Nat.zero_le 2)) (accesses_bubble _ _) rfl rfl
      (by simp [hnec])
  refine ⟨written s.x l', Latch.bubble, Latch.bubble, ?_, rfl, rfl⟩
  rw [feed_cons (alone_fetched hs hnei), feed_cons (alone_decoded .empty hs hui), fresh_empty,
    feed_cons (alone_executed .empty hs hui hi), fresh_empty, feed_cons (alone_accessed .empty hs hnel hm), fresh_empty,
    feed_cons (alone_written .empty hs hnel hl hm), fresh_empty, feed_cons hfetched]
  exact (feed_cons (consumer_decoded (l3 := Latch.bubble) hs huc rfl)).trans
    (feed_cons (consumer_executed_alone hs huc hc))

/-- At every distance: the consumer works with the registers as the producer leaves them, at distance 3 with those
before it, a Load's reader directly behind it excepted (R210). -/
theorem pair_reaches_execute {k : Nat} (hk : k ≤ 4)
    (hc : compute (decodeSlots (if k = 2 then s.x else written s.x l') (Latch.fresh c)) = .ok lc)
    (hload : k = 0 → kindOf i = .load → ∀ r ∈ sourcesOf c, destOf i ≠ some r) :
    ReachesExecute s (i :: (List.replicate k .empty ++ [c, .empty, .empty])) (k + 4) (written s.x l') m' lc := by
  match k, hk with
  | 0, _ => exact reaches_directly_behind hs hui huc hi hm hc (hload rfl)
  | 1, _ => exact reaches_one_between hs hui huc hi hm hc
  | 2, _ => exact reaches_two_between hs hui huc hi hm hc
  | 3, _ => exact reaches_three_between hs hui huc hi hm hc
  | 4, _ => exact reaches_four_between hs hui huc hi hm hc

end pair

end Sys2Proof.Machine
end

section
/-! PROOF. The load-use stall with its retry (R208, R266), and the litmus statements about a producer and a consumer
(R125, R210, R266). -/

namespace Sys2Proof.Machine

open Sys2Proof

/-! ### The consumer's last two cycles -/

/-- A record past Execute, with at most a complete one ahead of it, is accessed and written by two more cycles. -/
theorem executed_drains {p : Params} {s : Engine p} {n : Nat} {x : Regs p.xlen} {m m' : Memory}
    {l l' l3 l4 : Latch p.xlen} (hp : p.wf) (hr : running s = true) (hst : s.stall = false)
    (hne : isEmpty l.instr = false) (hl : slotsExecuted l = true) (hm : Accesses p.memBytes m l m' l')
    (hl3 : slotsComplete l3 = true) :
    feed [.empty, .empty] ((s.withData x m (destQueue l3 ++ destQueue l)).carrying n Latch.bubble Latch.bubble l l3
        l4).pack =
      .next ((s.withData (written (written x l3) l') m' []).carrying (n + 2) Latch.bubble Latch.bubble Latch.bubble
        Latch.bubble l').pack := by
  obtain ⟨-, -, -, -, -, hdepth⟩ := hp
  have h3 := destQueue_length_le l3
  have h := destQueue_length_le l
  have haccessed : exec .empty ((s.withData x m (destQueue l3 ++ destQueue l)).carrying n Latch.bubble Latch.bubble l l3
      l4).pack = .next ((s.withData (written x l3) m' (destQueue l)).carrying (n + 1) Latch.bubble Latch.bubble
        Latch.bubble l' l3).pack :=
    exec_next .empty hr hst rfl (executes_bubble _ _ _) (by rw [List.length_append]; omega) hm hl3
      (List.append_nil _) (by simp [hne])
  have hwritten : exec .empty ((s.withData (written x l3) m' (destQueue l)).carrying (n + 1) Latch.bubble Latch.bubble
      Latch.bubble l' l3).pack = .next ((s.withData (written (written x l3) l') m' []).carrying (n + 2) Latch.bubble
        Latch.bubble Latch.bubble Latch.bubble l').pack :=
    exec_next .empty hr hst rfl (executes_bubble _ _ _) (by omega) (accesses_bubble _ _) (hm.complete hl)
      (congrArg (· ++ []) (destQueue_congr hm.instr_eq).symm) (by simp [hm.instr_eq, hne])
  rw [feed_cons haccessed, feed_cons hwritten]
  rfl

/-- A consumer that reaches Execute behind its producer ends with its own access and write. -/
theorem ReachesExecute.drains {p : Params} {s : Engine p} {is : List Instr} {n : Nat} {x : Regs p.xlen}
    {m m' : Memory} {l l' : Latch p.xlen} (h : ReachesExecute s is n x m l) (hs : Quiet s)
    (hne : isEmpty l.instr = false) (hl : slotsExecuted l = true) (hm : Accesses p.memBytes m l m' l') :
    feed (is ++ [.empty, .empty]) s.pack = .next ((s.withData (written x l') m' []).carrying (n + 2) Latch.bubble
      Latch.bubble Latch.bubble Latch.bubble l').pack := by
  obtain ⟨x3, l3, l4, hfeed, hl3, rfl⟩ := h
  rw [feed_append hfeed]
  exact executed_drains hs.params_wf hs.running hs.stall hne hl hm hl3

/-- The fed list of a pair to the end of both is the list to the consumer's Execute and two Empty words more. -/
theorem pair_append (i c : Instr) (k : Nat) : i :: (List.replicate k .empty ++ c :: fourEmpties) =
    (i :: (List.replicate k .empty ++ [c, .empty, .empty])) ++ [.empty, .empty] := by
  simp [fourEmpties]

/-- Settles O36: the pair reaches Execute at every distance, the `sub` has its difference there, and it drains. -/
theorem arithmeticForwardingByDistance : Obligations.ArithmeticForwardingByDistance := by
  intro d a b e k p s hk hs
  obtain ⟨lc, hc⟩ := compute_decoded_total
    (if k = 2 then s.x else writeReg s.x d (readReg s.x a + readReg s.x b)) (.sub e d b)
  have hreach := pair_reaches_execute (i := .add d a b) (c := .sub e d b) hs rfl rfl rfl (.pass rfl rfl) hk hc
    fun _ hload => Kind.noConfusion hload
  obtain ⟨hl, hil⟩ := computed_spec hc
  have hdrain := hreach.drains hs (by rw [hil]; rfl) hl (.pass (by rw [hil]; rfl) (by rw [hil]; rfl))
  rw [← pair_append] at hdrain
  refine ⟨_, hdrain, ?_, rfl, rfl⟩
  cases hc
  by_cases h2 : k = 2
  · subst h2; rfl
  · simp only [h2, if_false]
    change writeReg _ e (subResult (readReg (writeReg s.x d _) d) _) = _
    rw [readReg_writeReg_same]
    rfl

/-- Settles O39: the store's access leaves the registers, so that the load behind it computes the same address, of the
cell the store has written. -/
theorem storeThenLoadRoundTrip : Obligations.StoreThenLoadRoundTrip := by
  intro v base d off k p s hk hs hwf hf
  have hc : compute (decodeSlots (if k = 2 then s.x else s.x) (Latch.fresh (.lw d base off))) =
      .ok ⟨.lw d base off, some (readReg s.x base + literalWord p.xlen off), none, none⟩ := by rw [ite_self]; rfl
  have hreach := pair_reaches_execute (i := .sw v base off) (c := .lw d base off) hs rfl rfl rfl
    (.store rfl rfl rfl hf) hk hc fun _ hload => Kind.noConfusion hload
  have hdrain := hreach.drains hs rfl rfl (.load rfl rfl hf)
  rw [← pair_append] at hdrain
  refine ⟨_, hdrain, ?_, rfl⟩
  exact congrArg (writeReg s.x d) (readCell_writeCell_same _ (readReg s.x v) hwf)

/-! ### The cycle that raises the stall -/

/-- The engine with the stall flag raised (R33). -/
def Engine.stalling {p : Params} (s : Engine p) : Engine p := { s with stall := true }

/-- The engine with one cycle more on the cycle counter, which a stalled cycle adds without a fetch (R34). -/
def Engine.delayed {p : Params} (s : Engine p) : Engine p := { s with cycle := s.cycle + 1#p.ctrW }

section loadUse

variable {p : Params} {s : Engine p} {d : RegId}

/-- With one register in flight and no result for it yet, a record that reads it stalls and keeps its slots: no other
source is in the queue (R182, R204). -/
theorem executeEffect_loadUse (hq : s.hq = [d]) (hf : forward s.l3 s.l4 d = none) (hd : d ∈ sourcesOf s.l2.instr) :
    executeEffect s = .ok s.stalling := by
  have hu := usesAlu_of_mem_sourcesOf hd
  have hstalled : ∀ slot, checkSource s.hq s.l3 s.l4 (some d) slot = .stalled := fun slot =>
    checkSource_stalled.2 ⟨d, rfl, by simp [hq], hf⟩
  by_cases h1 : src1Of s.l2.instr = some d
  · simp only [executeEffect, hu, h1, hstalled, if_true]
    rfl
  · have h2 : src2Of s.l2.instr = some d := (mem_sourcesOf.1 hd).resolve_left h1
    have hclear : checkSource s.hq s.l3 s.l4 (src1Of s.l2.instr) s.l2.resolvedSrc1 = .clear s.l2.resolvedSrc1 := by
      cases hs1 : src1Of s.l2.instr with
      | none => rfl
      | some r =>
        have hne : r ≠ d := fun e => h1 (by rw [hs1, e])
        simp [checkSource, hq, hne]
    simp only [executeEffect, hu, hclear, h2, hstalled, if_true]
    rfl

variable {c : Instr} {l l' lc : Latch p.xlen} {m' : Memory}

/-- Directly behind a Load of one of its sources the consumer raises the stall, in the Load's Memory cycle (R208). -/
theorem loadUse_stalls (hs : Quiet s) (huc : usesAlu c = true) (hk : kindOf l.instr = .load)
    (hl : slotsExecuted l = true) (hdl : destOf l.instr = some d) (hd : d ∈ sourcesOf c)
    (hm : Accesses p.memBytes s.mem l m' l') :
    exec .empty ((s.withData s.x s.mem (destQueue l)).carrying 3 Latch.bubble (decodeSlots s.x (Latch.fresh c)) l
        Latch.bubble Latch.bubble).pack =
      .next ((s.withData s.x m' (destQueue l)).stalling.carrying 4 Latch.bubble Latch.bubble
        (decodeSlots s.x (Latch.fresh c)) l' Latch.bubble).pack := by
  obtain ⟨-, hnec⟩ := usesAlu_not_jump_not_empty p.xlen huc
  obtain ⟨hdone, -⟩ : s.done = false ∧ s.fault = false := by simpa [running] using hs.running
  have hnone : l.result = none := by
    rw [← Option.not_isSome_iff_eq_none, result_of_executed hl, hk]
    exact Kind.noConfusion
  have hforward : forward l Latch.bubble d = none := by
    rw [forward_eq_or, candidate_of_dest hdl, hnone, candidate_bubble, Option.or_none]
  have hexecute := executeEffect_loadUse (d := d)
    (s := (s.withData s.x s.mem (destQueue l)).underway 4 Latch.bubble Latch.bubble (decodeSlots s.x (Latch.fresh c)) l
      Latch.bubble) (destQueue_of_dest hdl) hforward (by simpa [Engine.underway, Engine.carrying, decodeSlots_instr])
  have hmemory := memoryEffect_of_accesses
    (s := ((s.withData s.x s.mem (destQueue l)).underway 4 Latch.bubble Latch.bubble
      (decodeSlots s.x (Latch.fresh c)) l Latch.bubble).stalling) hm
  refine exec_carrying (s := s.withData s.x s.mem (destQueue l))
    (s' := (s.withData s.x m' (destQueue l)).stalling) hs.running hs.stall rfl ?_ ?_
  · exact lateEffects_ok.2 ⟨_, _, _, _, hexecute, hmemory, writebackEffect_of_no_dest rfl, retire_of_no_dest rfl, rfl⟩
  · rw [allEmpty_underway]
    simp [decodeSlots_instr, hnec, Engine.stalling, Engine.withData, hdone]

/-! ### The cycle that stalls -/

/-- In a stalling cycle the record in Execute is retried with a bubble ahead of it and the Load in Writeback; nothing is
fetched, whatever instruction the cycle is given (R144, R172, R208). -/
theorem loadUse_retries {n : Nat} {x x' : Regs p.xlen} {m : Memory} {l4 : Latch p.xlen} (j : Instr) (hs : Quiet s)
    (huc : usesAlu c = true) (hl : slotsComplete l = true)
    (hsrc : ∀ r ∈ sourcesOf c, checkSource (destQueue l) Latch.bubble l (some r) (some (readReg x r)) =
      .clear (some (readReg x' r)))
    (hc : compute (decodeSlots x' (Latch.fresh c)) = .ok lc) :
    exec j ((s.withData x m (destQueue l)).stalling.carrying n Latch.bubble Latch.bubble
        (decodeSlots x (Latch.fresh c)) l l4).pack =
      .next ((s.delayed.withData (written x l) m (destQueue lc)).carrying n Latch.bubble Latch.bubble lc Latch.bubble
        l).pack := by
  obtain ⟨hdone, -⟩ : s.done = false ∧ s.fault = false := by simpa [running] using hs.running
  obtain ⟨-, hnec⟩ := usesAlu_not_jump_not_empty p.xlen huc
  obtain ⟨-, hic⟩ := computed_spec hc
  have hq : destQueue (decodeSlots x (Latch.fresh c)) = destQueue lc :=
    destQueue_congr ((decodeSlots_instr x _).trans hic.symm)
  have hearly : earlyEffects (some j) ((s.withData x m (destQueue l)).stalling.carrying n Latch.bubble Latch.bubble
      (decodeSlots x (Latch.fresh c)) l l4) = (s.withData x m (destQueue l)).carrying n Latch.bubble Latch.bubble
        (decodeSlots x (Latch.fresh c)) Latch.bubble l := by
    simp [earlyEffects, advance, fetchEffect, decodeEffect, decodeSlots, Engine.stalling, Engine.carrying,
      Engine.withData, hs.stall]
  rw [exec_eq_cycle]
  refine cycle_pack.2 ⟨hs.running, ?_⟩
  rw [hearly]
  refine (lateEffects_of_stages (s := (s.withData x m (destQueue l)).carrying n Latch.bubble Latch.bubble
    (decodeSlots x (Latch.fresh c)) Latch.bubble l) (executes_of_checks huc hsrc hc) (hs.room_one l)
    (accesses_bubble _ _) hl (congrArg (destQueue l ++ ·) hq)).trans (congrArg Except.ok ?_)
  simp [closeCycle, allEmpty, Engine.carrying, Engine.withData, Engine.delayed, hic, hnec, hdone, BitVec.add_assoc]
  ac_rfl

end loadUse

/-! ### The two statements about a load and its reader -/

/-- The consumer directly behind a Load of one of its sources: the state that the stall is raised in, and the one after
the retry, in which the consumer has computed with the loaded value (R208, R266). -/
theorem loadUse_pair {p : Params} {s : Engine p} {i c : Instr} {d : RegId} {l l' lc : Latch p.xlen} {m' : Memory}
    (hs : Quiet s) (huc : usesAlu c = true) (hk : kindOf i = .load) (hdi : destOf i = some d) (hd : d ∈ sourcesOf c)
    (hi : compute (decodeSlots s.x (Latch.fresh i)) = .ok l) (hm : Accesses p.memBytes s.mem l m' l')
    (hc : compute (decodeSlots (written s.x l') (Latch.fresh c)) = .ok lc) :
    feed [i, c, .empty, .empty] s.pack = .next ((s.withData s.x m' (destQueue l)).stalling.carrying 4 Latch.bubble
      Latch.bubble (decodeSlots s.x (Latch.fresh c)) l' Latch.bubble).pack ∧
    exec .empty ((s.withData s.x m' (destQueue l)).stalling.carrying 4 Latch.bubble Latch.bubble
        (decodeSlots s.x (Latch.fresh c)) l' Latch.bubble).pack =
      .next ((s.delayed.withData (written s.x l') m' (destQueue lc)).carrying 4 Latch.bubble Latch.bubble lc
        Latch.bubble l').pack := by
  obtain ⟨hl, hil⟩ := computed_spec hi
  obtain ⟨-, -, -, -, hui⟩ := flags_of_kind hk
  constructor
  · exact (feed_append (js := [.empty]) (pair_decoded hs hui huc hi)).trans
      (feed_cons (loadUse_stalls hs huc (hil ▸ hk) hl (hil ▸ hdi) hd hm))
  · rw [← destQueue_congr hm.instr_eq]
    exact loadUse_retries .empty hs huc (hm.complete hl)
      (fun r _ => checkSource_in_flight (hm.complete hl) (forward_bubble_left l' r)) hc

/-- Settles O35: a consumer of a Load directly ahead goes through `loadUse_pair`, every other through
`pair_reaches_execute`. -/
theorem producerReachesConsumerByDistance : Obligations.ProducerReachesConsumerByDistance := by
  intro p i c k s t' hk hs hwi hrc hexec
  have hui : usesAlu i = true := Bool.eq_true_of_not_eq_false fun hn => by
    rw [← destOf_isSome, destOf_of_not_usesAlu hn] at hwi
    cases hwi
  have huc : usesAlu c = true := (usesAlu_eq_readsRegisters c).trans hrc
  obtain ⟨l, m', l', hi, hm, rfl⟩ := stages_of_seqExec_ok hui hexec
  by_cases hload : k = 0 ∧ kindOf i = .load ∧ ∃ r ∈ sourcesOf c, destOf i = some r
  · simp only [if_pos hload]
    obtain ⟨rfl, hkind, d, hd, hdi⟩ := hload
    obtain ⟨lc, hc⟩ := compute_decoded_total (written s.x l') c
    obtain ⟨hstall, hretry⟩ := loadUse_pair hs huc hkind hdi hd hi hm hc
    exact ⟨_, hstall, rfl, _, hretry, hs.stall, rfl, rfl, hc⟩
  · simp only [if_neg hload]
    obtain ⟨lc, hc⟩ := compute_decoded_total (if k = 2 then s.x else written s.x l') c
    obtain ⟨x, l3, l4, hfeed, -, -⟩ := pair_reaches_execute hs hui huc hi hm hk hc
      fun hk0 hkind r hr hdi => hload ⟨hk0, hkind, r, hr, hdi⟩
    exact ⟨_, hfeed, hs.stall, hc⟩

/-- Settles O37: the pair's stall and retry, and then the `add` drains with the loaded value in its sum. -/
theorem loadUseCostsOneCycle : Obligations.LoadUseCostsOneCycle := by
  intro d base e a off p s hs hf
  obtain ⟨lc, hc⟩ := compute_decoded_total
    (writeReg s.x d (readCell p.xlen s.mem (readReg s.x base + literalWord p.xlen off).toNat)) (.add e a d)
  obtain ⟨hl, hil⟩ := computed_spec hc
  obtain ⟨hstall, hretry⟩ := loadUse_pair (i := .lw d base off) (c := .add e a d) (d := d) hs rfl rfl rfl
    (by simp [sourcesOf]) rfl (.load rfl rfl hf) hc
  refine ⟨_, _, _, hstall, rfl, hretry, hs.stall, rfl, rfl,
    executed_drains (s := s.delayed) (l3 := Latch.bubble) hs.params_wf hs.running hs.stall (by rw [hil]; rfl) hl
      (.pass (by rw [hil]; rfl) (by rw [hil]; rfl)) rfl, rfl, ?_⟩
  cases hc
  change writeReg _ e (addResult (readReg _ a) (readReg (writeReg s.x d _) d)) = _
  rw [readReg_writeReg_same]
  rfl

end Sys2Proof.Machine
end
